-- ==== Sys2Proof/Word.lean ====
section
/-! DEFINITION. The word types of the QRGF block (00_scope.md R5, R6): every one is unsigned, bit 0 the least significant. -/

namespace Sys2Proof

/-- A codeword or field element, and one stored byte of a buffer or cell (`CW_BITS = 8`, R5). -/
abbrev Byte := BitVec 8

/-- The content of one location (`DATA_W = 32`, R5, R60). -/
abbrev Word := BitVec 32

/-- A location address (`LOC_W = 17`, R5, R60). -/
abbrev Loc := BitVec 17

/-- A buffer entry as a command reads it or leaves it: a byte, or `none`, an unspecified value (00_scope.md R12, 20_memory.md R63). -/
abbrev Entry := Option Byte

/-- A polynomial: a list of codewords, highest-degree coefficient first; `[]` is the zero polynomial (R7). -/
abbrev Poly := List Byte

end Sys2Proof
end

