-- ==== Sys2Proof/Config.lean ====
section
/-! DEFINITION. What is fixed for the block (00_scope.md R5), the form of its open parameters (D17, D20, D21), and the free values
(R12: a value on which no proof may rely). The contents the open parameters are instantiated with stand in Machine/Tables.lean. -/

namespace Sys2Proof.Config

/-- `FIELD_POLY`: x^8 + x^4 + x^3 + x^2 + 1 (R5). The EXP table of Machine/Tables.lean is built on it. -/
def fieldPoly : Nat := 0x11D

/-- `ALPHA`: the element whose powers EXP lists (R5). -/
def alpha : Nat := 2

/-- `CW_BITS`: the width of a codeword, and so the place of the carry bit of its double (R5). -/
def cwBits : Nat := 8

/-- `EXP_LEN`: EXP has the indices `0 .. 511` (R5, R21). -/
def expLen : Nat := 512

/-- `GEN_MAX`: generator polynomials `G_0 .. G_68` exist (R5, R150). -/
def genMax : Nat := 68

/-- `POLY_CAP`: the capacity in entries of each polynomial buffer (R5, R26, D6). -/
def polyCap : Nat := 256

/-- `VER_MIN` (R5). -/
def verMin : Nat := 1

/-- `VER_MAX` (R5). -/
def verMax : Nat := 40

/-- `N_MAX`: the side of the largest symbol (R5, R28). -/
def nMax : Nat := 177

/-- `NMASK`: the mask predicates are numbered `0 .. 7` (R5, R170). -/
abbrev nMask : Nat := 8

/-- `FMT_BITS`: the width of a format code (R5). -/
abbrev fmtBits : Nat := 15

/-- `VERINFO_BITS`: the width of a version code (R5). -/
abbrev verInfoBits : Nat := 18

/-- The lowest version that carries version information (R214, R220). -/
def verInfoMin : Nat := 7

/-- The run length from which adjacency scores (R5, R172). -/
def runThreshold : Nat := 5

/-- What a run of exactly the threshold length scores (R5, R172). -/
def runBase : Nat := 3

/-- What one uniform 2 by 2 block scores (R5, R173). -/
def blockScore : Nat := 3

/-- What one finder-like window scores (R5, R174). -/
def finderScore : Nat := 40

/-- What each full 5 % of deviation from one half scores (R5, R175). -/
def proportionStep : Nat := 10

/-- The open parameters of the block: two tables whose contents the source does not print (R24, R25, D20, D21) and the value
`FMTRSV` writes to the dark-module cell (`RSV_DARK`, D17). -/
structure Params where
  formatInformation  : Vector (BitVec fmtBits) 32
  versionInformation : Vector (BitVec verInfoBits) 34
  rsvDark            : Bool
deriving DecidableEq, Repr

/-- FREE VALUE (R12, R27, R42, R63): an unspecified byte, by the number of the draw and, `use`, what it is drawn for: a buffer entry, by
its location, or an entry that a division may have to strip, by how many entries follow it (fewer than 256, and no buffer stands
there). Log 1, 12. -/
opaque freeByte (draw use : Nat) : Byte

/-- FREE VALUE (R12, R63, R68): the word that a host read with an unspecified result returns, by the number of the draw. Log 4. -/
opaque freeWord (draw : Nat) : Word

/-- FREE VALUE (R278): how many host turns pass while an accepted command is still BUSY, by the number of the draw; finite,
otherwise unconstrained. Log 6. -/
opaque busyTurns (draw : Nat) : Nat

end Sys2Proof.Config
end

