-- ==== Sys2Proof/Syntax.lean ====
section
/-! DEFINITION. The 16 commands of the QRGF block (30_encoding.md R93), one constructor per row of spec/opcode_table.json. Every operand
has exactly the width of its field in the command word (R91, R92). -/

namespace Sys2Proof

/-- The error-correction level a command operand names (00_scope.md R10). -/
inductive EcLevel where
  | l | m | q | h
deriving DecidableEq, Repr

/-- The numeric code of a level: L = 0, M = 1, Q = 2, H = 3 (R10). -/
def EcLevel.toBits : EcLevel → BitVec 2
  | .l => 0
  | .m => 1
  | .q => 2
  | .h => 3

/-- One command (R93). -/
inductive Instr where
  /-- `GFMUL a, b` (R124) -/
  | gfmul (a b : Byte)
  /-- `GFEXP idx` (R125) -/
  | gfexp (idx : BitVec 9)
  /-- `GFLOG x` (R126) -/
  | gflog (x : Byte)
  /-- `PMUL` (R127) -/
  | pmul
  /-- `PMOD` (R128) -/
  | pmod
  /-- `GENLD d` (R152) -/
  | genld (d : BitVec 7)
  /-- `RSENC e` (R153) -/
  | rsenc (e : BitVec 7)
  /-- `MINIT v` (R178) -/
  | minit (v : BitVec 6)
  /-- `MASKAPPLY m` (R179) -/
  | maskapply (m : BitVec 3)
  /-- `SCORE` (R180) -/
  | score
  /-- `MASKSEL` (R181) -/
  | masksel
  /-- `FMTPACK ec, m` (R216) -/
  | fmtpack (ec : EcLevel) (m : BitVec 3)
  /-- `FMTRSV` (R217) -/
  | fmtrsv
  /-- `FMTPLACE ec, m` (R218) -/
  | fmtplace (ec : EcLevel) (m : BitVec 3)
  /-- `VERPACK v` (R219) -/
  | verpack (v : BitVec 6)
  /-- `VERPLACE` (R220) -/
  | verplace
deriving DecidableEq, Repr

end Sys2Proof
end

