-- ==== Sys2Proof/WellFormed.lean ====
section
/-! DEFINITION. Which commands have every operand in its legal range (30_encoding.md R92). Every term of `Instr` has a command word,
since its operands have the widths of their fields; a term that is not well formed is a legal word whose command ends as the fault
INVALID_INPUT (R92, R94). -/

namespace Sys2Proof

/-- The legal operand ranges of R92: degree and EC count `0 .. 68`, version `1 .. 40` for `MINIT` and `7 .. 40` for `VERPACK`; every
other operand is legal at every value of its field. -/
def Instr.wf : Instr → Bool
  | .gfmul _ _ => true
  | .gfexp _ => true
  | .gflog _ => true
  | .pmul => true
  | .pmod => true
  | .genld d => decide (d.toNat ≤ Config.genMax)
  | .rsenc e => decide (e.toNat ≤ Config.genMax)
  | .minit v => decide (Config.verMin ≤ v.toNat ∧ v.toNat ≤ Config.verMax)
  | .maskapply _ => true
  | .score => true
  | .masksel => true
  | .fmtpack _ _ => true
  | .fmtrsv => true
  | .fmtplace _ _ => true
  | .verpack v => decide (Config.verInfoMin ≤ v.toNat ∧ v.toNat ≤ Config.verMax)
  | .verplace => true

/-- `i` has every operand in its legal range (R92). -/
abbrev Instr.WellFormed (i : Instr) : Prop := i.wf = true

end Sys2Proof
end

