-- ==== Sys2Proof/Decode.lean ====
section
/-! DEFINITION. The decoder of the command word, total and rejecting by name (30_encoding.md R90 to R94), and after it the encoder,
both written from the formats of R91 and the opcode map of R93. -/

namespace Sys2Proof

/-- Why a word is no command (R94). -/
inductive IllegalWord where
  /-- Bits 31:24 are none of the 16 opcodes. -/
  | unassignedOpcode
  /-- The opcode is assigned and a reserved bit of its format is 1. -/
  | reservedBit
deriving DecidableEq, Repr

/-- What the decoder makes of a word. -/
inductive Decoded where
  | command (i : Instr)
  | illegal (why : IllegalWord)
deriving DecidableEq, Repr

/-- The opcode, bits 31:24 (R90). -/
def opcodeOf (w : Word) : BitVec 8 := w.extractLsb' 24 8

/-- The 16 assigned opcodes (R93). -/
def assignedOpcodes : List (BitVec 8) :=
  [0x10, 0x11, 0x12, 0x14, 0x15, 0x20, 0x21, 0x30, 0x31, 0x32, 0x33, 0x40, 0x41, 0x42, 0x44, 0x45]

/-- The level a 2-bit field names (R10); every value names one. -/
def ecLevelOf (b : BitVec 2) : EcLevel :=
  match b.toNat with
  | 0 => .l
  | 1 => .m
  | 2 => .q
  | _ => .h

/-- The operand `ec`, bits 9:8 of format EM (R91). -/
def ecField (w : Word) : EcLevel := ecLevelOf (w.extractLsb' 8 2)

/-- The mask operand `m`, bits 2:0 of formats I3 and EM (R91). -/
def maskField (w : Word) : BitVec 3 := w.extractLsb' 0 3

/-- Whether `w` selects the row with this mask and match (R93). -/
def selects (w mask pattern : Word) : Bool := w &&& mask == pattern

/-- Decoding is total: one of the 16 commands, or illegal by name (R93, R94). -/
def decode (w : Word) : Decoded :=
  if selects w 0xFFFF0000 0x10000000 then .command (.gfmul (w.extractLsb' 0 8) (w.extractLsb' 8 8))
  else if selects w 0xFFFFFE00 0x11000000 then .command (.gfexp (w.extractLsb' 0 9))
  else if selects w 0xFFFFFF00 0x12000000 then .command (.gflog (w.extractLsb' 0 8))
  else if selects w 0xFFFFFFFF 0x14000000 then .command .pmul
  else if selects w 0xFFFFFFFF 0x15000000 then .command .pmod
  else if selects w 0xFFFFFF80 0x20000000 then .command (.genld (w.extractLsb' 0 7))
  else if selects w 0xFFFFFF80 0x21000000 then .command (.rsenc (w.extractLsb' 0 7))
  else if selects w 0xFFFFFFC0 0x30000000 then .command (.minit (w.extractLsb' 0 6))
  else if selects w 0xFFFFFFF8 0x31000000 then .command (.maskapply (maskField w))
  else if selects w 0xFFFFFFFF 0x32000000 then .command .score
  else if selects w 0xFFFFFFFF 0x33000000 then .command .masksel
  else if selects w 0xFFFFFCF8 0x40000000 then .command (.fmtpack (ecField w) (maskField w))
  else if selects w 0xFFFFFFFF 0x41000000 then .command .fmtrsv
  else if selects w 0xFFFFFCF8 0x42000000 then .command (.fmtplace (ecField w) (maskField w))
  else if selects w 0xFFFFFFC0 0x44000000 then .command (.verpack (w.extractLsb' 0 6))
  else if selects w 0xFFFFFFFF 0x45000000 then .command .verplace
  else if assignedOpcodes.contains (opcodeOf w) then .illegal .reservedBit
  else .illegal .unassignedOpcode

/-- The command a decoded word holds, if it is one. -/
def Decoded.instr? : Decoded → Option Instr
  | .command i => some i
  | .illegal _ => none

/-- The command of an instruction given as the opcode table numbers its bits: bit 0 the least significant bit of the one 32-bit word
(R90); the bits from `nbits` on are 0. A command has 32 bits, so more than 32 are no command. -/
def decodeTableWord (nbits w : Nat) : Option Instr :=
  if nbits ≤ 32 then (decode (BitVec.ofNat 32 (w % 2 ^ nbits))).instr? else none

/-- The command word of a command, field by field from the bit pictures of R91, most significant on the left. -/
def encode : Instr → Word
  | .gfmul a b => 0x10#8 ++ 0#8 ++ b ++ a
  | .gfexp idx => 0x11#8 ++ 0#15 ++ idx
  | .gflog x => 0x12#8 ++ 0#16 ++ x
  | .pmul => 0x14#8 ++ 0#24
  | .pmod => 0x15#8 ++ 0#24
  | .genld d => 0x20#8 ++ 0#17 ++ d
  | .rsenc e => 0x21#8 ++ 0#17 ++ e
  | .minit v => 0x30#8 ++ 0#18 ++ v
  | .maskapply m => 0x31#8 ++ 0#21 ++ m
  | .score => 0x32#8 ++ 0#24
  | .masksel => 0x33#8 ++ 0#24
  | .fmtpack ec m => 0x40#8 ++ 0#14 ++ ec.toBits ++ 0#5 ++ m
  | .fmtrsv => 0x41#8 ++ 0#24
  | .fmtplace ec m => 0x42#8 ++ 0#14 ++ ec.toBits ++ 0#5 ++ m
  | .verpack v => 0x44#8 ++ 0#18 ++ v
  | .verplace => 0x45#8 ++ 0#24

end Sys2Proof
end

