-- ==== Sys2Proof/Machine/State.lean ====
section
/-! DEFINITION. The state of the QRGF block (10_state.md R20) as plain data, the host's pending actions beside it, the reasons a step
can stop, and the state after reset (R42). -/

namespace Sys2Proof.Machine

/-- The storage of the location space: (location, byte) pairs of the buffers A, B, C and of the matrix cells (20_memory.md R60), in the
canonical form `Memory.wf` of Ops.lean. -/
abbrev Memory := List Host.Cell

/-- `PHASE` (R30). -/
inductive Phase where
  | idle | busy | fault
deriving DecidableEq, Repr

/-- The causes of the block's own faults (60_exceptions.md R243). -/
inductive Cause where
  | illegalCmd | invalidInput | logZero | length | divisor | noMatrix | unsetCell | cellConflict
deriving DecidableEq, Repr

/-- One action of the host: the accesses of R61, the poll that ends a command line (R95), and the reset input (R270). -/
inductive HostOp where
  /-- `MemRead(loc, 1)` (R61) -/
  | read (loc : Loc)
  /-- `MemWrite(loc, 1, v)` (R61) -/
  | write (loc : Loc) (v : Word)
  /-- Reads of `STATUS` until `BUSY = 0` (R95) -/
  | poll
  /-- Assert `rst` (R270) -/
  | reset
deriving DecidableEq, Repr

/-- The state of the block, and in its last four fields what the model adds: the host's pending actions, the turns left to the host
while the block is busy, the data of the last host read, and the number of the next free value. -/
structure State where
  /-- `LEN_A` (R26, R37) -/
  lenA : Nat
  /-- `LEN_B` (R26, R37) -/
  lenB : Nat
  /-- `LEN_C` (R26, R37) -/
  lenC : Nat
  /-- `VER.V`, 0 meaning no matrix (R35); `VER.N` is computed from it -/
  ver : Fin 41
  /-- `RESULT` (R36) -/
  result : BitVec 18
  /-- `DARK` (R38) -/
  dark : Word
  /-- `PEN_ADJ` (R38) -/
  penAdj : Word
  /-- `PEN_BLK` (R38) -/
  penBlk : Word
  /-- `PEN_FIND` (R38) -/
  penFind : Word
  /-- `PEN_PROP` (R38) -/
  penProp : Word
  /-- `PEN_TOTAL` (R38) -/
  penTotal : Word
  /-- `MPEN[0..7]` (R39) -/
  mpen : Vector Word Config.nMask
  /-- `BEST` (R39) -/
  best : BitVec 3
  /-- `PHASE` (R30); `STATUS.BUSY` and `STATUS.ERR` are read off it (R33) -/
  phase : Phase
  /-- `CMDREG` (R30, R32) -/
  cmdreg : Word
  /-- `STATUS.DONE` (R33) -/
  done : Bool
  /-- `STATUS.HERR` (R33) -/
  herr : Bool
  /-- `ERRCODE` (R34) -/
  errcode : BitVec 4
  /-- `ERRCMD` (R34) -/
  errcmd : Word
  /-- Buffers A, B, C and the matrix memory (R26, R28) -/
  mem : Memory
  /-- Own: the host's pending actions, the next one first (R279; log 5) -/
  script : List HostOp
  /-- Own: the host turns that still pass before the running command's transition (R278; log 6) -/
  busyFor : Nat
  /-- Own: the data of the last host read, R61's `rdata[31:0]` (log 7) -/
  rdata : Word
  /-- Own: the number of the next free value (R12; log 4) -/
  draws : Nat
deriving DecidableEq, Repr

/-- The model-level faults: there are none. A fault of the block (R241) is a next state, an illegal host access is a next state with
`HERR` set (R68), and the types of `State` leave no state in which a command has no effect; so no step raises one. -/
inductive Fault where
deriving DecidableEq, Repr

/-- The refusals. -/
inductive Refusal where
  /-- Raised by an arm of `exec` whose command has no meaning yet, by the command's mnemonic; safe. No arm raises it: all 16 commands
  have their meaning. -/
  | notModelled (mnemonic : String)
deriving DecidableEq, Repr

/-- The answer of a meaning and of a step. -/
abbrev Answer := Host.Outcome State Fault Refusal

/-- The machine right after reset (R42, R270): phase IDLE, every register 0, the three buffers empty, no matrix, and nothing of the
storage listed. The model's own fields are empty and zero (log 4 to 7). -/
def State.reset : State where
  lenA := 0
  lenB := 0
  lenC := 0
  ver := 0
  result := 0
  dark := 0
  penAdj := 0
  penBlk := 0
  penFind := 0
  penProp := 0
  penTotal := 0
  mpen := #v[0, 0, 0, 0, 0, 0, 0, 0]
  best := 0
  phase := .idle
  cmdreg := 0
  done := false
  herr := false
  errcode := 0
  errcmd := 0
  mem := []
  script := []
  busyFor := 0
  rdata := 0
  draws := 0

end Sys2Proof.Machine
end

