-- ==== Sys2Proof/Machine/Ops.lean ====
section
/-! DEFINITION. The storage of the location space, the writes of the result registers, the completion of a command, the taking of a fault
and the reset that is its only way out (20_memory.md R60, R63, R64; 60_exceptions.md R240, R241, R246; 70_reset_and_hazards.md R270). -/

namespace Sys2Proof.Machine

/-! ## The storage windows of the location map (R60) -/

/-- The first location of buffer A. -/
def baseA : Nat := 0x1000

/-- The first location of buffer B. -/
def baseB : Nat := 0x1100

/-- The first location of buffer C. -/
def baseC : Nat := 0x1200

/-- The first location of the matrix window. -/
def baseMat : Nat := 0x10000

/-- The location of matrix cell `(x, y)`, row pitch 256 (R60, R64). -/
def matLoc (x y : Nat) : Nat := baseMat + 256 * y + x

/-- The column of a matrix location. -/
def matX (loc : Nat) : Nat := (loc - baseMat) % 256

/-- The row of a matrix location. -/
def matY (loc : Nat) : Nat := (loc - baseMat) / 256

/-! ## Memory -/

/-- What a storage location that is not listed holds: a matrix cell is unset, 0 (log 3), a buffer entry has no value (log 1). -/
def Memory.unlisted (loc : Nat) : Option Byte := if baseMat ≤ loc then some 0 else none

/-- What a storage location holds; `none` if it has no value. -/
def Memory.read : Memory → Nat → Option Byte
  | [], loc => Memory.unlisted loc
  | c :: m, loc => if c.1 = loc then some c.2 else Memory.read m loc

/-- Put `b` at `loc`, keeping the locations rising. -/
def Memory.insert : Memory → Nat → Byte → Memory
  | [], loc, b => [(loc, b)]
  | c :: m, loc, b =>
    if loc < c.1 then (loc, b) :: c :: m
    else if loc = c.1 then (loc, b) :: m
    else c :: Memory.insert m loc b

/-- Write one location; a location that then reads as an unlisted one does is not listed. -/
def Memory.write (m : Memory) (loc : Nat) (b : Byte) : Memory :=
  if Memory.unlisted loc = some b then m.filter (fun c => c.1 != loc) else Memory.insert m loc b

/-- The listed locations below a bound. -/
def Memory.below (m : Memory) (bound : Nat) : Memory := m.filter fun c => decide (c.1 < bound)

/-- The listed locations from a bound on. -/
def Memory.from (m : Memory) (bound : Nat) : Memory := m.filter fun c => decide (bound ≤ c.1)

/-- The entries of a list at consecutive locations from `base` on; an unspecified entry is not listed. -/
def Memory.place : Nat → List Entry → Memory
  | _, [] => []
  | base, none :: bs => Memory.place (base + 1) bs
  | base, some b :: bs => (base, b) :: Memory.place (base + 1) bs

/-- Buffer C holds exactly the entries of `p` and nothing else: the unspecified ones and those at and beyond the new length have no
value (R27, R275). -/
def Memory.replaceC (m : Memory) (p : List Entry) : Memory :=
  Memory.below m baseC ++ Memory.place baseC p ++ Memory.from m (baseC + Config.polyCap)

/-- No cell of the matrix window is listed: every cell is unset (R178). -/
def Memory.clearMatrix (m : Memory) : Memory := Memory.below m baseMat

/-- The canonical form: locations strictly rising, and no entry equal to what an unlisted location holds. -/
abbrev Memory.wf (m : Memory) : Prop :=
  m.Pairwise (fun c d => c.1 < d.1) ∧ ∀ c ∈ m, Memory.unlisted c.1 ≠ some c.2

/-! ## Register writes -/

/-- `RESULT <- v` (R36). -/
def State.setResult (s : State) (v : BitVec 18) : State := { s with result := v }

/-- `C[0 .. |p|-1] <- p`, `LEN_C <- |p|`, the unspecified entries of `p` and the other entries of C without a value
(R27, R127, R128, R152, R153, R275). -/
def State.setC (s : State) (p : List Entry) : State :=
  { s with mem := Memory.replaceC s.mem p, lenC := p.length }

/-- `MAT <- m`, as a new content of the storage. -/
def State.setMem (s : State) (m : Memory) : State := { s with mem := m }

/-- `VER.V <- v`, and with it `VER.N` (R35). -/
def State.setVer (s : State) (v : Fin 41) : State := { s with ver := v }

/-- `MPEN[0..7] <- pens`, `BEST <- best` (R39, R181). -/
def State.setSelection (s : State) (pens : Vector Word Config.nMask) (best : BitVec 3) : State :=
  { s with mpen := pens, best := best }

/-! ## The end of a command, and reset -/

/-- Completion (R240): `STATUS.DONE <- 1`, `PHASE <- IDLE`. The command's free values are used up (log 4). -/
def State.complete (s : State) : State :=
  { s with done := true, phase := .idle, draws := s.draws + 1 }

/-- The code of a cause in `ERRCODE[3:0]` (R243). -/
def Cause.code : Cause → BitVec 4
  | .illegalCmd => 1
  | .invalidInput => 2
  | .logZero => 3
  | .length => 4
  | .divisor => 5
  | .noMatrix => 6
  | .unsetCell => 7
  | .cellConflict => 8

/-- Fault entry (R241): `ERRCODE[3:0] <- cause`, `ERRCMD <- CMDREG`, `PHASE <- FAULT` (so `ERR` reads 1 and `BUSY` 0), and nothing
else; `DONE` is 0 since the command was accepted (R32). The command's free values are used up (log 4). -/
def State.faultEntry (s : State) (cause : Cause) : State :=
  { s with errcode := cause.code, errcmd := s.cmdreg, phase := .fault, draws := s.draws + 1 }

/-- Reset (R270), the only way out of phase FAULT (R246): every piece of state at its reset value. What belongs to the host and to the
model stays: the pending actions, the data the host last read, the number of the next free value (log 5, 7, 4). -/
def State.assertReset (s : State) : State :=
  { State.reset with script := s.script, rdata := s.rdata, draws := s.draws }

/-- The first of a list of preconditions, in the order of R244, that fails: each is paired with the cause of its failing. -/
def firstFailing : List (Bool × Cause) → Option Cause
  | [] => none
  | (fails, cause) :: rest => if fails then some cause else firstFailing rest

/-- A command as one transition (R242): the fault of the first failing precondition, or the command's state writes and completion. -/
def conclude (checks : List (Bool × Cause)) (effect : State → State) (s : State) : Answer :=
  match firstFailing checks with
  | some cause => .next (s.faultEntry cause)
  | none => .next (effect s).complete

/-! ## Accepting a command -/

/-- A `CMD` write in phase IDLE (R32): `CMDREG <- w`, `STATUS.DONE <- 0`, `PHASE <- BUSY`. How many host turns the block then stays BUSY
is a free value (R278, log 6). -/
def State.acceptCommand (s : State) (w : Word) : State :=
  { s with cmdreg := w, done := false, phase := .busy, busyFor := Config.busyTurns s.draws, draws := s.draws + 1 }

/-- The block has just accepted `w` and its transition is the next thing to happen (log 11). -/
def State.loadCommand (s : State) (w : Word) : State :=
  { s with cmdreg := w, done := false, phase := .busy, busyFor := 0 }

end Sys2Proof.Machine
end

