-- ==== Sys2Proof/Machine/Operands.lean ====
section
/-! DEFINITION. The operands of the commands: the lists held by the buffers (10_state.md R26, R27), the matrix cells and the symbol (R28,
R29), and the places the location addresses name (20_memory.md R60). -/

namespace Sys2Proof.Machine

/-! ## Buffer operands -/

/-- The list held by a buffer of length `len` (R26): entry by entry what was written, or unspecified where nothing was (R63, R275). -/
def State.bufferList (s : State) (base len : Nat) : List Entry := (List.range len).map fun i => Memory.read s.mem (base + i)

/-- The list held by buffer A (R26). -/
def State.listA (s : State) : List Entry := s.bufferList baseA s.lenA

/-- The list held by buffer B (R26). -/
def State.listB (s : State) : List Entry := s.bufferList baseB s.lenB

/-- Entry `loc` of a buffer where a precondition has to know it: what was written, or a free value where nothing was (R128, log 12). -/
def State.entry (s : State) (loc : Nat) : Byte := (Memory.read s.mem loc).getD (Config.freeByte s.draws loc)

/-! ## Cells and the symbol -/

/-- A cell of the matrix (R28): `.set`, `.cw` (the document's `isCodeword`), `.val` (the document's `value`, true = dark). -/
structure Cell where
  isSet      : Bool
  isCodeword : Bool
  value      : Bool
deriving DecidableEq, Repr

/-- The three bits of a cell: `.val` in bit 0, `.cw` in bit 1, `.set` in bit 2 (R28). -/
def Cell.toByte (c : Cell) : Byte :=
  0#5 ++ BitVec.ofBool c.isSet ++ BitVec.ofBool c.isCodeword ++ BitVec.ofBool c.value

/-- The cell whose bits are the low three of a byte (R28, R64). -/
def Cell.ofByte (b : Byte) : Cell where
  isSet := b.getLsbD 2
  isCodeword := b.getLsbD 1
  value := b.getLsbD 0

/-- The cell a placer writes: set, functional, of the given colour (R213, R215). -/
def Cell.functional (dark : Bool) : Cell := ⟨true, false, dark⟩

/-- The side `N` of version `v`, and 0 for no matrix (R35). -/
def sideOf (v : Fin 41) : Nat := if v.val = 0 then 0 else 21 + 4 * (v.val - 1)

/-- `VER.N` (R35). -/
def State.side (s : State) : Nat := sideOf s.ver

/-- The cell at `(x, y)` (R28). -/
def cellAt (m : Memory) (x y : Nat) : Cell := Cell.ofByte ((Memory.read m (matLoc x y)).getD 0)

/-- `MAT[x, y] <- c` (R11). -/
def writeCell (m : Memory) (x y : Nat) (c : Cell) : Memory := Memory.write m (matLoc x y) c.toByte

/-- Row `y` of the `n` by `n` symbol, left to right. -/
def symbolRow (m : Memory) (n y : Nat) : List Cell :=
  let row := Memory.below (Memory.from m (matLoc 0 y)) (matLoc 0 (y + 1))
  (List.range n).map fun x => cellAt row x y

/-- The `n` by `n` symbol, its rows from the top (R28). -/
def symbol (m : Memory) (n : Nat) : List (List Cell) := (List.range n).map (symbolRow m n)

/-- Whether some cell of the symbol is unset (R179 to R181). -/
def State.hasUnsetCell (s : State) : Bool := (symbol s.mem s.side).any fun row => row.any fun c => !c.isSet

/-- Whether there is no matrix (`VER.V = 0`, R243). -/
def State.hasNoMatrix (s : State) : Bool := decide (s.ver.val = 0)

/-! ## Places of the location space -/

/-- The registers (R31). -/
inductive Reg where
  | cmd | status | errcode | errcmd | ver | result | lenA | lenB | lenC
  | dark | penAdj | penBlk | penFind | penProp | penTotal | best
  | mpen (i : Fin 8)
deriving DecidableEq, Repr

/-- What a location is (R60). -/
inductive Place where
  | reg (r : Reg)
  | bufA (i : Nat)
  | bufB (i : Nat)
  | bufC (i : Nat)
  | cell (x y : Nat)
  | unmapped
deriving DecidableEq, Repr

/-- The register at a location below `0x00018` (R31). -/
def regAt (loc : Nat) : Reg :=
  match loc with
  | 0x00 => .cmd
  | 0x01 => .status
  | 0x02 => .errcode
  | 0x03 => .errcmd
  | 0x04 => .ver
  | 0x05 => .result
  | 0x06 => .lenA
  | 0x07 => .lenB
  | 0x08 => .lenC
  | 0x09 => .dark
  | 0x0A => .penAdj
  | 0x0B => .penBlk
  | 0x0C => .penFind
  | 0x0D => .penProp
  | 0x0E => .penTotal
  | 0x0F => .best
  | n => .mpen (Fin.ofNat 8 (n - 0x10))

/-- The location map of R60. -/
def placeAt (loc : Nat) : Place :=
  if loc < 0x00018 then .reg (regAt loc)
  else if loc < baseA then .unmapped
  else if loc < baseB then .bufA (loc - baseA)
  else if loc < baseC then .bufB (loc - baseB)
  else if loc < baseC + Config.polyCap then .bufC (loc - baseC)
  else if loc < baseMat then .unmapped
  else .cell (matX loc) (matY loc)

/-- Whether `(x, y)` is a cell of the current symbol, so that its location is valid (R64). -/
def State.validCell (s : State) (x y : Nat) : Bool :=
  decide (s.ver.val ≠ 0) && decide (x < s.side) && decide (y < s.side)

end Sys2Proof.Machine
end

