-- ==== Sys2Proof/Machine/Placement.lean ====
section
/-! DEFINITION. The packer functions, the placement maps and the placers of the format and version information (43_format_version.md R210
to R215, R221). -/

namespace Sys2Proof.Machine

/-! ## Packers -/

/-- The 2-bit field a level has in the format information (R210). -/
def ecBits : EcLevel → BitVec 2
  | .l => 0b01
  | .m => 0b00
  | .q => 0b11
  | .h => 0b10

/-- The index of the format code: `ecBits` in bits 4:3, the mask in bits 2:0 (R211). -/
def formatIndex (ec : EcLevel) (m : BitVec 3) : BitVec 5 := ecBits ec ++ m

/-- `formatCode(ec, m)` (R211). -/
def formatCode (p : Config.Params) (ec : EcLevel) (m : BitVec 3) : BitVec Config.fmtBits :=
  p.formatInformation[(formatIndex ec m).toNat]'(formatIndex ec m).isLt

/-- `versionCode(v)` for `v` in `7 .. 40` (R214); no other version has one. -/
def versionCode (p : Config.Params) (v : Nat) : Option (BitVec Config.verInfoBits) :=
  if Config.verInfoMin ≤ v then p.versionInformation[v - Config.verInfoMin]? else none

/-- The document's bit `i` of a code: 0 is the most significant (R8). -/
def sbit {w : Nat} (c : BitVec w) (i : Nat) : Bool := c.getLsbD (w - 1 - i)

/-! ## Placement maps -/

/-- Bit `bit` of a code belongs at cell `(x, y)`. -/
structure BitCell where
  bit : Nat
  x   : Nat
  y   : Nat
deriving DecidableEq, Repr

/-- Index 6, the timing line, is skipped (R212). -/
def skip6 (i : Nat) : Nat := if i < 6 then i else i + 1

/-- The 32 pairs of the format cell map (R212). -/
def fmtCells (n : Nat) : List BitCell :=
  (List.range 8).flatMap (fun i => [⟨i, skip6 i, 8⟩, ⟨i, 8, n - 1 - i⟩])
    ++ (List.range 8).flatMap (fun i => [⟨14 - i, 8, skip6 i⟩, ⟨14 - i, n - 1 - i, 8⟩])

/-- The 36 pairs of the version cell map (R215), for `N >= 45`. -/
def verCells (n : Nat) : List BitCell :=
  (List.range 18).flatMap fun i => [⟨i, n - 9 - i % 3, 5 - i / 3⟩, ⟨i, 5 - i / 3, n - 9 - i % 3⟩]

/-! ## Placers -/

/-- Write the bits of a code into the cells of a map, each set and functional (R213, R215). -/
def placeBits {w : Nat} (c : BitVec w) (cells : List BitCell) (m : Memory) : Memory :=
  cells.foldl (fun m p => writeCell m p.x p.y (.functional (sbit c p.bit))) m

/-- `placeFormat(M, c, dm)` (R213): the 32 pairs, and after them the dark module at `(8, N-8)`. -/
def placeFormat (n : Nat) (c : BitVec Config.fmtBits) (dm : Bool) (m : Memory) : Memory :=
  writeCell (placeBits c (fmtCells n) m) 8 (n - 8) (.functional dm)

/-- `placeVersion(M, c)` (R215). -/
def placeVersion (n : Nat) (c : BitVec Config.verInfoBits) (m : Memory) : Memory := placeBits c (verCells n) m

/-- Whether a target cell is a codeword cell (R221): `.set = 1` and `.cw = 1`. The target cells of the format map contain the dark module,
`(8, N-8)`, which bit 7 names (R212). -/
def State.hasConflict (s : State) (targets : List BitCell) : Bool :=
  targets.any fun p => let c := cellAt s.mem p.x p.y; c.isSet && c.isCodeword

/-- The cells `VERPLACE` writes: none below version 7 (R220, R221). -/
def versionTargets (v : Fin 41) : List BitCell :=
  if Config.verInfoMin ≤ v.val then verCells (sideOf v) else []

end Sys2Proof.Machine
end

