-- ==== Sys2Proof/Machine/FormatVersion.lean ====
section
/-! DEFINITION. The meanings of the format and version information commands (43_format_version.md R216 to R220). -/

namespace Sys2Proof.Machine

/-- The preconditions of a placer: NO_MATRIX, then CELL_CONFLICT on its target cells (R217, R218, R220, R221, R244). -/
def placerChecks (s : State) (targets : List BitCell) : List (Bool × Cause) :=
  [(s.hasNoMatrix, .noMatrix), (s.hasConflict targets, .cellConflict)]

/-! ## For any contents of the open parameters (R5, R24, R25) -/

/-- `FMTPACK ec, m` (R216). -/
def fmtpackFor (p : Config.Params) (ec : EcLevel) (m : BitVec 3) (s : State) : Answer :=
  conclude [] (fun s => s.setResult ((formatCode p ec m).setWidth 18)) s

/-- `FMTRSV` (R217): the placement of the all-zero code with `RSV_DARK` in the dark-module cell. -/
def fmtrsvFor (p : Config.Params) (s : State) : Answer :=
  conclude (placerChecks s (fmtCells s.side)) (fun s => s.setMem (placeFormat s.side 0 p.rsvDark s.mem)) s

/-- `FMTPLACE ec, m` (R218). -/
def fmtplaceFor (p : Config.Params) (ec : EcLevel) (m : BitVec 3) (s : State) : Answer :=
  conclude (placerChecks s (fmtCells s.side)) (fun s => s.setMem (placeFormat s.side (formatCode p ec m) true s.mem)) s

/-- `VERPACK v` (R219): a version without a code is the fault INVALID_INPUT. -/
def verpackFor (p : Config.Params) (v : BitVec 6) (s : State) : Answer :=
  match versionCode p v.toNat with
  | none => .next (s.faultEntry .invalidInput)
  | some c => .next (s.setResult c).complete

/-- The state writes of `VERPLACE` (R220): the code of the current version, or nothing below version 7. -/
def State.stampVersion (p : Config.Params) (s : State) : State :=
  match versionCode p s.ver.val with
  | none => s
  | some c => s.setMem (placeVersion s.side c s.mem)

/-- `VERPLACE` (R220). -/
def verplaceFor (p : Config.Params) (s : State) : Answer :=
  conclude (placerChecks s (versionTargets s.ver)) (State.stampVersion p) s

/-! ## With the contents this hardware takes -/

/-- `FMTPACK ec, m` (R216). -/
def execFmtpack (ec : EcLevel) (m : BitVec 3) (s : State) : Answer := fmtpackFor params ec m s

/-- `FMTRSV` (R217). -/
def execFmtrsv (s : State) : Answer := fmtrsvFor params s

/-- `FMTPLACE ec, m` (R218). -/
def execFmtplace (ec : EcLevel) (m : BitVec 3) (s : State) : Answer := fmtplaceFor params ec m s

/-- `VERPACK v` (R219). -/
def execVerpack (v : BitVec 6) (s : State) : Answer := verpackFor params v s

/-- `VERPLACE` (R220). -/
def execVerplace (s : State) : Answer := verplaceFor params s

end Sys2Proof.Machine
end

