-- ==== Sys2Proof/Machine/Field.lean ====
section
/-! DEFINITION. GF(256) arithmetic and the polynomial functions (40_gf_poly.md R120 to R123, 41_rs.md R150, R151). -/

namespace Sys2Proof.Machine

/-- `gfMul(a, b)` (R120): 0 if either operand is 0, else `EXP[LOG[a] + LOG[b]]`, the index an ordinary sum. `LOG[0]` is never read. -/
def gfMul (a b : Byte) : Byte :=
  match gfLog a, gfLog b with
  | some i, some j => gfExp (i + j)
  | _, _ => 0

/-- The list of `n` zero codewords (R11). -/
def zeros (n : Nat) : Poly := List.replicate n 0

/-- Entry-by-entry field addition of two lists of one length: bitwise exclusive or (R121). -/
def gfAddLists (p q : Poly) : Poly := List.zipWith (· ^^^ ·) p q

/-- `s` times the polynomial `q`, entry by entry. -/
def gfScale (s : Byte) (q : Poly) : Poly := q.map fun c => gfMul c s

/-- `polyMul(p, q)` (R122): convolution under XOR addition and `gfMul`, of length `|p| + |q| - 1`, leading zeros kept. The leading entry
of `p` contributes `p[0] * q` shifted to the front, the rest of `p` its own product one place later. The spec leaves an empty operand
open and `PMUL` refuses it (R127). -/
def polyMul : Poly → Poly → Poly
  | [], q => zeros (q.length - 1)
  | a :: p, q => gfAddLists (gfScale a q ++ zeros p.length) (0 :: polyMul p q)

/-- XOR `divisor * c` into the head of `rem` (R123); `|divisor| <= |rem|`. -/
def subtractAtHead (rem divisor : Poly) (c : Byte) : Poly :=
  gfAddLists (rem.take divisor.length) (gfScale c divisor) ++ rem.drop divisor.length

/-- Strip leading zeros (R123). -/
def stripZeros (p : Poly) : Poly := p.dropWhile (· == 0)

/-- The division loop of R123, for at most `passes` passes. -/
def polyModLoop : Nat → Poly → Poly → Poly
  | 0, rem, _ => rem
  | passes + 1, rem, divisor =>
    if rem.length < divisor.length then rem
    else polyModLoop passes (stripZeros (subtractAtHead rem divisor (rem.headD 0))) divisor

/-- `polyMod(dividend, divisor)` (R123), for a divisor with `divisor[0] = 1`: every pass then removes an entry, so `|dividend|` passes
are enough. -/
def polyMod (dividend divisor : Poly) : Poly := polyModLoop dividend.length dividend divisor

/-- The generator polynomial `G_d` (R150). -/
def gen : Nat → Poly
  | 0 => [1]
  | d + 1 => polyMul (gen d) [1, gfExp d]

/-- `rsEncode(data, e)` (R151): the remainder of `data * x^e` by `G_e`, left-padded with zeros to exactly `e` codewords. -/
def rsEncode (data : Poly) (e : Nat) : Poly :=
  let rem := polyMod (data ++ zeros e) (gen e)
  zeros (e - rem.length) ++ rem

end Sys2Proof.Machine
end

