-- ==== Sys2Proof/Machine/OpenPoly.lean ====
section
/-! DEFINITION. The polynomial functions on lists with unspecified entries, for the commands whose operands the host need not have written
(00_scope.md R12, 20_memory.md R63, 70_reset_and_hazards.md R275): an entry of the result that depends on an unspecified entry is
unspecified. DESIGN CHOICE (log 23): R275 does not say what "depends" means; here a sum depends on each of its terms, also where XOR would
cancel them. On lists without one they are the functions of Field.lean (Laws/OpenPoly.lean). -/

namespace Sys2Proof.Machine

/-- Field addition (R121). Two unspecified terms never cancel (log 23). -/
def openAdd : Entry → Entry → Entry
  | some a, some b => some (a ^^^ b)
  | _, _ => none

/-- Field multiplication (R120): 0 if either operand is 0, whatever the other is. -/
def openMul : Entry → Entry → Entry
  | some a, some b => some (gfMul a b)
  | some a, none => if a = 0 then some 0 else none
  | none, some b => if b = 0 then some 0 else none
  | none, none => none

/-- A list of `n` zero entries. -/
def openZeros (n : Nat) : List Entry := List.replicate n (some 0)

/-- `polyMul` (R122). -/
def openPolyMul : List Entry → List Entry → List Entry
  | [], q => openZeros (q.length - 1)
  | a :: p, q => List.zipWith openAdd (q.map (fun c => openMul c a) ++ openZeros p.length) (some 0 :: openPolyMul p q)

/-- XOR `tail * c` into the front of `rem`; `|tail| <= |rem|`. -/
def addScaled (c : Entry) : List Entry → List Entry → List Entry
  | r :: rem, d :: tail => openAdd r (openMul d c) :: addScaled c rem tail
  | rem, [] => rem
  | [], _ :: _ => []

/-- Long division by a divisor `1 :: tail` (R123): every pass cancels the head of the remainder, also where it is 0. After all the passes the
remainder has `|tail|` entries, leading zeros included. Terms of an unspecified entry that cancel are not seen to (log 23). -/
def openDivide : Nat → List Entry → List Entry → List Entry
  | 0, rem, _ => rem
  | _ + 1, [], _ => []
  | passes + 1, c :: rem, tail => openDivide passes (addScaled c rem tail) tail

/-- The divisor behind its head. Where the head is unspecified, what a pass does with the other entries is too (log 12). -/
def divisorTail : List Entry → List Entry
  | [] => []
  | some _ :: tail => tail
  | none :: tail => tail.map fun _ => none

/-- Strip leading zeros (R123). Whether an unspecified entry is one is a free value, by how many entries follow it. -/
def openStrip (draw : Nat → Byte) : List Entry → List Entry
  | [] => []
  | some b :: rest => if b = 0 then openStrip draw rest else some b :: rest
  | none :: rest => if draw rest.length = 0 then openStrip draw rest else none :: rest

/-- `polyMod` (R123), for a divisor whose head is 1: without a pass the dividend itself, else the remainder without leading zeros. -/
def openPolyMod (draw : Nat → Byte) (dividend divisor : List Entry) : List Entry :=
  if dividend.length < divisor.length then dividend
  else openStrip draw (openDivide (dividend.length - (divisor.length - 1)) dividend (divisorTail divisor))

/-- `rsEncode` (R151): the remainder of `data * x^e` by `G_e`, all `e` coefficients. DESIGN CHOICE (log 23): after an unspecified entry
of the block all `e` count as depending on it, also one in whose sum its terms cancel, as where `x^255 = 1` modulo `G_e`. -/
def openRsEncode (data : List Entry) (e : Nat) : List Entry :=
  openDivide data.length (data ++ openZeros e) ((gen e).tail.map some)

end Sys2Proof.Machine
end

