-- ==== Sys2Proof/Machine/GfPoly.lean ====
section
/-! DEFINITION. The meanings of the GF(256) and polynomial commands (40_gf_poly.md R124 to R128). -/

namespace Sys2Proof.Machine

/-- `GFMUL a, b` (R124). -/
def execGfmul (a b : Byte) (s : State) : Answer :=
  conclude [] (fun s => s.setResult ((gfMul a b).setWidth 18)) s

/-- `GFEXP idx` (R125). -/
def execGfexp (idx : BitVec 9) (s : State) : Answer :=
  conclude [] (fun s => s.setResult ((gfExp idx.toNat).setWidth 18)) s

/-- `GFLOG x` (R126): `LOG[0]` has no value, so `x = 0` is the fault LOG_ZERO. -/
def execGflog (x : Byte) (s : State) : Answer :=
  match gfLog x with
  | none => .next (s.faultEntry .logZero)
  | some i => .next (s.setResult (BitVec.ofNat 18 i)).complete

/-- `PMUL` (R127): the empty-operand test before the capacity test (R244). -/
def execPmul (s : State) : Answer :=
  conclude
    [(decide (s.lenA = 0 ∨ s.lenB = 0), .length),
      (decide (Config.polyCap < s.lenA + s.lenB - 1), .length)]
    (fun s => s.setC (openPolyMul s.listA s.listB)) s

/-- `PMOD` (R128): the divisor has at least one entry and `B[0] = 1`. -/
def execPmod (s : State) : Answer :=
  conclude [(decide (s.lenB = 0 ∨ s.entry baseB ≠ 1), .divisor)]
    (fun s => s.setC (openPolyMod (Config.freeByte s.draws) s.listA s.listB)) s

end Sys2Proof.Machine
end

