-- ==== Sys2Proof/Machine/Mask.lean ====
section
/-! DEFINITION. The mask predicates and the application of a mask, the four penalty components and the selection (42_matrix_mask.md R170
to R177). -/

namespace Sys2Proof.Machine

/-! ## Masks -/

/-- The mask predicates, `x` the column and `y` the row (R170). -/
def maskPred (i : BitVec 3) (x y : Nat) : Bool :=
  match i.toNat with
  | 0 => (x + y) % 2 == 0
  | 1 => y % 2 == 0
  | 2 => x % 3 == 0
  | 3 => (x + y) % 3 == 0
  | 4 => (x / 3 + y / 2) % 2 == 0
  | 5 => (x * y) % 2 + (x * y) % 3 == 0
  | 6 => ((x * y) % 2 + (x * y) % 3) % 2 == 0
  | _ => ((x + y) % 2 + (x * y) % 3) % 2 == 0

/-- Whether mask `i` toggles a listed location: a codeword cell of the `n` by `n` symbol where the predicate holds (R171). A cell that
is not listed is unset and no codeword cell. -/
def maskToggles (n : Nat) (i : BitVec 3) (c : Host.Cell) : Bool :=
  decide (baseMat ≤ c.1) && decide (matX c.1 < n) && decide (matY c.1 < n)
    && (Cell.ofByte c.2).isCodeword && maskPred i (matX c.1) (matY c.1)

/-- `applyMask(M, i)` (R171): the `.val` bit of every such cell is inverted, and nothing else changes. -/
def applyMask (n : Nat) (i : BitVec 3) (m : Memory) : Memory :=
  m.map fun c => if maskToggles n i c then (c.1, c.2 ^^^ 1) else c

/-! ## Penalties -/

/-- The colours of the symbol, row by row (R28: `.val`, true = dark). -/
def colours (m : Memory) (n : Nat) : List (List Bool) := (symbol m n).map fun row => row.map Cell.value

/-- The `2N` lines of an `n` by `n` symbol: its rows, left to right, and its columns, top to bottom. -/
def symbolLines (n : Nat) (rows : List (List Bool)) : List (List Bool) :=
  rows ++ (List.range n).map fun x => rows.map fun row => row.getD x false

/-- What a run that has ended scores (R172). -/
def runScore (run : Nat) : Nat :=
  if Config.runThreshold ≤ run then Config.runBase + (run - Config.runThreshold) else 0

/-- The runs of the rest of a line, `run` cells of one colour having just been seen (R172). -/
def runsScore (colour : Bool) (run : Nat) : List Bool → Nat
  | [] => runScore run
  | c :: cs => if c = colour then runsScore colour (run + 1) cs else runScore run + runsScore c 1 cs

/-- The adjacency score of one line (R172). -/
def lineAdj : List Bool → Nat
  | [] => 0
  | c :: cs => runsScore c 1 cs

/-- Component 1, adjacency (R172). -/
def penAdjOf (n : Nat) (rows : List (List Bool)) : Nat := ((symbolLines n rows).map lineAdj).sum

/-- The uniform 2 by 2 blocks whose upper and lower rows are these two (R173). -/
def blocksOfRows : List Bool → List Bool → Nat
  | a :: b :: upper, c :: d :: lower =>
    (if a = b ∧ a = c ∧ a = d then Config.blockScore else 0) + blocksOfRows (b :: upper) (d :: lower)
  | _, _ => 0

/-- Component 2, blocks (R173): over every pair of adjacent rows. -/
def penBlkOf : List (List Bool) → Nat
  | upper :: lower :: rest => blocksOfRows upper lower + penBlkOf (lower :: rest)
  | _ => 0

/-- The pattern `P` of R174, dark = true. -/
def finderPattern : List Bool := [true, false, true, true, true, false, true, false, false, false, false]

/-- Its reverse `P'` (R174). -/
def finderReverse : List Bool := [false, false, false, false, true, false, true, true, true, false, true]

/-- The finder-like score of one line: every window of 11 cells that lies wholly inside it (R174, D37). -/
def lineFind : List Bool → Nat
  | [] => 0
  | c :: cs =>
    (if (c :: cs).take 11 = finderPattern ∨ (c :: cs).take 11 = finderReverse then Config.finderScore else 0) + lineFind cs

/-- Component 3, finder-like pattern (R174). -/
def penFindOf (n : Nat) (rows : List (List Bool)) : Nat := ((symbolLines n rows).map lineFind).sum

/-- The number of dark cells (R175). -/
def popcount (rows : List (List Bool)) : Nat := (rows.map fun row => row.count true).sum

/-- Component 4, proportion, in exact integer arithmetic (R175, D16). -/
def penPropOf (n dark : Nat) : Nat :=
  let total := n * n
  Config.proportionStep * (10 * ((2 * dark : Int) - total).natAbs / total)

/-- The score of a symbol (R176). -/
structure Score where
  dark : Nat
  adj  : Nat
  blk  : Nat
  find : Nat
  prop : Nat
deriving DecidableEq, Repr

/-- The sum of the four components (R176). -/
def Score.total (p : Score) : Nat := p.adj + p.blk + p.find + p.prop

/-- `penalty(M)` of an `n` by `n` symbol, from its colours (R176). -/
def scoreOf (n : Nat) (rows : List (List Bool)) : Score where
  dark := popcount rows
  adj := penAdjOf n rows
  blk := penBlkOf rows
  find := penFindOf n rows
  prop := penPropOf n (popcount rows)

/-- `penalty(M)` of the matrix in storage (R176). -/
def penaltyOf (n : Nat) (m : Memory) : Score := scoreOf n (colours m n)

/-! ## Selection -/

/-- The total penalty of the trial with mask `i`, which starts from the same unmasked matrix each time (R177). -/
def trialPenalty (n : Nat) (m : Memory) (i : BitVec 3) : Nat := (penaltyOf n (applyMask n i m)).total

/-- The eight trial penalties (R177). -/
def trialPenalties (n : Nat) (m : Memory) : List Nat :=
  [trialPenalty n m 0, trialPenalty n m 1, trialPenalty n m 2, trialPenalty n m 3,
    trialPenalty n m 4, trialPenalty n m 5, trialPenalty n m 6, trialPenalty n m 7]

/-- The least index at which a list takes its minimum (R177: the lowest penalty, ties to the lowest index). -/
def leastArgMin : List Nat → Nat
  | [] => 0
  | p :: ps => (p :: ps).findIdx fun q => q == ps.foldl Nat.min p

/-- The chosen mask of `selectMask(M)` (R177). -/
def selectMask (n : Nat) (m : Memory) : BitVec 3 := BitVec.ofNat 3 (leastArgMin (trialPenalties n m))

/-- The values `MPEN[0..7]` takes (R181). -/
def trialWords (n : Nat) (m : Memory) : Vector Word Config.nMask :=
  #v[BitVec.ofNat 32 (trialPenalty n m 0), BitVec.ofNat 32 (trialPenalty n m 1),
    BitVec.ofNat 32 (trialPenalty n m 2), BitVec.ofNat 32 (trialPenalty n m 3),
    BitVec.ofNat 32 (trialPenalty n m 4), BitVec.ofNat 32 (trialPenalty n m 5),
    BitVec.ofNat 32 (trialPenalty n m 6), BitVec.ofNat 32 (trialPenalty n m 7)]

/-- The six score registers, written together (R38, R180). -/
def State.setScore (s : State) (p : Score) : State :=
  { s with
    dark := BitVec.ofNat 32 p.dark
    penAdj := BitVec.ofNat 32 p.adj
    penBlk := BitVec.ofNat 32 p.blk
    penFind := BitVec.ofNat 32 p.find
    penProp := BitVec.ofNat 32 p.prop
    penTotal := BitVec.ofNat 32 p.total }

end Sys2Proof.Machine
end

