-- ==== Sys2Proof/Machine/MatrixMask.lean ====
section
/-! DEFINITION. The meanings of the matrix and mask commands (42_matrix_mask.md R178 to R181). -/

namespace Sys2Proof.Machine

/-- `MINIT v` (R178): `VER <- v` and every cell of the new symbol unset. -/
def execMinit (v : BitVec 6) (s : State) : Answer :=
  conclude [(decide (v.toNat < Config.verMin ∨ Config.verMax < v.toNat), .invalidInput)]
    (fun s => (s.setVer (Fin.ofNat 41 v.toNat)).setMem (Memory.clearMatrix s.mem)) s

/-- The preconditions of the mask and score commands: NO_MATRIX, then UNSET_CELL (R179 to R181, R244). -/
def maskChecks (s : State) : List (Bool × Cause) :=
  [(s.hasNoMatrix, .noMatrix), (s.hasUnsetCell, .unsetCell)]

/-- `MASKAPPLY m` (R179). -/
def execMaskapply (m : BitVec 3) (s : State) : Answer :=
  conclude (maskChecks s) (fun s => s.setMem (applyMask s.side m s.mem)) s

/-- `SCORE` (R180). -/
def execScore (s : State) : Answer :=
  conclude (maskChecks s) (fun s => s.setScore (penaltyOf s.side s.mem)) s

/-- The state writes of `MASKSEL` (R181): `MPEN`, `BEST`, the chosen mask applied, the score of the masked matrix. -/
def State.applySelection (s : State) : State :=
  let best := selectMask s.side s.mem
  let masked := applyMask s.side best s.mem
  ((s.setSelection (trialWords s.side s.mem) best).setMem masked).setScore (penaltyOf s.side masked)

/-- `MASKSEL` (R181). -/
def execMasksel (s : State) : Answer := conclude (maskChecks s) State.applySelection s

end Sys2Proof.Machine
end

