-- ==== Sys2Proof/Machine/Rs.lean ====
section
/-! DEFINITION. The meanings of the generator and Reed-Solomon commands (41_rs.md R152, R153). -/

namespace Sys2Proof.Machine

/-- `GENLD d` (R152). -/
def execGenld (d : BitVec 7) (s : State) : Answer :=
  conclude [(decide (Config.genMax < d.toNat), .invalidInput)] (fun s => s.setC ((gen d.toNat).map some)) s

/-- `RSENC e` (R153): INVALID_INPUT before LENGTH. -/
def execRsenc (e : BitVec 7) (s : State) : Answer :=
  conclude
    [(decide (Config.genMax < e.toNat), .invalidInput),
      (decide (Config.polyCap < s.lenA + e.toNat), .length)]
    (fun s => s.setC (openRsEncode s.listA e.toNat)) s

end Sys2Proof.Machine
end

