-- ==== Sys2Proof/Machine/Dispatch.lean ====
section
/-! DEFINITION. The dispatch: one arm per command, each a direct call of its meaning. -/

namespace Sys2Proof.Machine

/-- The effect of a command on the state in which it is executed (60_exceptions.md R242). -/
def exec (i : Instr) (s : State) : Host.Outcome State Fault Refusal :=
  match i with
  | .gfmul a b => Sys2Proof.Machine.execGfmul a b s
  | .gfexp idx => Sys2Proof.Machine.execGfexp idx s
  | .gflog x => Sys2Proof.Machine.execGflog x s
  | .pmul => Sys2Proof.Machine.execPmul s
  | .pmod => Sys2Proof.Machine.execPmod s
  | .genld d => Sys2Proof.Machine.execGenld d s
  | .rsenc e => Sys2Proof.Machine.execRsenc e s
  | .minit v => Sys2Proof.Machine.execMinit v s
  | .maskapply m => Sys2Proof.Machine.execMaskapply m s
  | .score => Sys2Proof.Machine.execScore s
  | .masksel => Sys2Proof.Machine.execMasksel s
  | .fmtpack ec m => Sys2Proof.Machine.execFmtpack ec m s
  | .fmtrsv => Sys2Proof.Machine.execFmtrsv s
  | .fmtplace ec m => Sys2Proof.Machine.execFmtplace ec m s
  | .verpack v => Sys2Proof.Machine.execVerpack v s
  | .verplace => Sys2Proof.Machine.execVerplace s

end Sys2Proof.Machine
end

