-- ==== Sys2Proof/Machine/Flags.lean ====
section
/-! DEFINITION. The flags of the block: the fields of `STATUS` (10_state.md R33). -/

namespace Sys2Proof.Machine

/-- `STATUS.BUSY`: 1 iff `PHASE = BUSY`. -/
def State.busyFlag (s : State) : Bool := s.phase == .busy

/-- `STATUS.ERR`: 1 iff `PHASE = FAULT`. -/
def State.errFlag (s : State) : Bool := s.phase == .fault

/-- The word read at `STATUS`: `BUSY`, `DONE`, `ERR`, `HERR` in bits 0 to 3, bits 31:4 read as 0 (R33). -/
def State.statusWord (s : State) : Word :=
  0#28 ++ BitVec.ofBool s.herr ++ BitVec.ofBool s.errFlag ++ BitVec.ofBool s.done ++ BitVec.ofBool s.busyFlag

/-- `STATUS.HERR <- 1` (R68). -/
def State.setHerr (s : State) : State := { s with herr := true }

end Sys2Proof.Machine
end

