-- ==== Sys2Proof/Machine/HostPort.lean ====
section
/-! DEFINITION. The host's accesses: what each location reads as, what a write does, which accesses are illegal, and a turn of the host
(20_memory.md R60 to R69; 10_state.md R31 to R39). -/

namespace Sys2Proof.Machine

/-! ## Reads -/

/-- What a host read finds. -/
inductive HostRead where
  /-- The content the spec gives -/
  | word (w : Word)
  /-- A buffer entry below the length that has no value: an unspecified byte, zero-extended (R63, R275) -/
  | unwritten (loc : Nat)
  /-- A buffer entry at or beyond the length: an unspecified word, and no illegal access (R63) -/
  | beyond
  /-- An illegal read (R68) -/
  | illegal
deriving DecidableEq, Repr

/-- The word a register reads as (R31 to R39); `CMD` is write-only. -/
def State.regWord (s : State) : Reg → Option Word
  | .cmd => none
  | .status => some s.statusWord
  | .errcode => some (s.errcode.setWidth 32)
  | .errcmd => some s.errcmd
  | .ver => some (0#16 ++ BitVec.ofNat 8 s.side ++ BitVec.ofNat 8 s.ver.val)
  | .result => some (s.result.setWidth 32)
  | .lenA => some (BitVec.ofNat 32 s.lenA)
  | .lenB => some (BitVec.ofNat 32 s.lenB)
  | .lenC => some (BitVec.ofNat 32 s.lenC)
  | .dark => some s.dark
  | .penAdj => some s.penAdj
  | .penBlk => some s.penBlk
  | .penFind => some s.penFind
  | .penProp => some s.penProp
  | .penTotal => some s.penTotal
  | .best => some (s.best.setWidth 32)
  | .mpen i => some s.mpen[i]

/-- A read of entry `i` of a buffer of length `len` whose entry stands at `loc` (R63). -/
def State.readEntry (s : State) (len i loc : Nat) : HostRead :=
  if i < len then
    match Memory.read s.mem loc with
    | some b => .word (b.setWidth 32)
    | none => .unwritten loc
  else .beyond

/-- A read in phase IDLE or FAULT, where the same reads are legal (R62 to R64, R69). -/
def State.readPlace (s : State) : Place → HostRead
  | .reg r =>
    match s.regWord r with
    | some w => .word w
    | none => .illegal
  | .bufA i => s.readEntry s.lenA i (baseA + i)
  | .bufB i => s.readEntry s.lenB i (baseB + i)
  | .bufC i => s.readEntry s.lenC i (baseC + i)
  | .cell x y => if s.validCell x y then .word ((cellAt s.mem x y).toByte.setWidth 32) else .illegal
  | .unmapped => .illegal

/-- What a read of `loc` finds: in phase BUSY only `STATUS` may be read (R69). -/
def State.find (s : State) (loc : Nat) : HostRead :=
  if s.phase = .busy ∧ placeAt loc ≠ .reg .status then .illegal else s.readPlace (placeAt loc)

/-- The host read `MemRead(loc, 1)` (R61, R68). No read changes state but for `HERR` of an illegal one (R67); the data go to `rdata`. -/
def State.hostRead (s : State) (loc : Nat) : State :=
  match s.find loc with
  | .word w => { s with rdata := w }
  | .unwritten l => { s with rdata := (Config.freeByte s.draws l).setWidth 32, draws := s.draws + 1 }
  | .beyond => { s with rdata := Config.freeWord s.draws, draws := s.draws + 1 }
  | .illegal => { s.setHerr with rdata := Config.freeWord s.draws, draws := s.draws + 1 }

/-! ## Writes -/

/-- A write in phase IDLE (R32, R37, R62 to R64, R68): a legal one acts, an illegal one is dropped and sets `HERR`. -/
def State.writePlace (s : State) (v : Word) : Place → State
  | .reg .cmd => s.acceptCommand v
  | .reg .lenA => if v.toNat ≤ Config.polyCap then { s with lenA := v.toNat } else s.setHerr
  | .reg .lenB => if v.toNat ≤ Config.polyCap then { s with lenB := v.toNat } else s.setHerr
  | .reg _ => s.setHerr
  | .bufA i => { s with mem := Memory.write s.mem (baseA + i) (v.extractLsb' 0 8) }
  | .bufB i => { s with mem := Memory.write s.mem (baseB + i) (v.extractLsb' 0 8) }
  | .bufC _ => s.setHerr
  | .cell x y =>
    if s.validCell x y then { s with mem := writeCell s.mem x y (Cell.ofByte (v.extractLsb' 0 8)) } else s.setHerr
  | .unmapped => s.setHerr

/-- The host write `MemWrite(loc, 1, v)` (R61): in phases BUSY and FAULT every write is dropped and sets `HERR` (R69). -/
def State.hostWrite (s : State) (loc : Nat) (v : Word) : State :=
  if s.phase = .idle then s.writePlace v (placeAt loc) else s.setHerr

/-! ## Turns -/

/-- The location of `STATUS` (R31). -/
def statusLoc : Nat := 0x00001

/-- Whether the next turn is the block's: it is BUSY, and no host turn is left before its transition or the host has nothing to do
(R278, log 6). -/
def State.blockMoves (s : State) : Bool :=
  decide (s.phase = .busy ∧ (s.busyFor = 0 ∨ s.script = []))

/-- One turn of the host: its next action. A poll reads `STATUS` and stays pending while it reads `BUSY = 1` (R95); with nothing pending
the block idles (R250). -/
def State.hostTurn (s : State) : State :=
  match s.script with
  | [] => s
  | .read loc :: rest => { s with script := rest, busyFor := s.busyFor - 1 }.hostRead loc.toNat
  | .write loc v :: rest => { s with script := rest, busyFor := s.busyFor - 1 }.hostWrite loc.toNat v
  | .poll :: rest =>
    { s with script := if s.busyFlag then .poll :: rest else rest, busyFor := s.busyFor - 1 }.hostRead statusLoc
  | .reset :: rest => { s with script := rest }.assertReset

end Sys2Proof.Machine
end

