-- ==== Sys2Proof/Machine/Step.lean ====
section
/-! DEFINITION. The step: one turn of the block (the transition of the command in CMDREG, 60_exceptions.md R240 to R242) or one turn of
the host (20_memory.md R61). -/

namespace Sys2Proof.Machine

/-- The transition of the command in CMDREG, given the commands' meanings: its meaning, or the fault ILLEGAL_CMD for a word that is no
command (R94, R241). -/
def runCommandBy (meaning : Instr → State → Answer) (s : State) : Answer :=
  match decode s.cmdreg with
  | .command i => meaning i s
  | .illegal _ => .next (s.faultEntry .illegalCmd)

/-- One turn, given the commands' meanings. -/
def stepBy (meaning : Instr → State → Answer) (s : State) : Answer :=
  if s.blockMoves then runCommandBy meaning s else .next s.hostTurn

/-- One step. -/
def step (s : State) : Host.Outcome State Fault Refusal := stepBy exec s

/-- `s` with the command given as the opcode table numbers its bits accepted, so that the very next step runs it: this block fetches
nothing (R40), and the host's `CMD` write is what brings a command to it (R32; log 11). -/
def State.withFetchWord (s : State) (nbits w : Nat) : State :=
  s.loadCommand (BitVec.ofNat 32 (w % 2 ^ nbits))

end Sys2Proof.Machine
end

