-- ==== Sys2Proof/Machine/Configured.lean ====
section
/-! DEFINITION. The machine for any contents of the open parameters (00_scope.md R5, D17, D20, D21), given as an argument. `exec` and `step`
are it at `params` (Laws/Configured.lean). -/

namespace Sys2Proof.Machine

/-- The effect of a command in the block configured with `p`. -/
def execFor (p : Config.Params) (i : Instr) (s : State) : Answer :=
  match i with
  | .gfmul a b => execGfmul a b s
  | .gfexp idx => execGfexp idx s
  | .gflog x => execGflog x s
  | .pmul => execPmul s
  | .pmod => execPmod s
  | .genld d => execGenld d s
  | .rsenc e => execRsenc e s
  | .minit v => execMinit v s
  | .maskapply m => execMaskapply m s
  | .score => execScore s
  | .masksel => execMasksel s
  | .fmtpack ec m => fmtpackFor p ec m s
  | .fmtrsv => fmtrsvFor p s
  | .fmtplace ec m => fmtplaceFor p ec m s
  | .verpack v => verpackFor p v s
  | .verplace => verplaceFor p s

/-- One step of the block configured with `p`. -/
def stepFor (p : Config.Params) (s : State) : Answer := stepBy (execFor p) s

end Sys2Proof.Machine
end

