-- ==== Sys2Proof/Safety.lean ====
section
/-! DEFINITION. The terms claims are stated in: the two ends of a command, the fault a command meets, the symbol by coordinates, a run
that ended well, and the invariants of the machine. -/

namespace Sys2Proof.Machine

/-! ## Ends of a command -/

/-- The answer is the fault with this code from `s` (R241): `ERRCODE`, `ERRCMD` and the phase change, and nothing else of the block does.
The number of the next free value is the model's own (log 4) and left open. -/
def FaultsWith (answer : Answer) (s : State) (code : BitVec 4) : Prop :=
  ∃ t, answer = .next t ∧ t = { s with errcode := code, errcmd := s.cmdreg, phase := .fault, draws := t.draws }

/-! ## The symbol by coordinates -/

/-- The rows of the `n` by `n` symbol whose cell `(x, y)` has colour `f x y`. -/
def grid (n : Nat) (f : Nat → Nat → Bool) : List (List Bool) :=
  (List.range n).map fun y => (List.range n).map fun x => f x y

/-- The colour of cell `(x, y)` in storage. -/
def State.colour (s : State) (x y : Nat) : Bool := (cellAt s.mem x y).value

/-- The colour of cell `(x, y)` with mask `i` applied to the codeword cells (R171). -/
def State.maskedColour (s : State) (i : BitVec 3) (x y : Nat) : Bool :=
  s.colour x y ^^ ((cellAt s.mem x y).isCodeword && maskPred i x y)

/-- Every cell of the symbol is set. -/
abbrev State.AllSet (s : State) : Prop := ∀ x < s.side, ∀ y < s.side, (cellAt s.mem x y).isSet = true

/-- Some target of a placer is a codeword cell (R221). -/
abbrev State.Conflict (s : State) (targets : List BitCell) : Prop :=
  ∃ p ∈ targets, (cellAt s.mem p.x p.y).isSet = true ∧ (cellAt s.mem p.x p.y).isCodeword = true

/-! ## The encoding and the field, as the rules give them -/

/-- The opcode map (R93): the mask and the match pattern of each command. -/
def opcodeMap : List (Word × Word) :=
  [(0xFFFF0000, 0x10000000), (0xFFFFFE00, 0x11000000), (0xFFFFFF00, 0x12000000), (0xFFFFFFFF, 0x14000000),
    (0xFFFFFFFF, 0x15000000), (0xFFFFFF80, 0x20000000), (0xFFFFFF80, 0x21000000), (0xFFFFFFC0, 0x30000000),
    (0xFFFFFFF8, 0x31000000), (0xFFFFFFFF, 0x32000000), (0xFFFFFFFF, 0x33000000), (0xFFFFFCF8, 0x40000000),
    (0xFFFFFFFF, 0x41000000), (0xFFFFFCF8, 0x42000000), (0xFFFFFFC0, 0x44000000), (0xFFFFFFFF, 0x45000000)]

/-- The first index of the format table's eight rows of a level: L is rows 8..15, M 0..7, Q 24..31, H 16..23 (R211). -/
def levelRow : EcLevel → Nat
  | .l => 8
  | .m => 0
  | .q => 24
  | .h => 16

/-- Multiplication by `x` in the field with polynomial `0x11D` (R120). -/
def timesX (a : Byte) : Byte := BitVec.ofNat 8 (nextPower a.toNat)

/-- The product of two field elements as polynomials: the sum of `a * x^k` over the bits `k` of `b` (R120). -/
def fieldProduct (a b : Byte) : Byte :=
  (List.range Config.cwBits).foldl (fun sum k => if b.getLsbD k then sum ^^^ timesX^[k] a else sum) 0

/-- The lines of an `n` by `n` symbol with colours `f` (R172): its rows and its columns. -/
def gridLines (n : Nat) (f : Nat → Nat → Bool) : List (List Bool) :=
  ((List.range n).map fun y => (List.range n).map fun x => f x y)
    ++ (List.range n).map fun x => (List.range n).map fun y => f x y

/-! ## Host accesses -/

/-- The location names a cell of the current symbol (R64). -/
abbrev State.ValidLoc (s : State) (loc : Nat) : Prop :=
  s.ver.val ≠ 0 ∧ (loc - 0x10000) % 256 < s.side ∧ (loc - 0x10000) / 256 < s.side

/-- The location is unmapped (R60). -/
abbrev UnmappedLoc (loc : Nat) : Prop := (0x18 ≤ loc ∧ loc < 0x1000) ∨ (0x1300 ≤ loc ∧ loc < 0x10000)

/-- The illegal reads (R68, R69). -/
abbrev State.IllegalRead (s : State) (loc : Nat) : Prop :=
  (s.phase = .busy ∧ loc ≠ 1) ∨ loc = 0 ∨ UnmappedLoc loc ∨ (0x10000 ≤ loc ∧ ¬ s.ValidLoc loc)

/-- The illegal writes (R68, R69). -/
abbrev State.IllegalWrite (s : State) (loc : Nat) (v : Word) : Prop :=
  s.phase ≠ .idle ∨ (1 ≤ loc ∧ loc < 0x18 ∧ loc ≠ 6 ∧ loc ≠ 7) ∨ ((loc = 6 ∨ loc = 7) ∧ 256 < v.toNat)
    ∨ UnmappedLoc loc ∨ (0x1200 ≤ loc ∧ loc < 0x1300) ∨ (0x10000 ≤ loc ∧ ¬ s.ValidLoc loc)

/-- The next turn is the host's. -/
abbrev State.HostMoves (s : State) : Prop := s.phase = .busy → s.busyFor ≠ 0 ∧ s.script ≠ []

/-- The next turn is the block's: the transition of the command in CMDREG. -/
abbrev State.CommandRuns (s : State) : Prop := s.phase = .busy ∧ (s.busyFor = 0 ∨ s.script = [])

/-- What each readable register location reads as (R31 to R39). -/
def State.registerMap (s : State) : List (Nat × Word) :=
  [(0x01, s.statusWord), (0x02, BitVec.ofNat 32 s.errcode.toNat), (0x03, s.errcmd),
    (0x04, BitVec.ofNat 32 (256 * s.side + s.ver.val)), (0x05, BitVec.ofNat 32 s.result.toNat),
    (0x06, BitVec.ofNat 32 s.lenA), (0x07, BitVec.ofNat 32 s.lenB), (0x08, BitVec.ofNat 32 s.lenC),
    (0x09, s.dark), (0x0A, s.penAdj), (0x0B, s.penBlk), (0x0C, s.penFind), (0x0D, s.penProp), (0x0E, s.penTotal),
    (0x0F, BitVec.ofNat 32 s.best.toNat), (0x10, s.mpen[0]), (0x11, s.mpen[1]), (0x12, s.mpen[2]), (0x13, s.mpen[3]),
    (0x14, s.mpen[4]), (0x15, s.mpen[5]), (0x16, s.mpen[6]), (0x17, s.mpen[7])]

/-! ## Runs (R279) -/

/-- An item of a host script (R279): an access, a command line (R95), or the reset the host may assert. -/
inductive ScriptItem where
  | read (loc : Loc)
  | write (loc : Loc) (v : Word)
  | command (w : Word)
  | reset
deriving DecidableEq, Repr

/-- The host's actions for an item; a command line is the write of `CMD` and the reads of `STATUS` until `BUSY = 0` (R95). -/
def ScriptItem.actions : ScriptItem → List HostOp
  | .read loc => [.read loc]
  | .write loc v => [.write loc v]
  | .command w => [.write 0 w, .poll]
  | .reset => [.reset]

/-- The host's actions for a script. -/
def hostScript (items : List ScriptItem) : List HostOp := items.flatMap ScriptItem.actions

/-- `k` steps lead from `s` to `t`. -/
abbrev State.Reaches (s : State) (k : Nat) (t : State) : Prop := Host.Core.run core k s = .next t

/-- The next step is an illegal access of the host: one that sets `HERR` (R68). -/
def State.AccessesIllegally (s : State) : Prop :=
  s.HostMoves ∧ ((∃ loc rest, s.script = .read loc :: rest ∧ s.IllegalRead loc.toNat)
    ∨ ∃ loc v rest, s.script = .write loc v :: rest ∧ s.IllegalWrite loc.toNat v)

/-- `BUSY`, `ERR` and `HERR` read 0. -/
abbrev State.StatusClean (s : State) : Prop := s.statusWord &&& 0xD = 0

/-- The run of `s`'s script, `k` steps long and ending in `t`, has ended well (R279): it starts in phase IDLE with a host script and ends with
nothing left to do; on the way it never is in phase FAULT, whether or not a reset follows, and makes no illegal access (log 24); and the last
command line's `STATUS` read has returned `BUSY`, `ERR` and `HERR` 0, as `STATUS` still reads at the end. -/
structure State.EndedWell (s : State) (k : Nat) (t : State) : Prop where
  starts : s.phase = .idle ∧ ∃ items, s.script = hostScript items
  ends : s.Reaches k t ∧ t.script = [] ∧ t.StatusClean
  noFault : ∀ j u, j ≤ k → s.Reaches j u → u.phase ≠ .fault
  noIllegal : ∀ j u, j < k → s.Reaches j u → ¬ u.AccessesIllegally
  statusRead : ∃ j u, j < k ∧ s.Reaches j u ∧ (∃ rest, u.script = .poll :: rest ∧ .poll ∉ rest) ∧ u.StatusClean

/-! ## What a command's result may depend on -/

/-- The two states agree on everything a command may read (R280): the command, the version, the lengths of A and B, the entries of A and
B, the matrix, and the free values to come. They may differ in C, `LEN_C`, `RESULT`, the score registers, `BEST` and `MPEN`. -/
abbrev SameOperands (s s' : State) : Prop :=
  s.cmdreg = s'.cmdreg ∧ s.ver = s'.ver ∧ s.lenA = s'.lenA ∧ s.lenB = s'.lenB ∧ s.draws = s'.draws
    ∧ ∀ loc, loc < baseC ∨ baseC + 256 ≤ loc → Memory.read s.mem loc = Memory.read s'.mem loc

/-- `bytes` are the entries of `p` with a byte in the place of each unspecified one. -/
abbrev Fills (p : List Entry) (bytes : Poly) : Prop := List.Forall₂ (fun e b => e = none ∨ e = some b) p bytes

/-! ## Which fault a command meets -/

/-- What `MASKAPPLY`, `SCORE` and `MASKSEL` meet (R179 to R181). -/
def maskCause (s : State) : Option Cause :=
  if s.ver.val = 0 then some .noMatrix else if s.AllSet then none else some .unsetCell

/-- What a placer with these targets meets (R221). -/
def placerCause (s : State) (targets : List BitCell) : Option Cause :=
  if s.ver.val = 0 then some .noMatrix else if s.Conflict targets then some .cellConflict else none

/-- The one cause a decoded command reports, the first that applies (R243, R244); `none` if it completes. -/
def causeOf : Instr → State → Option Cause
  | .gfmul _ _, _ => none
  | .gfexp _, _ => none
  | .gflog x, _ => if x = 0 then some .logZero else none
  | .pmul, s => if s.lenA = 0 ∨ s.lenB = 0 ∨ 256 < s.lenA + s.lenB - 1 then some .length else none
  | .pmod, s => if s.lenB = 0 ∨ s.entry baseB ≠ 1 then some .divisor else none
  | .genld d, _ => if 68 < d.toNat then some .invalidInput else none
  | .rsenc e, s =>
    if 68 < e.toNat then some .invalidInput else if 256 < s.lenA + e.toNat then some .length else none
  | .minit v, _ => if v.toNat = 0 ∨ 40 < v.toNat then some .invalidInput else none
  | .maskapply _, s => maskCause s
  | .score, s => maskCause s
  | .masksel, s => maskCause s
  | .fmtpack _ _, _ => none
  | .fmtrsv, s => placerCause s (fmtCells s.side)
  | .fmtplace _ _, s => placerCause s (fmtCells s.side)
  | .verpack v, _ => if v.toNat < 7 ∨ 40 < v.toNat then some .invalidInput else none
  | .verplace, s => placerCause s (if 7 ≤ s.ver.val then verCells s.side else [])

/-! ## What each command may write (R31, R240) -/

/-- The commands that write `RESULT` (R36). -/
def writesResult : Instr → Bool
  | .gfmul _ _ | .gfexp _ | .gflog _ | .fmtpack _ _ | .verpack _ => true
  | .pmul | .pmod | .genld _ | .rsenc _ | .minit _ | .maskapply _ | .score | .masksel | .fmtrsv | .fmtplace _ _ | .verplace => false

/-- The commands that write C and `LEN_C` (R26, R31). -/
def writesC : Instr → Bool
  | .pmul | .pmod | .genld _ | .rsenc _ => true
  | .gfmul _ _ | .gfexp _ | .gflog _ | .minit _ | .maskapply _ | .score | .masksel | .fmtpack _ _ | .fmtrsv | .fmtplace _ _
  | .verpack _ | .verplace => false

/-- The commands that write the score registers (R38). -/
def writesScore : Instr → Bool
  | .score | .masksel => true
  | .gfmul _ _ | .gfexp _ | .gflog _ | .pmul | .pmod | .genld _ | .rsenc _ | .minit _ | .maskapply _ | .fmtpack _ _ | .fmtrsv
  | .fmtplace _ _ | .verpack _ | .verplace => false

/-- The commands that write matrix cells. -/
def writesMatrix : Instr → Bool
  | .minit _ | .maskapply _ | .masksel | .fmtrsv | .fmtplace _ _ | .verplace => true
  | .gfmul _ _ | .gfexp _ | .gflog _ | .pmul | .pmod | .genld _ | .rsenc _ | .score | .fmtpack _ _ | .verpack _ => false

/-- Whether a command is `MINIT`, the one that writes `VER` (R35). -/
def writesVer : Instr → Bool
  | .minit _ => true
  | .gfmul _ _ | .gfexp _ | .gflog _ | .pmul | .pmod | .genld _ | .rsenc _ | .maskapply _ | .score | .masksel | .fmtpack _ _
  | .fmtrsv | .fmtplace _ _ | .verpack _ | .verplace => false

/-- Whether a command is `MASKSEL`, the one that writes `MPEN` and `BEST` (R39). -/
def writesSelection : Instr → Bool
  | .masksel => true
  | .gfmul _ _ | .gfexp _ | .gflog _ | .pmul | .pmod | .genld _ | .rsenc _ | .minit _ | .maskapply _ | .score | .fmtpack _ _
  | .fmtrsv | .fmtplace _ _ | .verpack _ | .verplace => false

/-! ## Invariants -/

/-- Every listed location is an entry of a buffer, or a cell of the current symbol with three bits (R26, R28, R29). -/
abbrev State.StorageInv (s : State) : Prop :=
  ∀ c ∈ s.mem, (baseA ≤ c.1 ∧ c.1 < baseC + 256)
    ∨ (baseMat ≤ c.1 ∧ matX c.1 < s.side ∧ matY c.1 < s.side ∧ c.2.toNat < 8)

/-- The lengths are in `0 .. 256`, and buffer C holds a value only below `LEN_C` (R26, R27, R37). -/
abbrev State.LengthInv (s : State) : Prop :=
  s.lenA ≤ 256 ∧ s.lenB ≤ 256 ∧ s.lenC ≤ 256
    ∧ ∀ i < 256, ((Memory.read s.mem (baseC + i)).isSome = true → i < s.lenC)

/-- The fault registers tell the phase, and `DONE` is 1 only in phase IDLE (R33, R34, R241, R243). -/
abbrev State.PhaseInv (s : State) : Prop :=
  s.errcode.toNat ≤ 8 ∧ (s.errcode = 0 ↔ s.phase ≠ .fault) ∧ (s.phase ≠ .fault → s.errcmd = 0)
    ∧ (s.phase = .fault → s.errcmd = s.cmdreg) ∧ (s.done = true → s.phase = .idle)

/-- `PEN_TOTAL` is the sum of the four components (R38, R176). -/
abbrev State.TotalInv (s : State) : Prop := s.penTotal = s.penAdj + s.penBlk + s.penFind + s.penProp

/-- The invariant of the machine: the storage is in canonical form and holds what it may, and the registers agree. -/
abbrev State.Inv (s : State) : Prop :=
  Memory.wf s.mem ∧ s.StorageInv ∧ s.LengthInv ∧ s.PhaseInv ∧ s.TotalInv

/-- `BEST` is the least index at which `MPEN` takes its minimum: invariant 4 of the document, read off the registers (R39, R251). -/
abbrev State.SelectionInv (s : State) : Prop :=
  ∀ i : Fin 8, s.mpen[s.best.toFin] ≤ s.mpen[i] ∧ (i.val < s.best.toNat → s.mpen[s.best.toFin] < s.mpen[i])

end Sys2Proof.Machine
end

