-- ==== Sys2Proof/Certificates/Slice0/Obligations.lean ====
section
/-! DEFINITION. The statements for the provers, in the terms of Safety.lean. Each says which rule of spec/ it formalises. -/

open Sys2Proof Sys2Proof.Machine

/-! ## Encoding -/

/-- R90 to R93: the word of every command, at every value of its operands, decodes to that command. -/
def Obligations.DecodeOfEncode : Prop := ∀ i : Instr, decode (encode i) = .command i

/-- R93: a word that decodes to a command is the word of that command, so every bit of it is accounted for. -/
def Obligations.DecodedWordIsItsEncoding : Prop := ∀ (w : Word) (i : Instr), decode w = .command i → encode i = w

/-- R93, R94: which words are commands, what every other word is refused as, and that the refusal is named by the opcode. -/
def Obligations.IllegalWordsAreNamed : Prop :=
  ∀ w : Word,
    ((∃ i, decode w = .command i) ↔ ∃ r ∈ opcodeMap, w &&& r.1 = r.2)
    ∧ ((∀ i, encode i ≠ w) → decode w = .illegal
        (if w.extractLsb' 24 8 ∈ ([0x10, 0x11, 0x12, 0x14, 0x15, 0x20, 0x21, 0x30, 0x31, 0x32, 0x33, 0x40, 0x41, 0x42, 0x44, 0x45] :
          List (BitVec 8)) then .reservedBit else .unassignedOpcode))

/-- R95: the ten example words, and the all-zero word of R94. -/
def Obligations.SampleWordsDecode : Prop :=
  decode 0x10008002 = .command (.gfmul 2 128) ∧ decode 0x110000FF = .command (.gfexp 255)
  ∧ decode 0x1200001D = .command (.gflog 0x1D) ∧ decode 0x14000000 = .command .pmul
  ∧ decode 0x20000007 = .command (.genld 7) ∧ decode 0x2100000A = .command (.rsenc 10)
  ∧ decode 0x30000007 = .command (.minit 7) ∧ decode 0x31000003 = .command (.maskapply 3)
  ∧ decode 0x42000205 = .command (.fmtplace .q 5) ∧ decode 0x44000028 = .command (.verpack 40)
  ∧ decode 0 = .illegal .unassignedOpcode

/-! ## The step -/

/-- R30, R242: in the block's turn the step is the meaning of the command in CMDREG. When that turn comes is the model's choice (log 6). -/
def Obligations.StepRunsDecodedCommand : Prop :=
  ∀ (s : State) (i : Instr), s.CommandRuns → decode s.cmdreg = .command i → step s = exec i s

/-- R94: every word is one of the 16 commands, selected by its row of the opcode map, or illegal; an illegal word faults with cause 1 and
changes nothing but the fault registers; a command with an operand outside its legal range faults with cause 2. -/
def Obligations.IllegalWordFaults : Prop :=
  ∀ s : State, ((∃ i, decode s.cmdreg = .command i) ↔ ∃ r ∈ opcodeMap, s.cmdreg &&& r.1 = r.2) ∧ (s.CommandRuns →
    ((∀ r ∈ opcodeMap, s.cmdreg &&& r.1 ≠ r.2) → FaultsWith (step s) s 1)
    ∧ (∀ i, decode s.cmdreg = .command i → ¬ i.WellFormed → FaultsWith (step s) s 2))

/-- No state stops the machine: every step answers a next state (R4, R250). -/
def Obligations.StepAlwaysAnswersNext : Prop := ∀ s : State, ∃ t, step s = .next t

/-- R241, R243, R244: an illegal word faults with cause 1, before anything else is checked; a command faults with the first cause that
applies; a fault changes only the fault registers and the phase; and with no cause the command completes, with `DONE` set in phase IDLE and
the fault registers and `HERR` as before (R240). -/
def Obligations.FaultCausesInOrder : Prop :=
  (∀ s : State, s.CommandRuns → (∀ i, decode s.cmdreg ≠ .command i) → FaultsWith (step s) s 1)
  ∧ (∀ (i : Instr) (s : State),
    (∀ c, causeOf i s = some c → FaultsWith (exec i s) s c.code)
    ∧ (causeOf i s = none → ∃ t, exec i s = .next t ∧ t.phase = .idle ∧ t.done = true
        ∧ t.herr = s.herr ∧ t.errcode = s.errcode ∧ t.errcmd = s.errcmd))
  ∧ [Cause.illegalCmd, .invalidInput, .logZero, .length, .divisor, .noMatrix, .unsetCell, .cellConflict].map Cause.code
      = [1, 2, 3, 4, 5, 6, 7, 8]

/-- R26, R31, R35 to R39, R240: no command writes A, B, their lengths, `CMDREG` or `HERR`, and each of the other registers and windows is
written only by the commands that R31 names for it. For a divisor length that `LEN_B` can hold (R37). -/
def Obligations.CommandWritesOnlyItsState : Prop :=
  ∀ (i : Instr) (s t : State), s.lenB ≤ 256 → exec i s = .next t →
    t.lenA = s.lenA ∧ t.lenB = s.lenB ∧ t.cmdreg = s.cmdreg ∧ t.herr = s.herr
    ∧ t.script = s.script ∧ t.busyFor = s.busyFor ∧ t.rdata = s.rdata
    ∧ (∀ loc, loc < baseC ∨ (baseC + 256 ≤ loc ∧ loc < baseMat) → Memory.read t.mem loc = Memory.read s.mem loc)
    ∧ (writesResult i = false → t.result = s.result)
    ∧ (writesC i = false → t.lenC = s.lenC
        ∧ ∀ loc, baseC ≤ loc → loc < baseC + 256 → Memory.read t.mem loc = Memory.read s.mem loc)
    ∧ (writesVer i = false → t.ver = s.ver)
    ∧ (writesScore i = false → t.dark = s.dark ∧ t.penAdj = s.penAdj ∧ t.penBlk = s.penBlk ∧ t.penFind = s.penFind
        ∧ t.penProp = s.penProp ∧ t.penTotal = s.penTotal)
    ∧ (writesSelection i = false → t.mpen = s.mpen ∧ t.best = s.best)
    ∧ (writesMatrix i = false → ∀ loc, baseMat ≤ loc → Memory.read t.mem loc = Memory.read s.mem loc)

/-- R280: no command's result depends on the leftover contents of C, `LEN_C`, `RESULT`, the score registers, `BEST` or `MPEN`: from two
states that agree on everything else it ends alike and writes the same results. For operand lengths that `LEN_A` and `LEN_B` can hold
(R37), so that the operands lie in A and B. -/
def Obligations.ResultsIgnoreLeftovers : Prop :=
  ∀ (i : Instr) (s s' t t' : State), s.lenA ≤ 256 → s.lenB ≤ 256 → SameOperands s s' → exec i s = .next t → exec i s' = .next t' →
    SameOperands t t' ∧ t.phase = t'.phase ∧ (t.phase = .fault → t.errcode = t'.errcode)
    ∧ (t.phase = .idle →
        (writesResult i = true → t.result = t'.result)
        ∧ (writesC i = true → t.lenC = t'.lenC
            ∧ ∀ loc, baseC ≤ loc → loc < baseC + t.lenC → Memory.read t.mem loc = Memory.read t'.mem loc)
        ∧ (writesScore i = true → t.dark = t'.dark ∧ t.penAdj = t'.penAdj ∧ t.penBlk = t'.penBlk ∧ t.penFind = t'.penFind
            ∧ t.penProp = t'.penProp ∧ t.penTotal = t'.penTotal)
        ∧ (writesSelection i = true → t.mpen = t'.mpen ∧ t.best = t'.best))

/-- R32: a `CMD` write in phase IDLE accepts the word; in phases BUSY and FAULT it is dropped and sets `HERR`; a read of `CMD` is an
illegal access. How long the block then stays BUSY is a free value (log 6). -/
def Obligations.CmdWriteStartsCommand : Prop :=
  ∀ (s : State) (rest : List HostOp), s.HostMoves →
    (∀ w, s.script = .write 0 w :: rest →
      (s.phase = .idle → ∃ t, step s = .next t
          ∧ t = { s with script := rest, cmdreg := w, done := false, phase := .busy, busyFor := t.busyFor, draws := t.draws })
      ∧ (s.phase ≠ .idle → ∃ t, step s = .next t ∧ t = { s with script := rest, busyFor := t.busyFor, herr := true }))
    ∧ (s.script = .read 0 :: rest → ∃ t, step s = .next t ∧ t.herr = true
        ∧ t = { s with script := rest, busyFor := t.busyFor, herr := true, rdata := t.rdata, draws := t.draws })

/-- R30: how the phase changes: IDLE to BUSY on a write to `CMD`, BUSY to IDLE when the command completes, BUSY to FAULT when it faults,
any phase to IDLE on reset; and in no other way. -/
def Obligations.PhaseTransitions : Prop :=
  ∀ s t : State, step s = .next t → t.phase ≠ s.phase →
    (s.phase = .idle ∧ t.phase = .busy ∧ ∃ w rest, s.script = .write 0 w :: rest ∧ t.cmdreg = w)
    ∨ (s.CommandRuns ∧ t.phase = .idle ∧ t.done = true ∧ t.script = s.script)
    ∨ (s.CommandRuns ∧ t.phase = .fault ∧ t.errcmd = s.cmdreg ∧ t.script = s.script)
    ∨ (t.phase = .idle ∧ ∃ rest, s.script = .reset :: rest)

/-- R246: phase FAULT is left only by reset, and until then neither the fault registers nor any other piece of the block's state but
`HERR` changes. -/
def Obligations.FaultLeftOnlyByReset : Prop :=
  ∀ s t : State, s.phase = .fault → step s = .next t →
    (∃ rest, s.script = .reset :: rest ∧ t.phase = .idle)
    ∨ t = { s with script := t.script, busyFor := t.busyFor, rdata := t.rdata, draws := t.draws, herr := t.herr }

/-- R278: an accepted command leaves phase BUSY after finitely many steps. The bound is the model's free value (log 6). -/
def Obligations.BusyEndsInFiniteTime : Prop :=
  ∀ s : State, s.phase = .busy →
    ∃ k t, k ≤ s.busyFor + 1 ∧ Host.Core.run core k s = .next t ∧ State.phase t ≠ .busy

/-- R270: the reset input, in any phase, puts every piece of the block's state at its reset value; and it is the only way out of phase FAULT
and the only way to clear `HERR`. -/
def Obligations.ResetInputRestoresResetState : Prop :=
  (∀ (s : State) (rest : List HostOp), s.HostMoves → s.script = .reset :: rest →
    ∃ t, step s = .next t ∧ t = { State.reset with script := rest, busyFor := t.busyFor, rdata := t.rdata, draws := t.draws })
  ∧ ∀ s t : State, step s = .next t → (s.phase = .fault ∧ t.phase ≠ .fault) ∨ (s.herr = true ∧ t.herr = false) →
      ∃ rest, s.script = .reset :: rest

/-- R42: the reset value of every piece of state that has one; no cell is reachable. -/
def Obligations.ResetValues : Prop :=
  State.reset.phase = .idle ∧ State.reset.cmdreg = 0 ∧ State.reset.statusWord = 0 ∧ State.reset.errcode = 0 ∧ State.reset.errcmd = 0
  ∧ State.reset.ver = 0 ∧ State.reset.side = 0 ∧ State.reset.result = 0
  ∧ State.reset.lenA = 0 ∧ State.reset.lenB = 0 ∧ State.reset.lenC = 0
  ∧ State.reset.dark = 0 ∧ State.reset.penAdj = 0 ∧ State.reset.penBlk = 0 ∧ State.reset.penFind = 0
  ∧ State.reset.penProp = 0 ∧ State.reset.penTotal = 0 ∧ State.reset.best = 0 ∧ (∀ i : Fin 8, State.reset.mpen[i] = 0)
  ∧ ∀ loc, 0x10000 ≤ loc → ¬ State.reset.ValidLoc loc

/-- The invariants hold right after reset. -/
def Obligations.ResetMeetsInvariants : Prop := State.reset.Inv ∧ State.reset.SelectionInv

/-- R26 to R29, R33, R34, R37, R38: every step keeps the storage canonical and inside its windows, the lengths in `0 .. 256`, C valued
only below `LEN_C` (log 2), the fault registers in step with the phase, and `PEN_TOTAL` the sum of its components. -/
def Obligations.StepKeepsInvariant : Prop := ∀ s t : State, s.Inv → step s = .next t → t.Inv

/-- R39, R251: every step keeps `BEST` the least index at which `MPEN` takes its minimum. -/
def Obligations.StepKeepsSelection : Prop := ∀ s t : State, s.SelectionInv → step s = .next t → t.SelectionInv

/-- R33: the bits of `STATUS`; a read of it in any phase changes nothing; `ERR` and `HERR` stay 1 until reset; `DONE`, once 1, is cleared
only when the next command is accepted or by reset. -/
def Obligations.StatusRegister : Prop :=
  (∀ s : State,
    s.statusWord.getLsbD 0 = decide (s.phase = .busy) ∧ s.statusWord.getLsbD 1 = s.done
    ∧ s.statusWord.getLsbD 2 = decide (s.phase = .fault) ∧ s.statusWord.getLsbD 3 = s.herr
    ∧ ∀ k, 4 ≤ k → s.statusWord.getLsbD k = false)
  ∧ (∀ (s : State) (rest : List HostOp), s.HostMoves → s.script = .read 1 :: rest →
      ∃ t, step s = .next t ∧ t = { s with script := rest, busyFor := t.busyFor, rdata := s.statusWord })
  ∧ (∀ s t : State, step s = .next t → (∀ rest, s.script ≠ .reset :: rest) →
      (s.herr = true → t.herr = true) ∧ (s.phase = .fault → t.phase = .fault)
      ∧ (s.done = true → t.done = true ∨ (s.phase = .idle ∧ t.phase = .busy ∧ t.done = false)))

/-! ## Host accesses -/

/-- R68, R69, R249: an illegal write is dropped and sets `HERR`; an illegal read sets `HERR` and changes nothing else of the block; a legal
access leaves `HERR` alone; and `HERR` stays set until reset. -/
def Obligations.IllegalAccessesSetHerr : Prop :=
  (∀ s t : State, step s = .next t → (∀ rest, s.script ≠ .reset :: rest) → s.herr = true → t.herr = true)
  ∧ ∀ (s : State) (loc : Loc) (rest : List HostOp), s.HostMoves →
    (∀ v, s.script = .write loc v :: rest →
      (s.IllegalWrite loc.toNat v → ∃ t, step s = .next t ∧ t = { s with script := rest, busyFor := t.busyFor, herr := true })
      ∧ (¬ s.IllegalWrite loc.toNat v → ∃ t, step s = .next t ∧ t.herr = s.herr))
    ∧ (s.script = .read loc :: rest → ∃ t, step s = .next t
        ∧ t.herr = (s.herr || decide (s.IllegalRead loc.toNat))
        ∧ t = { s with script := rest, busyFor := t.busyFor, herr := t.herr, rdata := t.rdata, draws := t.draws })

/-- R31 to R39, R62: outside phase BUSY each readable register reads as its content with the unlisted bits 0, and the read changes
nothing of the block. -/
def Obligations.RegisterReads : Prop :=
  ∀ (s : State) (rest : List HostOp), s.phase ≠ .busy → ∀ p ∈ s.registerMap, s.script = .read (BitVec.ofNat 17 p.1) :: rest →
    ∃ t, step s = .next t ∧ t = { s with script := rest, busyFor := t.busyFor, rdata := p.2 }

/-- R37: in phase IDLE a write of `0 .. 256` to `LEN_A` or `LEN_B` is stored, a write of a larger value is dropped and sets `HERR`; a
write to `LEN_C` is illegal. -/
def Obligations.LengthRegisterWrites : Prop :=
  ∀ (s : State) (v : Word) (rest : List HostOp), s.phase = .idle →
    (s.script = .write 6 v :: rest → ∃ t, step s = .next t ∧ t =
      (if v.toNat ≤ 256 then { s with script := rest, busyFor := t.busyFor, lenA := v.toNat }
        else { s with script := rest, busyFor := t.busyFor, herr := true }))
    ∧ (s.script = .write 7 v :: rest → ∃ t, step s = .next t ∧ t =
      (if v.toNat ≤ 256 then { s with script := rest, busyFor := t.busyFor, lenB := v.toNat }
        else { s with script := rest, busyFor := t.busyFor, herr := true }))
    ∧ (s.script = .write 8 v :: rest → ∃ t, step s = .next t ∧ t = { s with script := rest, busyFor := t.busyFor, herr := true })

/-- R63: in phase IDLE a write to an entry of A or B stores bits 7:0 of the value there and changes no other storage; a write to C is
dropped and sets `HERR`. Outside phase BUSY an entry below the length reads as the byte it holds, zero-extended, or, if nothing has
written it, as an unspecified byte, zero-extended; at or beyond the length the value is unspecified; neither sets `HERR`. -/
def Obligations.BufferWindows : Prop :=
  ∀ (s : State) (i : Nat) (rest : List HostOp), i < 256 →
    (∀ v, s.phase = .idle →
      (∀ base, base = baseA ∨ base = baseB → s.script = .write (BitVec.ofNat 17 (base + i)) v :: rest →
        ∃ t, step s = .next t ∧ Memory.read t.mem (base + i) = some (v.extractLsb' 0 8)
          ∧ (∀ loc, loc ≠ base + i → Memory.read t.mem loc = Memory.read s.mem loc)
          ∧ t = { s with script := rest, busyFor := t.busyFor, mem := t.mem })
      ∧ (s.script = .write (BitVec.ofNat 17 (baseC + i)) v :: rest →
          ∃ t, step s = .next t ∧ t = { s with script := rest, busyFor := t.busyFor, herr := true }))
    ∧ (s.phase ≠ .busy → ∀ p ∈ [(baseA, s.lenA), (baseB, s.lenB), (baseC, s.lenC)],
        s.script = .read (BitVec.ofNat 17 (p.1 + i)) :: rest →
        (∀ b, i < p.2 → Memory.read s.mem (p.1 + i) = some b →
          ∃ t, step s = .next t ∧ t = { s with script := rest, busyFor := t.busyFor, rdata := b.setWidth 32 })
        ∧ (i < p.2 → Memory.read s.mem (p.1 + i) = none → ∃ (b : Byte) (t : State), step s = .next t
            ∧ t = { s with script := rest, busyFor := t.busyFor, rdata := b.setWidth 32, draws := t.draws })
        ∧ (p.2 ≤ i → ∃ t, step s = .next t ∧ t = { s with script := rest, busyFor := t.busyFor, rdata := t.rdata, draws := t.draws }))

/-- R64: the location of cell `(x, y)` is valid iff there is a matrix and the cell lies in the symbol. A valid read returns the three bits,
a valid write stores bits 2:0 of the value and changes no other storage; an access to a location that is not valid is illegal. -/
def Obligations.MatrixWindow : Prop :=
  ∀ (s : State) (x y : Nat) (rest : List HostOp), x < 256 → y < 256 → s.HostMoves →
    (s.script = .read (BitVec.ofNat 17 (0x10000 + 256 * y + x)) :: rest →
      (s.phase ≠ .busy → s.ver ≠ 0 → x < s.side → y < s.side → ∃ t, step s = .next t
        ∧ t.rdata.getLsbD 0 = (cellAt s.mem x y).value ∧ t.rdata.getLsbD 1 = (cellAt s.mem x y).isCodeword
        ∧ t.rdata.getLsbD 2 = (cellAt s.mem x y).isSet ∧ (∀ k, 3 ≤ k → t.rdata.getLsbD k = false)
        ∧ t = { s with script := rest, busyFor := t.busyFor, rdata := t.rdata })
      ∧ (¬ (s.ver ≠ 0 ∧ x < s.side ∧ y < s.side) → ∃ t, step s = .next t
        ∧ t = { s with script := rest, busyFor := t.busyFor, herr := true, rdata := t.rdata, draws := t.draws }))
    ∧ (∀ v, s.script = .write (BitVec.ofNat 17 (0x10000 + 256 * y + x)) v :: rest →
      (s.phase = .idle → s.ver ≠ 0 → x < s.side → y < s.side → ∃ t, step s = .next t
        ∧ cellAt t.mem x y = ⟨v.getLsbD 2, v.getLsbD 1, v.getLsbD 0⟩
        ∧ (∀ loc, loc ≠ matLoc x y → Memory.read t.mem loc = Memory.read s.mem loc)
        ∧ t = { s with script := rest, busyFor := t.busyFor, mem := t.mem })
      ∧ (¬ (s.ver ≠ 0 ∧ x < s.side ∧ y < s.side) → ∃ t, step s = .next t
        ∧ t = { s with script := rest, busyFor := t.busyFor, herr := true }))

/-- R26, R27: the list a command reads from A and B has the length's entries, entry by entry from the start of the buffer, and nothing at or
beyond the length; an entry nothing has written is unspecified (R63), which the model writes as an entry without a value (log 1). -/
def Obligations.BufferOperands : Prop :=
  ∀ s : State, s.listA.length = s.lenA ∧ s.listB.length = s.lenB
    ∧ (∀ i, i < s.lenA → s.listA[i]? = some (Memory.read s.mem (baseA + i)))
    ∧ (∀ i, i < s.lenB → s.listB[i]? = some (Memory.read s.mem (baseB + i)))

/-! ## GF(256) and polynomials -/

/-- R21: the EXP table, from its recurrence, and that it lists every non-zero codeword once in its first 255 entries. -/
def Obligations.ExpTable : Prop :=
  gfExp 0 = 1
  ∧ (∀ i, i ≤ 253 → gfExp (i + 1) = BitVec.ofNat 8
      (if 256 ≤ 2 * (gfExp i).toNat then (2 * (gfExp i).toNat) ^^^ 0x11D else 2 * (gfExp i).toNat))
  ∧ (∀ i, i ≤ 253 → (gfExp (i + 1)).toNat = nextPower (gfExp i).toNat)
  ∧ (∀ i, 255 ≤ i → i ≤ 511 → gfExp i = gfExp (i - 255))
  ∧ (∀ i, i ≤ 511 → gfExp i ≠ 0)
  ∧ (∀ x : Byte, x ≠ 0 → ∃ i, i ≤ 254 ∧ gfExp i = x)
  ∧ (∀ i j, i ≤ 254 → j ≤ 254 → gfExp i = gfExp j → i = j)

/-- R22: `LOG[x]` is the one index in `0 .. 254` whose EXP entry is `x`, `LOG[1] = 0`, and `LOG[0]` has no value. -/
def Obligations.LogTable : Prop :=
  gfLog 0 = none ∧ gfLog 1 = some 0
  ∧ (∀ x : Byte, x ≠ 0 → ∃ i, i ≤ 254 ∧ gfLog x = some i ∧ gfExp i = x)
  ∧ (∀ i, i ≤ 254 → gfLog (gfExp i) = some i)

/-- R120: `gfMul` is 0 if either operand is 0, else the EXP entry at the sum of the logarithms, an index of at most 508; it is non-zero
when both operands are; and it is the product of the field with polynomial `0x11D`. -/
def Obligations.GfMulOfLogs : Prop :=
  (∀ a : Byte, gfMul 0 a = 0 ∧ gfMul a 0 = 0)
  ∧ (∀ i j, i ≤ 254 → j ≤ 254 → gfMul (gfExp i) (gfExp j) = gfExp (i + j))
  ∧ (∀ (a b : Byte) (i j : Nat), gfLog a = some i → gfLog b = some j → gfMul a b = gfExp (i + j) ∧ i + j ≤ 508)
  ∧ (∀ a b : Byte, a ≠ 0 → b ≠ 0 → gfMul a b ≠ 0)
  ∧ (∀ a b : Byte, gfMul a b = fieldProduct a b)

/-- R129, R121: the laws of the field: 0 annihilates, 1 is neutral, the product is associative and commutative, and it distributes over
XOR, the addition; the index sum of a product is at most 508. -/
def Obligations.GfFieldLaws : Prop :=
  (∀ x : Byte, gfMul 0 x = 0 ∧ gfMul 1 x = x)
  ∧ (∀ a b c : Byte, gfMul a (gfMul b c) = gfMul (gfMul a b) c)
  ∧ (∀ a b : Byte, gfMul a b = gfMul b a)
  ∧ (∀ a b c : Byte, gfMul a (b ^^^ c) = gfMul a b ^^^ gfMul a c)
  ∧ ∀ (a b : Byte) (i j : Nat), gfLog a = some i → gfLog b = some j → i + j ≤ 508

/-- R124: `GFMUL a, b`, its corner cases, and the illegal words of its opcode. -/
def Obligations.GfmulRule : Prop :=
  (∀ (a b : Byte) (s : State), ∃ t, exec (.gfmul a b) s = .next t
    ∧ t = { s with result := (gfMul a b).setWidth 18, done := true, phase := .idle, draws := t.draws })
  ∧ (∀ b : Byte, gfMul 0 b = 0 ∧ gfMul b 0 = 0 ∧ gfMul 1 b = b) ∧ gfMul 255 255 = 226 ∧ gfMul 2 128 = 29
  ∧ ∀ (r : BitVec 8) (a b : Byte),
      decode (0x10#8 ++ r ++ b ++ a) = if r = 0 then .command (.gfmul a b) else .illegal .reservedBit

/-- R125: `GFEXP idx`, its corner cases, and the illegal words of its opcode. -/
def Obligations.GfexpRule : Prop :=
  (∀ (idx : BitVec 9) (s : State), ∃ t, exec (.gfexp idx) s = .next t
    ∧ t = { s with result := (gfExp idx.toNat).setWidth 18, done := true, phase := .idle, draws := t.draws })
  ∧ [0, 8, 254, 255, 508, 511].map gfExp = [1, 29, 142, 1, 71, 2]
  ∧ ∀ (r : BitVec 15) (idx : BitVec 9),
      decode (0x11#8 ++ r ++ idx) = if r = 0 then .command (.gfexp idx) else .illegal .reservedBit

/-- R126: `GFLOG x` for `x != 0` writes the index whose EXP entry is `x`; `GFLOG 0` faults with cause 3; and the illegal words of its
opcode. -/
def Obligations.GflogRule : Prop :=
  (∀ (x : Byte) (s : State), x ≠ 0 → ∃ i t, i ≤ 254 ∧ gfExp i = x ∧ exec (.gflog x) s = .next t
    ∧ t = { s with result := BitVec.ofNat 18 i, done := true, phase := .idle, draws := t.draws })
  ∧ (∀ s : State, FaultsWith (exec (.gflog 0) s) s 3)
  ∧ [1, 2, 29, 142].map gfLog = [some 0, some 1, some 8, some 254]
  ∧ ∀ (r : BitVec 16) (x : Byte),
      decode (0x12#8 ++ r ++ x) = if r = 0 then .command (.gflog x) else .illegal .reservedBit

/-- R122: the product of two non-empty lists has `|p| + |q| - 1` entries, and entry `k` is the XOR of the products `p[i] * q[k-i]`. -/
def Obligations.PolyMulIsConvolution : Prop :=
  ∀ p q : Poly, p ≠ [] → q ≠ [] →
    (polyMul p q).length = p.length + q.length - 1
    ∧ ∀ k, k < p.length + q.length - 1 →
        (polyMul p q)[k]? = some ((List.range (k + 1)).foldl (fun sum i => sum ^^^ gfMul (p.getD i 0) (q.getD (k - i) 0)) 0)

/-- R127: `PMUL` on two non-empty operands whose product fits writes the product to C and `LEN_C`, the entries of C beyond it being
unspecified (R27), and leaves everything else as it was; otherwise it faults with cause 4; and the illegal words of its opcode. Where an
operand has entries nothing wrote (R63, R275), an entry of the product has a value only if it has it whatever they are (log 12). -/
def Obligations.PmulRule : Prop :=
  (∀ s : State, 1 ≤ s.lenA → 1 ≤ s.lenB → s.lenA + s.lenB - 1 ≤ 256 →
    ∃ t, exec .pmul s = .next t ∧ t.lenC = s.lenA + s.lenB - 1
      ∧ (∀ a b : Poly, s.listA = a.map some → s.listB = b.map some →
          ∀ k, k < t.lenC → Memory.read t.mem (baseC + k) = (polyMul a b)[k]?)
      ∧ (∀ (k : Nat) (v : Byte), k < t.lenC → Memory.read t.mem (baseC + k) = some v →
          ∀ a b : Poly, Fills s.listA a → Fills s.listB b → (polyMul a b)[k]? = some v)
      ∧ (∀ loc, loc < baseC ∨ baseC + 256 ≤ loc → Memory.read t.mem loc = Memory.read s.mem loc)
      ∧ t = { s with mem := t.mem, lenC := t.lenC, done := true, phase := .idle, draws := t.draws })
  ∧ (∀ s : State, s.lenA = 0 ∨ s.lenB = 0 ∨ 256 < s.lenA + s.lenB - 1 → FaultsWith (exec .pmul s) s 4)
  ∧ polyMul [1, 2] [1, 4] = [1, 6, 8]
  ∧ ∀ r : BitVec 24, decode (0x14#8 ++ r) = if r = 0 then .command .pmul else .illegal .reservedBit

/-- R123: division by a list whose first entry is 1. A dividend shorter than the divisor is returned as it is; otherwise one pass XORs the
divisor times the head of the remainder into its front, strips the leading zeros, and the division goes on; the result is shorter than the
divisor, and has no leading zero if a pass ran. -/
def Obligations.PolyModDividesStepwise : Prop :=
  ∀ dividend divisor : Poly, divisor.head? = some 1 →
    (dividend.length < divisor.length → polyMod dividend divisor = dividend)
    ∧ (divisor.length ≤ dividend.length →
        polyMod dividend divisor = polyMod
          ((List.zipWith (· ^^^ ·) dividend
            (divisor.map (fun c => gfMul c (dividend.headD 0)) ++ List.replicate (dividend.length - divisor.length) 0)).dropWhile
              (· == 0)) divisor
        ∧ (polyMod dividend divisor).head? ≠ some 0)
    ∧ (polyMod dividend divisor).length < divisor.length

/-- R123, fact 5: the result is the remainder of the polynomial division: the dividend is a multiple of the divisor plus the result. -/
def Obligations.PolyModIsRemainder : Prop :=
  ∀ dividend divisor : Poly, divisor.head? = some 1 → divisor.length ≤ dividend.length →
    ∃ quotient : Poly, quotient.length = dividend.length - divisor.length + 1
      ∧ dividend = List.zipWith (· ^^^ ·) (polyMul quotient divisor)
          (List.replicate (dividend.length - (polyMod dividend divisor).length) 0 ++ polyMod dividend divisor)

/-- R128, with R63, R123 and R275: `PMOD` by a divisor with first entry 1 writes the remainder to C and `LEN_C`, the entries of C beyond it being unspecified
(R27), and leaves everything else as it was; a dividend shorter than the divisor is copied; the result has no leading zero when the dividend
is at least as long as the divisor; an empty or non-monic divisor faults with cause 5; and the illegal words of its opcode. Where an operand
has entries nothing wrote (R63, R275), an entry of the remainder has a value only if it has it whatever they are. Where `B[0]` itself is unwritten,
that its test is decided by a free value and that `LEN_C` then is below `LEN_B` are the model's choice (log 12). For a divisor length that
`LEN_B` can hold (R37). -/
def Obligations.PmodRule : Prop :=
  (∀ s : State, 1 ≤ s.lenB → s.lenB ≤ 256 → s.entry baseB = 1 →
    ∃ t, exec .pmod s = .next t ∧ t.lenC < s.lenB
      ∧ (∀ a b : Poly, s.listA = a.map some → s.listB = b.map some →
          t.lenC = (polyMod a b).length ∧ ∀ k, k < t.lenC → Memory.read t.mem (baseC + k) = (polyMod a b)[k]?)
      ∧ (s.lenA < s.lenB → t.lenC = s.lenA ∧ ∀ k, k < s.lenA → Memory.read t.mem (baseC + k) = Memory.read s.mem (baseA + k))
      ∧ (s.lenB ≤ s.lenA → ∀ (k : Nat) (v : Byte), k < t.lenC → Memory.read t.mem (baseC + k) = some v →
          ∀ a b : Poly, Fills s.listA a → Fills s.listB b → b.head? = some 1 →
            (List.replicate (s.lenB - 1 - (polyMod a b).length) 0 ++ polyMod a b)[s.lenB - 1 - t.lenC + k]? = some v)
      ∧ (s.lenB ≤ s.lenA → t.lenC ≠ 0 → Memory.read t.mem baseC ≠ some 0)
      ∧ (∀ loc, loc < baseC ∨ baseC + 256 ≤ loc → Memory.read t.mem loc = Memory.read s.mem loc)
      ∧ t = { s with mem := t.mem, lenC := t.lenC, done := true, phase := .idle, draws := t.draws })
  ∧ (∀ s : State, s.lenB = 0 ∨ s.entry baseB ≠ 1 → FaultsWith (exec .pmod s) s 5)
  ∧ (∀ (s : State) (b : Byte), Memory.read s.mem baseB = some b → s.entry baseB = b)
  ∧ polyMod [1, 0, 0] [1, 3, 2] = [3, 2] ∧ polyMod [0, 5] [1, 3, 2] = [0, 5] ∧ polyMod [1, 3, 2] [1, 3, 2] = []
  ∧ polyMod [0, 0, 5] [1, 1] = [5] ∧ (∀ p, polyMod p [1] = [])
  ∧ ∀ r : BitVec 24, decode (0x15#8 ++ r) = if r = 0 then .command .pmod else .illegal .reservedBit

/-! ## Reed-Solomon -/

/-- R150: the generator polynomials, from their recurrence; each is monic of degree `d`, and its last entry is `EXP[d*(d-1)/2 mod 255]`. The
block uses the degrees `0 .. 68`. -/
def Obligations.GeneratorPolynomials : Prop :=
  gen 0 = [1] ∧ (∀ d, 1 ≤ d → gen d = polyMul (gen (d - 1)) [1, gfExp (d - 1)])
  ∧ (∀ d, (gen d).length = d + 1 ∧ (gen d).head? = some 1
      ∧ (1 ≤ d → (gen d).getLast? = some (gfExp (d * (d - 1) / 2 % 255))))
  ∧ gen 1 = [1, 1] ∧ gen 2 = [1, 3, 2] ∧ gen 3 = [1, 7, 14, 8] ∧ gen 4 = [1, 15, 54, 120, 64]
  ∧ gen 7 = [1, 127, 122, 154, 164, 11, 68, 117] ∧ gen 10 = [1, 216, 194, 159, 111, 199, 94, 95, 113, 157, 193]

/-- R152: `GENLD d` for `d <= 68` writes the generator polynomial to C and `LEN_C`, the entries of C beyond it being unspecified (R27),
and leaves everything else as it was; a larger degree faults with cause 2; and the illegal words of its opcode. -/
def Obligations.GenldRule : Prop :=
  (∀ (d : BitVec 7) (s : State), d.toNat ≤ 68 →
    ∃ t, exec (.genld d) s = .next t ∧ t.lenC = d.toNat + 1
      ∧ (∀ k, k < t.lenC → Memory.read t.mem (baseC + k) = (gen d.toNat)[k]?)
      ∧ (∀ loc, loc < baseC ∨ baseC + 256 ≤ loc → Memory.read t.mem loc = Memory.read s.mem loc)
      ∧ t = { s with mem := t.mem, lenC := t.lenC, done := true, phase := .idle, draws := t.draws })
  ∧ (∀ (d : BitVec 7) (s : State), 69 ≤ d.toNat → FaultsWith (exec (.genld d) s) s 2)
  ∧ ∀ (r : BitVec 17) (d : BitVec 7),
      decode (0x20#8 ++ r ++ d) = if r = 0 then .command (.genld d) else .illegal .reservedBit

/-- R151: the EC codewords are the remainder of `data * x^e` by `G_e`, left-padded to exactly `e`; and the block followed by its EC codewords
is a multiple of `G_e` (invariant 6). -/
def Obligations.RsEncodeDivisible : Prop :=
  ∀ (data : Poly) (e : Nat), e ≤ 68 →
    rsEncode data e
      = List.replicate (e - (polyMod (data ++ List.replicate e 0) (gen e)).length) 0 ++ polyMod (data ++ List.replicate e 0) (gen e)
    ∧ (rsEncode data e).length = e
    ∧ (data ≠ [] → polyMod (data ++ rsEncode data e) (gen e) = [])

/-- R153: `RSENC e` writes the `e` EC codewords of the block held by A to C and `LEN_C`, the entries of C beyond them being unspecified
(R27), and leaves everything else as it was; `e > 68` faults with cause 2, before a block that with its EC codewords exceeds 256 faults with cause
4; and the illegal words of its opcode. Where the block has entries nothing wrote (R63, R275), an EC codeword has a value only if it has it
whatever they are (log 12). -/
def Obligations.RsencRule : Prop :=
  (∀ (e : BitVec 7) (s : State), e.toNat ≤ 68 → s.lenA + e.toNat ≤ 256 →
    ∃ t, exec (.rsenc e) s = .next t ∧ t.lenC = e.toNat
      ∧ (∀ a : Poly, s.listA = a.map some → ∀ k, k < t.lenC → Memory.read t.mem (baseC + k) = (rsEncode a e.toNat)[k]?)
      ∧ (∀ (k : Nat) (v : Byte), k < t.lenC → Memory.read t.mem (baseC + k) = some v →
          ∀ a : Poly, Fills s.listA a → (rsEncode a e.toNat)[k]? = some v)
      ∧ (∀ loc, loc < baseC ∨ baseC + 256 ≤ loc → Memory.read t.mem loc = Memory.read s.mem loc)
      ∧ t = { s with mem := t.mem, lenC := t.lenC, done := true, phase := .idle, draws := t.draws })
  ∧ (∀ (e : BitVec 7) (s : State), 69 ≤ e.toNat → FaultsWith (exec (.rsenc e) s) s 2)
  ∧ (∀ (e : BitVec 7) (s : State), e.toNat ≤ 68 → 256 < s.lenA + e.toNat → FaultsWith (exec (.rsenc e) s) s 4)
  ∧ rsEncode [25, 9, 125, 250] 2 = [0, 151] ∧ rsEncode [0, 0, 1] 4 = [15, 54, 120, 64]
  ∧ rsEncode [32, 91, 11, 120, 209, 114, 220, 77, 67, 64, 236, 17, 236, 17, 236, 17] 10 = [196, 35, 39, 119, 235, 215, 231, 226, 93, 23]
  ∧ (∀ k e, e ≤ 68 → rsEncode (List.replicate k 0) e = List.replicate e 0) ∧ (∀ data, rsEncode data 0 = [])
  ∧ ∀ (r : BitVec 17) (e : BitVec 7),
      decode (0x21#8 ++ r ++ e) = if r = 0 then .command (.rsenc e) else .illegal .reservedBit

/-- R97: `RSCHECK`. With a codeword block followed by its EC codewords in A and the generator in B, `PMOD` leaves `LEN_C = 0`. -/
def Obligations.RscheckAcceptsEncodedBlock : Prop :=
  ∀ (s : State) (data : Poly) (e : Nat), e ≤ 68 → data ≠ [] → s.listA = (data ++ rsEncode data e).map some →
    s.listB = (gen e).map some →
    ∃ t, exec .pmod s = .next t ∧ t.phase = .idle ∧ t.lenC = 0

/-! ## Masks and penalties -/

/-- R170: the eight mask predicates, `x` the column and `y` the row. -/
def Obligations.MaskPredicates : Prop :=
  ∀ x y : Nat,
    (maskPred 0 x y = true ↔ (x + y) % 2 = 0) ∧ (maskPred 1 x y = true ↔ y % 2 = 0) ∧ (maskPred 2 x y = true ↔ x % 3 = 0)
    ∧ (maskPred 3 x y = true ↔ (x + y) % 3 = 0) ∧ (maskPred 4 x y = true ↔ (x / 3 + y / 2) % 2 = 0)
    ∧ (maskPred 5 x y = true ↔ (x * y) % 2 + (x * y) % 3 = 0)
    ∧ (maskPred 6 x y = true ↔ ((x * y) % 2 + (x * y) % 3) % 2 = 0)
    ∧ (maskPred 7 x y = true ↔ ((x + y) % 2 + (x * y) % 3) % 2 = 0)

/-- R171: applying a mask inverts the colour of the codeword cells of the symbol where the predicate holds and changes nothing else; twice
is not at all; masks commute. -/
def Obligations.MaskTogglesCodewordCells : Prop :=
  ∀ (m : Memory) (n : Nat) (i : BitVec 3), n ≤ Config.nMax →
    (∀ x y, x < n → y < n → cellAt (applyMask n i m) x y
      = ⟨(cellAt m x y).isSet, (cellAt m x y).isCodeword, (cellAt m x y).value ^^ ((cellAt m x y).isCodeword && maskPred i x y)⟩)
    ∧ (∀ loc, (∀ x y, x < n → y < n → loc ≠ matLoc x y) → Memory.read (applyMask n i m) loc = Memory.read m loc)
    ∧ applyMask n i (applyMask n i m) = m
    ∧ ∀ j, applyMask n i (applyMask n j m) = applyMask n j (applyMask n i m)

/-- R172: the adjacency score is the sum, over the maximal runs of every row and column, of `3 + (L - 5)` for each run of length `L >= 5`. -/
def Obligations.AdjacencyScoresRuns : Prop :=
  ∀ (n : Nat) (f : Nat → Nat → Bool),
    penAdjOf n (grid n f) = ((gridLines n f).map fun line =>
      ((line.splitBy (· == ·)).map fun run => if 5 ≤ run.length then 3 + (run.length - 5) else 0).sum).sum

/-- R173: the block score is 3 for each of the `(N-1)^2` positions whose four cells have one colour. -/
def Obligations.BlocksScorePositions : Prop :=
  ∀ (n : Nat) (f : Nat → Nat → Bool),
    penBlkOf (grid n f) = ((List.range (n - 1)).map fun y => ((List.range (n - 1)).map fun x =>
      if f x y = f (x + 1) y ∧ f x y = f x (y + 1) ∧ f x y = f (x + 1) (y + 1) then 3 else 0).sum).sum

/-- R174: the finder-like score is 40 for each of the `N - 10` windows of each row and column that equals the pattern or its reverse. -/
def Obligations.FinderScoresWindows : Prop :=
  ∀ (n : Nat) (f : Nat → Nat → Bool),
    penFindOf n (grid n f) = ((gridLines n f).map fun line => ((List.range (n - 10)).map fun k =>
      if (List.range 11).map (fun j => line.getD (k + j) false) = [true, false, true, true, true, false, true, false, false, false, false]
        ∨ (List.range 11).map (fun j => line.getD (k + j) false) = [false, false, false, false, true, false, true, true, true, false, true]
      then 40 else 0).sum).sum

/-- R175: the popcount, and the proportion score in exact integer arithmetic: ten times the number of whole twentieths by which the dark
fraction differs from one half, for the symbols of every version; 100 only if all cells have one colour. -/
def Obligations.ProportionIsExact : Prop :=
  (∀ (n : Nat) (f : Nat → Nat → Bool), popcount (grid n f)
    = ((List.range n).map fun y => ((List.range n).map fun x => if f x y then 1 else 0).sum).sum)
  ∧ ∀ (v : Fin 41) (dark : Nat), v ≠ 0 → dark ≤ sideOf v * sideOf v →
    ∃ k, k ≤ 10 ∧ penPropOf (sideOf v) dark = 10 * k
      ∧ k * (sideOf v * sideOf v) ≤ 10 * ((2 * dark - sideOf v * sideOf v) + (sideOf v * sideOf v - 2 * dark))
      ∧ 10 * ((2 * dark - sideOf v * sideOf v) + (sideOf v * sideOf v - 2 * dark)) < (k + 1) * (sideOf v * sideOf v)
      ∧ (k = 10 ↔ dark = 0 ∨ dark = sideOf v * sideOf v)
      ∧ 1 ≤ (2 * dark - sideOf v * sideOf v) + (sideOf v * sideOf v - 2 * dark)

/-- R41: nothing in the block overflows: the bounds of the penalties of a symbol of any version, of a product in a mask predicate and of an
EXP index. -/
def Obligations.WidthsSuffice : Prop :=
  (∀ (v : Fin 41) (f : Nat → Nat → Bool), v ≠ 0 →
    (scoreOf (sideOf v) (grid (sideOf v) f)).dark ≤ 31329
    ∧ (scoreOf (sideOf v) (grid (sideOf v) f)).adj ≤ 2 * sideOf v * (sideOf v - 2)
    ∧ (scoreOf (sideOf v) (grid (sideOf v) f)).blk ≤ 3 * (sideOf v - 1) ^ 2
    ∧ (scoreOf (sideOf v) (grid (sideOf v) f)).find ≤ 40 * (2 * sideOf v * (sideOf v - 10))
    ∧ (scoreOf (sideOf v) (grid (sideOf v) f)).prop ≤ 100
    ∧ (scoreOf (sideOf v) (grid (sideOf v) f)).total < 2 ^ 22
    ∧ 2 * sideOf v * (sideOf v - 2) ≤ 61950 ∧ 3 * (sideOf v - 1) ^ 2 ≤ 92928 ∧ 40 * (2 * sideOf v * (sideOf v - 10)) ≤ 2364720
    ∧ ∀ x y, x < sideOf v → y < sideOf v → x * y ≤ 30976)
  ∧ ∀ (a b : Byte) (i j : Nat), gfLog a = some i → gfLog b = some j → i + j ≤ 508

/-- R178: `MINIT v` for `v` in `1 .. 40` sets the version and makes every cell of the new symbol unset, and changes nothing else; any other
`v` faults with cause 2; and the illegal words of its opcode. -/
def Obligations.MinitRule : Prop :=
  (∀ (v : BitVec 6) (s : State), 1 ≤ v.toNat → v.toNat ≤ 40 →
    ∃ t, exec (.minit v) s = .next t ∧ t.ver.val = v.toNat ∧ t.side = 21 + 4 * (v.toNat - 1)
      ∧ (∀ x y, x < t.side → y < t.side → cellAt t.mem x y = ⟨false, false, false⟩)
      ∧ (∀ loc, loc < baseMat → Memory.read t.mem loc = Memory.read s.mem loc)
      ∧ t = { s with ver := t.ver, mem := t.mem, done := true, phase := .idle, draws := t.draws })
  ∧ (∀ (v : BitVec 6) (s : State), v.toNat = 0 ∨ 41 ≤ v.toNat → FaultsWith (exec (.minit v) s) s 2)
  ∧ ∀ (r : BitVec 18) (v : BitVec 6),
      decode (0x30#8 ++ r ++ v) = if r = 0 then .command (.minit v) else .illegal .reservedBit

/-- R179: `MASKAPPLY m` on a symbol with every cell set applies the mask and changes nothing else; a second one restores the matrix; a
symbol with no codeword cell is unchanged, every location of it, and so the storage as data where it is in canonical form; on the version-1 symbol of codeword light cells mask 0 makes the checkerboard; without a matrix it faults with cause 6,
with an unset cell with cause 7; and the illegal words of its opcode. -/
def Obligations.MaskapplyRule : Prop :=
  (∀ (i : BitVec 3) (s : State), s.ver ≠ 0 → s.AllSet →
    ∃ t, exec (.maskapply i) s = .next t
      ∧ (∀ x y, x < s.side → y < s.side →
          cellAt t.mem x y = ⟨true, (cellAt s.mem x y).isCodeword, s.maskedColour i x y⟩)
      ∧ (∀ loc, (∀ x y, x < s.side → y < s.side → loc ≠ matLoc x y) → Memory.read t.mem loc = Memory.read s.mem loc)
      ∧ t = { s with mem := t.mem, done := true, phase := .idle, draws := t.draws }
      ∧ (∃ u, exec (.maskapply i) t = .next u ∧ u.mem = s.mem)
      ∧ ((∀ x y, x < s.side → y < s.side → (cellAt s.mem x y).isCodeword = false) →
          (∀ loc, Memory.read t.mem loc = Memory.read s.mem loc) ∧ (Memory.wf s.mem → t.mem = s.mem))
      ∧ (s.ver = 1 → (∀ x y, x < 21 → y < 21 → cellAt s.mem x y = ⟨true, true, false⟩) → i = 0 →
          (∀ x y, x < 21 → y < 21 → ((cellAt t.mem x y).value = true ↔ (x + y) % 2 = 0)) ∧ popcount (colours t.mem 21) = 221))
  ∧ (∀ (i : BitVec 3) (s : State), s.ver = 0 → FaultsWith (exec (.maskapply i) s) s 6)
  ∧ (∀ (i : BitVec 3) (s : State), s.ver ≠ 0 → ¬ s.AllSet → FaultsWith (exec (.maskapply i) s) s 7)
  ∧ ∀ (r : BitVec 21) (i : BitVec 3),
      decode (0x31#8 ++ r ++ i) = if r = 0 then .command (.maskapply i) else .illegal .reservedBit

/-- R176, R180: `SCORE` on a symbol with every cell set writes the six score registers from the colours of the cells alone, the total
being the sum of the components, and changes nothing else; the scores of the uniform version-1 symbols, of the checkerboard and of the
symbol of the rule's example; without a matrix it faults with cause 6, with an unset cell with cause 7; and
the illegal words of its opcode. -/
def Obligations.ScoreRule : Prop :=
  (∀ s : State, s.ver ≠ 0 → s.AllSet →
    ∃ t, exec .score s = .next t ∧ t = { s with
      dark := BitVec.ofNat 32 (popcount (grid s.side s.colour))
      penAdj := BitVec.ofNat 32 (penAdjOf s.side (grid s.side s.colour))
      penBlk := BitVec.ofNat 32 (penBlkOf (grid s.side s.colour))
      penFind := BitVec.ofNat 32 (penFindOf s.side (grid s.side s.colour))
      penProp := BitVec.ofNat 32 (penPropOf s.side (popcount (grid s.side s.colour)))
      penTotal := BitVec.ofNat 32 (penAdjOf s.side (grid s.side s.colour) + penBlkOf (grid s.side s.colour)
        + penFindOf s.side (grid s.side s.colour) + penPropOf s.side (popcount (grid s.side s.colour)))
      done := true, phase := .idle, draws := t.draws })
  ∧ scoreOf 21 (grid 21 fun _ _ => false) = ⟨0, 798, 1200, 0, 100⟩ ∧ scoreOf 21 (grid 21 fun _ _ => true) = ⟨441, 798, 1200, 0, 100⟩
  ∧ scoreOf 21 (grid 21 fun x y => decide ((x + y) % 2 = 0)) = ⟨221, 0, 0, 0, 0⟩
  ∧ scoreOf 21 (grid 21 fun x y => decide (y = 3) && (x == 2 || x == 4 || x == 5 || x == 6 || x == 8)) = ⟨5, 769, 1152, 40, 90⟩
  ∧ (∀ s : State, s.ver = 0 → FaultsWith (exec .score s) s 6)
  ∧ (∀ s : State, s.ver ≠ 0 → ¬ s.AllSet → FaultsWith (exec .score s) s 7)
  ∧ ∀ r : BitVec 24, decode (0x32#8 ++ r) = if r = 0 then .command .score else .illegal .reservedBit

/-- R177, R181: `MASKSEL` on a symbol with every cell set records in `MPEN` the total penalty of the symbol under each mask, in `BEST` the
least mask with the lowest one, leaves that mask applied and the score registers holding the score of the masked symbol, and changes
nothing else; the eight penalties of the rule's example, whose cells are all codeword and light; without a matrix it faults with cause 6, with an unset cell with cause 7; and the illegal words of its opcode. -/
def Obligations.MaskselRule : Prop :=
  (∀ s : State, s.ver ≠ 0 → s.AllSet →
    ∃ t, exec .masksel s = .next t
      ∧ (∀ i : Fin 8, t.mpen[i].toNat = (scoreOf s.side (grid s.side (s.maskedColour (BitVec.ofFin i)))).total)
      ∧ (∀ i : BitVec 3, (scoreOf s.side (grid s.side (s.maskedColour t.best))).total
            ≤ (scoreOf s.side (grid s.side (s.maskedColour i))).total
          ∧ (i < t.best → (scoreOf s.side (grid s.side (s.maskedColour t.best))).total
            < (scoreOf s.side (grid s.side (s.maskedColour i))).total))
      ∧ (∀ x y, x < s.side → y < s.side →
          cellAt t.mem x y = ⟨true, (cellAt s.mem x y).isCodeword, s.maskedColour t.best x y⟩)
      ∧ (∀ loc, (∀ x y, x < s.side → y < s.side → loc ≠ matLoc x y) → Memory.read t.mem loc = Memory.read s.mem loc)
      ∧ t.dark.toNat = (scoreOf s.side (grid s.side (s.maskedColour t.best))).dark
      ∧ t.penAdj.toNat = (scoreOf s.side (grid s.side (s.maskedColour t.best))).adj
      ∧ t.penBlk.toNat = (scoreOf s.side (grid s.side (s.maskedColour t.best))).blk
      ∧ t.penFind.toNat = (scoreOf s.side (grid s.side (s.maskedColour t.best))).find
      ∧ t.penProp.toNat = (scoreOf s.side (grid s.side (s.maskedColour t.best))).prop
      ∧ t.penTotal = t.mpen[t.best.toFin]
      ∧ t = { s with mem := t.mem, mpen := t.mpen, best := t.best, dark := t.dark, penAdj := t.penAdj, penBlk := t.penBlk, penFind := t.penFind, penProp := t.penProp, penTotal := t.penTotal, done := true, phase := .idle, draws := t.draws })
  ∧ ([0, 1, 2, 3, 4, 5, 6, 7] : List (BitVec 3)).map (fun i => (scoreOf 21 (grid 21 (maskPred i))).total)
      = [0, 399, 849, 30, 420, 435, 407, 147]
  ∧ (∀ s : State, s.ver = 0 → FaultsWith (exec .masksel s) s 6)
  ∧ (∀ s : State, s.ver ≠ 0 → ¬ s.AllSet → FaultsWith (exec .masksel s) s 7)
  ∧ ∀ r : BitVec 24, decode (0x33#8 ++ r) = if r = 0 then .command .masksel else .illegal .reservedBit

/-! ## Format and version information -/

/-- R210, R211, R216: `FMTPACK ec, m` writes the format code of the level and mask to `RESULT`, with or without a matrix; and the illegal
words of its opcode. It holds for the table the model is configured with and, as the second clause says, for any other (log 9). -/
def Obligations.FmtpackRule : Prop :=
  (∀ (ec : EcLevel) (i : BitVec 3) (s : State), ∃ c, params.formatInformation[levelRow ec + i.toNat]? = some c
    ∧ ∃ t, exec (.fmtpack ec i) s = .next t
      ∧ t = { s with result := c.setWidth 18, done := true, phase := .idle, draws := t.draws })
  ∧ (∀ (p : Config.Params) (ec : EcLevel) (i : BitVec 3) (s : State), ∃ c t, p.formatInformation[levelRow ec + i.toNat]? = some c
      ∧ execFor p (.fmtpack ec i) s = .next t
      ∧ t = { s with result := c.setWidth 18, done := true, phase := .idle, draws := t.draws })
  ∧ [EcLevel.l, .m, .q, .h].map ecBits = [0b01, 0b00, 0b11, 0b10]
  ∧ ∀ (hi : BitVec 14) (ec : EcLevel) (lo : BitVec 5) (i : BitVec 3),
      decode (0x40#8 ++ hi ++ ec.toBits ++ lo ++ i)
        = if hi = 0 ∧ lo = 0 then .command (.fmtpack ec i) else .illegal .reservedBit

/-- R217, with the cells of R212 and R213: `FMTRSV` writes the 30 format cells set, functional and light and the dark-module cell set,
functional and of colour `RSV_DARK`, and changes nothing else; without a matrix it faults with cause 6, with a codeword cell among its
targets with cause 8; and the illegal words of its opcode. `RSV_DARK` is the parameter of log 8; the second
clause is for either value of it. -/
def Obligations.FmtrsvRule : Prop :=
  (∀ s : State, s.ver ≠ 0 → ¬ s.Conflict (fmtCells s.side) →
    ∃ t, exec .fmtrsv s = .next t
      ∧ (∀ i, i < 8 → cellAt t.mem (if i < 6 then i else i + 1) 8 = ⟨true, false, false⟩
          ∧ cellAt t.mem 8 (if i < 6 then i else i + 1) = ⟨true, false, false⟩
          ∧ cellAt t.mem (s.side - 1 - i) 8 = ⟨true, false, false⟩
          ∧ (i < 7 → cellAt t.mem 8 (s.side - 1 - i) = ⟨true, false, false⟩))
      ∧ cellAt t.mem 8 (s.side - 8) = ⟨true, false, params.rsvDark⟩
      ∧ (∀ loc, (∀ p ∈ fmtCells s.side, loc ≠ matLoc p.x p.y) → Memory.read t.mem loc = Memory.read s.mem loc)
      ∧ t = { s with mem := t.mem, done := true, phase := .idle, draws := t.draws })
  ∧ (∀ (p : Config.Params) (s : State), s.ver ≠ 0 → ¬ s.Conflict (fmtCells s.side) →
      ∃ t, execFor p .fmtrsv s = .next t
        ∧ t = { s with mem := placeFormat s.side 0 p.rsvDark s.mem, done := true, phase := .idle, draws := t.draws })
  ∧ (∀ s : State, s.ver = 0 → FaultsWith (exec .fmtrsv s) s 6)
  ∧ (∀ s : State, s.ver ≠ 0 → s.Conflict (fmtCells s.side) → FaultsWith (exec .fmtrsv s) s 8)
  ∧ ∀ r : BitVec 24, decode (0x41#8 ++ r) = if r = 0 then .command .fmtrsv else .illegal .reservedBit

/-- R212, R213, R218: `FMTPLACE ec, m` writes each bit of the format code, 0 the most significant, to its two cells, set and functional, and
the dark module dark whatever bit 7 is, and changes nothing else; without a matrix it faults with cause 6, with a codeword cell among its
targets with cause 8; and the illegal words of its opcode. The second clause is for any contents of the table (log 9). -/
def Obligations.FmtplaceRule : Prop :=
  (∀ (ec : EcLevel) (m : BitVec 3) (s : State), s.ver ≠ 0 → ¬ s.Conflict (fmtCells s.side) →
    ∃ c t, params.formatInformation[levelRow ec + m.toNat]? = some c ∧ exec (.fmtplace ec m) s = .next t
      ∧ (∀ i, i < 8 → cellAt t.mem (if i < 6 then i else i + 1) 8 = ⟨true, false, c.getLsbD (14 - i)⟩
          ∧ cellAt t.mem 8 (if i < 6 then i else i + 1) = ⟨true, false, c.getLsbD i⟩
          ∧ cellAt t.mem (s.side - 1 - i) 8 = ⟨true, false, c.getLsbD i⟩
          ∧ (i < 7 → cellAt t.mem 8 (s.side - 1 - i) = ⟨true, false, c.getLsbD (14 - i)⟩))
      ∧ cellAt t.mem 8 (s.side - 8) = ⟨true, false, true⟩
      ∧ (∀ loc, (∀ p ∈ fmtCells s.side, loc ≠ matLoc p.x p.y) → Memory.read t.mem loc = Memory.read s.mem loc)
      ∧ t = { s with mem := t.mem, done := true, phase := .idle, draws := t.draws })
  ∧ (∀ (p : Config.Params) (ec : EcLevel) (m : BitVec 3) (s : State), s.ver ≠ 0 → ¬ s.Conflict (fmtCells s.side) →
      ∃ c t, p.formatInformation[levelRow ec + m.toNat]? = some c ∧ execFor p (.fmtplace ec m) s = .next t
        ∧ t = { s with mem := placeFormat s.side c true s.mem, done := true, phase := .idle, draws := t.draws })
  ∧ (∀ (ec : EcLevel) (m : BitVec 3) (s : State), s.ver = 0 → FaultsWith (exec (.fmtplace ec m) s) s 6)
  ∧ (∀ (ec : EcLevel) (m : BitVec 3) (s : State), s.ver ≠ 0 → s.Conflict (fmtCells s.side) →
      FaultsWith (exec (.fmtplace ec m) s) s 8)
  ∧ ∀ (hi : BitVec 14) (ec : EcLevel) (lo : BitVec 5) (m : BitVec 3),
      decode (0x42#8 ++ hi ++ ec.toBits ++ lo ++ m)
        = if hi = 0 ∧ lo = 0 then .command (.fmtplace ec m) else .illegal .reservedBit

/-- R214, R219: `VERPACK v` for `v` in `7 .. 40` writes the version code to `RESULT`, with or without a matrix, for version 7 the code the
source prints; any other `v` faults with cause 2; and the illegal words of its opcode. The second clause is for any contents of the table
(log 10). -/
def Obligations.VerpackRule : Prop :=
  (∀ (v : BitVec 6) (s : State), 7 ≤ v.toNat → v.toNat ≤ 40 →
    ∃ c t, params.versionInformation[v.toNat - 7]? = some c ∧ exec (.verpack v) s = .next t
      ∧ t = { s with result := c, done := true, phase := .idle, draws := t.draws })
  ∧ (∀ (p : Config.Params) (v : BitVec 6) (s : State), 7 ≤ v.toNat → v.toNat ≤ 40 →
      ∃ c t, p.versionInformation[v.toNat - 7]? = some c ∧ execFor p (.verpack v) s = .next t
        ∧ t = { s with result := c, done := true, phase := .idle, draws := t.draws })
  ∧ params.versionInformation[0] = 0b000111110010010100
  ∧ (∀ (v : BitVec 6) (s : State), v.toNat ≤ 6 ∨ 41 ≤ v.toNat → FaultsWith (exec (.verpack v) s) s 2)
  ∧ ∀ (r : BitVec 18) (v : BitVec 6),
      decode (0x44#8 ++ r ++ v) = if r = 0 then .command (.verpack v) else .illegal .reservedBit

/-- R215, R220, R221: `VERPLACE` at version 7 or above writes bit `i` of the version code, 0 the most significant, to `(N-9-(i mod 3),
5-⌊i/3⌋)` and to its mirror, set and functional, and changes nothing else; below version 7 it completes and writes nothing; without a matrix
it faults with cause 6, with a codeword cell among its targets with cause 8; and the illegal words of its opcode. The second clause is for any
contents of the table (log 10). -/
def Obligations.VerplaceRule : Prop :=
  (∀ s : State, 7 ≤ s.ver.val → ¬ s.Conflict (verCells s.side) →
    ∃ c t, params.versionInformation[s.ver.val - 7]? = some c ∧ exec .verplace s = .next t
      ∧ (∀ i, i < 18 → cellAt t.mem (s.side - 9 - i % 3) (5 - i / 3) = ⟨true, false, c.getLsbD (17 - i)⟩
          ∧ cellAt t.mem (5 - i / 3) (s.side - 9 - i % 3) = ⟨true, false, c.getLsbD (17 - i)⟩)
      ∧ (∀ loc, (∀ p ∈ verCells s.side, loc ≠ matLoc p.x p.y) → Memory.read t.mem loc = Memory.read s.mem loc)
      ∧ t = { s with mem := t.mem, done := true, phase := .idle, draws := t.draws })
  ∧ (∀ (p : Config.Params) (s : State), 7 ≤ s.ver.val → ¬ s.Conflict (verCells s.side) →
      ∃ c t, p.versionInformation[s.ver.val - 7]? = some c ∧ execFor p .verplace s = .next t
        ∧ t = { s with mem := placeVersion s.side c s.mem, done := true, phase := .idle, draws := t.draws })
  ∧ (∀ s : State, s.ver ≠ 0 → s.ver.val ≤ 6 → ∃ t, exec .verplace s = .next t
      ∧ t = { s with done := true, phase := .idle, draws := t.draws })
  ∧ (∀ s : State, s.ver = 0 → FaultsWith (exec .verplace s) s 6)
  ∧ (∀ s : State, 7 ≤ s.ver.val → s.Conflict (verCells s.side) → FaultsWith (exec .verplace s) s 8)
  ∧ ∀ r : BitVec 24, decode (0x45#8 ++ r) = if r = 0 then .command .verplace else .illegal .reservedBit

/-- R171, R221, R276: no command but `MINIT` unsets a cell of the symbol or changes whether it is a codeword cell; the colour of a set
codeword cell changes only under `MASKAPPLY` and `MASKSEL`, and that of a set functional cell only under the placers. For a divisor length
that `LEN_B` can hold (R37). -/
def Obligations.CellKindsAreKept : Prop :=
  ∀ (i : Instr) (s t : State) (x y : Nat), s.lenB ≤ 256 → (∀ v, i ≠ .minit v) → x < s.side → y < s.side →
    (cellAt s.mem x y).isSet = true → exec i s = .next t →
    (cellAt t.mem x y).isSet = true ∧ (cellAt t.mem x y).isCodeword = (cellAt s.mem x y).isCodeword
    ∧ ((cellAt s.mem x y).isCodeword = true → (∀ m, i ≠ .maskapply m) → i ≠ .masksel → cellAt t.mem x y = cellAt s.mem x y)
    ∧ ((cellAt s.mem x y).isCodeword = false → i ≠ .fmtrsv → (∀ ec m, i ≠ .fmtplace ec m) → i ≠ .verplace →
        cellAt t.mem x y = cellAt s.mem x y)
end

