-- ==== Sys2Proof/Laws/Configured.lean ====
section
/-! SUPPORT. `exec` and `step` are the configured machine at `params`. -/

namespace Sys2Proof.Machine

theorem execFor_params (i : Instr) (s : State) : execFor params i s = exec i s := by cases i <;> rfl

theorem stepFor_params (s : State) : stepFor params s = step s := by
  have h : execFor params = exec := funext fun i => funext fun s => execFor_params i s
  unfold stepFor step; rw [h]

end Sys2Proof.Machine
end

