-- ==== Sys2Proof/Laws/Field.lean ====
section
/-! SUPPORT. The field and the polynomial functions: the special factors of a product, and how long each result is. -/

namespace Sys2Proof.Machine

@[simp] theorem gfMul_zero_left (b : Byte) : gfMul 0#8 b = 0#8 := rfl

@[simp] theorem gfMul_zero_right (a : Byte) : gfMul a 0#8 = 0#8 := by
  unfold gfMul; cases gfLog a <;> rfl

@[simp] theorem gfMul_one_left (b : Byte) : gfMul 1#8 b = b := by revert b; decide +kernel

theorem gfLog_eq_none (x : Byte) : gfLog x = none ↔ x = 0 := by
  unfold gfLog; split <;> simp_all

/-! ## Lists -/

@[simp] theorem length_zeros (n : Nat) : (zeros n).length = n := List.length_replicate

@[simp] theorem length_gfScale (c : Byte) (q : Poly) : (gfScale c q).length = q.length := List.length_map _

@[simp] theorem length_gfAddLists (p q : Poly) : (gfAddLists p q).length = min p.length q.length :=
  List.length_zipWith

/-- A product of non-empty lists has `|p| + |q| - 1` entries (R122). -/
theorem length_polyMul {p q : Poly} (hp : p ≠ []) (hq : q ≠ []) : (polyMul p q).length = p.length + q.length - 1 := by
  have hq := List.length_pos_iff.2 hq
  induction p with
  | nil => exact absurd rfl hp
  | cons a p ih =>
    have e : (polyMul p q).length = p.length + q.length - 1 := by
      cases p with
      | nil => simp [polyMul]
      | cons b p => exact ih (by simp)
    simp [polyMul, e]; omega

/-- One pass keeps the length of the remainder. -/
@[simp] theorem length_subtractAtHead {rem divisor : Poly} (c : Byte) (h : divisor.length ≤ rem.length) :
    (subtractAtHead rem divisor c).length = rem.length := by
  simp [subtractAtHead]; omega

/-- One pass by a monic divisor cancels the head, so the strip removes at least one entry (R123, fact 1). -/
theorem length_stripZeros_lt {rem divisor : Poly} (hd : divisor.head? = some 1) (h : divisor.length ≤ rem.length) :
    (stripZeros (subtractAtHead rem divisor (rem.headD 0))).length < rem.length := by
  match divisor, rem, hd, h with
  | d :: ds, r :: rs, hd, h =>
    have hd : d = 1 := by simpa using hd
    have e : subtractAtHead (r :: rs) (d :: ds) r = 0 :: subtractAtHead rs ds r := by
      simp [subtractAtHead, gfAddLists, gfScale, hd]
    have hl := length_subtractAtHead r (Nat.le_of_succ_le_succ h)
    rw [List.headD_cons, e]
    simp only [stripZeros, List.dropWhile_cons, beq_self_eq_true, if_true]
    have := List.Sublist.length_le (List.dropWhile_sublist (· == 0) (l := subtractAtHead rs ds r))
    simp only [List.length_cons]; omega

/-- With at least as many passes as entries the division ends on its own (R123, fact 5). -/
theorem length_polyModLoop_lt {divisor : Poly} (hd : divisor.head? = some 1) :
    ∀ (passes : Nat) (rem : Poly), rem.length ≤ passes → (polyModLoop passes rem divisor).length < divisor.length := by
  have hpos : 0 < divisor.length := by cases divisor <;> simp_all
  intro passes
  induction passes with
  | zero => intro rem h; simp only [polyModLoop]; omega
  | succ passes ih =>
    intro rem h
    simp only [polyModLoop]
    split
    · assumption
    · exact ih _ (by have := length_stripZeros_lt hd (Nat.le_of_not_lt ‹_›); omega)

/-- More passes than entries change nothing. -/
theorem polyModLoop_enough {divisor : Poly} (hd : divisor.head? = some 1) :
    ∀ (passes : Nat) (rem : Poly), rem.length ≤ passes →
      polyModLoop passes rem divisor = polyModLoop rem.length rem divisor := by
  have hpos : 0 < divisor.length := by cases divisor <;> simp_all
  intro passes
  induction passes using Nat.strongRecOn with
  | _ passes ih =>
    intro rem h
    cases passes with
    | zero => rw [Nat.le_zero.1 h]
    | succ passes =>
      cases hn : rem.length with
      | zero => simp only [polyModLoop]; rw [if_pos (by omega)]
      | succ n =>
        simp only [polyModLoop]
        split
        · rfl
        · have hlt := length_stripZeros_lt hd (Nat.le_of_not_lt ‹_›)
          rw [ih passes (by omega) _ (by omega), ih n (by omega) _ (by omega)]

/-- The remainder by a monic divisor is shorter than it (R123, fact 5). -/
theorem length_polyMod_lt (dividend : Poly) {divisor : Poly} (hd : divisor.head? = some 1) :
    (polyMod dividend divisor).length < divisor.length :=
  length_polyModLoop_lt hd _ _ (Nat.le_refl _)

/-! ## Generators and EC codewords -/

/-- `G_d` has `d + 1` entries (R150). -/
theorem length_gen (d : Nat) : (gen d).length = d + 1 := by
  induction d with
  | zero => rfl
  | succ d ih =>
    rw [gen, length_polyMul (by rw [← List.length_pos_iff]; omega) (by simp), ih]; simp

theorem head_polyMul_cons (a : Byte) (p : Poly) (b : Byte) (q : Poly) :
    (polyMul (a :: p) (b :: q)).head? = some (gfMul b a) := by
  simp [polyMul, gfAddLists, gfScale]

/-- `G_d` is monic (R150). -/
theorem head_gen (d : Nat) : (gen d).head? = some 1 := by
  induction d with
  | zero => rfl
  | succ d ih =>
    obtain ⟨g, e⟩ : ∃ g, gen d = 1 :: g := by
      cases h : gen d with
      | nil => simp [h] at ih
      | cons a g => rw [h] at ih; exact ⟨g, by simpa using ih⟩
    rw [gen, e, head_polyMul_cons]; simp

/-- A block has exactly `e` EC codewords (R151). -/
theorem length_rsEncode (data : Poly) (e : Nat) : (rsEncode data e).length = e := by
  have := length_polyMod_lt (data ++ zeros e) (head_gen e)
  rw [length_gen] at this
  simp [rsEncode]; omega

end Sys2Proof.Machine
end

