-- ==== Sys2Proof/Laws/State.lean ====
section
/-! SUPPORT. What each update of the state does to each field: one lemma per field per update, so that no proof unfolds a record update. -/

namespace Sys2Proof.Machine

variable (s : State)

/-! ## setResult -/

@[simp] theorem State.setResult_lenA (v : BitVec 18) : (s.setResult v).lenA = s.lenA := rfl
@[simp] theorem State.setResult_lenB (v : BitVec 18) : (s.setResult v).lenB = s.lenB := rfl
@[simp] theorem State.setResult_lenC (v : BitVec 18) : (s.setResult v).lenC = s.lenC := rfl
@[simp] theorem State.setResult_ver (v : BitVec 18) : (s.setResult v).ver = s.ver := rfl
@[simp] theorem State.setResult_result (v : BitVec 18) : (s.setResult v).result = v := rfl
@[simp] theorem State.setResult_dark (v : BitVec 18) : (s.setResult v).dark = s.dark := rfl
@[simp] theorem State.setResult_penAdj (v : BitVec 18) : (s.setResult v).penAdj = s.penAdj := rfl
@[simp] theorem State.setResult_penBlk (v : BitVec 18) : (s.setResult v).penBlk = s.penBlk := rfl
@[simp] theorem State.setResult_penFind (v : BitVec 18) : (s.setResult v).penFind = s.penFind := rfl
@[simp] theorem State.setResult_penProp (v : BitVec 18) : (s.setResult v).penProp = s.penProp := rfl
@[simp] theorem State.setResult_penTotal (v : BitVec 18) : (s.setResult v).penTotal = s.penTotal := rfl
@[simp] theorem State.setResult_mpen (v : BitVec 18) : (s.setResult v).mpen = s.mpen := rfl
@[simp] theorem State.setResult_best (v : BitVec 18) : (s.setResult v).best = s.best := rfl
@[simp] theorem State.setResult_phase (v : BitVec 18) : (s.setResult v).phase = s.phase := rfl
@[simp] theorem State.setResult_cmdreg (v : BitVec 18) : (s.setResult v).cmdreg = s.cmdreg := rfl
@[simp] theorem State.setResult_done (v : BitVec 18) : (s.setResult v).done = s.done := rfl
@[simp] theorem State.setResult_herr (v : BitVec 18) : (s.setResult v).herr = s.herr := rfl
@[simp] theorem State.setResult_errcode (v : BitVec 18) : (s.setResult v).errcode = s.errcode := rfl
@[simp] theorem State.setResult_errcmd (v : BitVec 18) : (s.setResult v).errcmd = s.errcmd := rfl
@[simp] theorem State.setResult_mem (v : BitVec 18) : (s.setResult v).mem = s.mem := rfl
@[simp] theorem State.setResult_script (v : BitVec 18) : (s.setResult v).script = s.script := rfl
@[simp] theorem State.setResult_busyFor (v : BitVec 18) : (s.setResult v).busyFor = s.busyFor := rfl
@[simp] theorem State.setResult_rdata (v : BitVec 18) : (s.setResult v).rdata = s.rdata := rfl
@[simp] theorem State.setResult_draws (v : BitVec 18) : (s.setResult v).draws = s.draws := rfl

/-! ## setC -/

@[simp] theorem State.setC_lenA (p : List Entry) : (s.setC p).lenA = s.lenA := rfl
@[simp] theorem State.setC_lenB (p : List Entry) : (s.setC p).lenB = s.lenB := rfl
@[simp] theorem State.setC_lenC (p : List Entry) : (s.setC p).lenC = p.length := rfl
@[simp] theorem State.setC_ver (p : List Entry) : (s.setC p).ver = s.ver := rfl
@[simp] theorem State.setC_result (p : List Entry) : (s.setC p).result = s.result := rfl
@[simp] theorem State.setC_dark (p : List Entry) : (s.setC p).dark = s.dark := rfl
@[simp] theorem State.setC_penAdj (p : List Entry) : (s.setC p).penAdj = s.penAdj := rfl
@[simp] theorem State.setC_penBlk (p : List Entry) : (s.setC p).penBlk = s.penBlk := rfl
@[simp] theorem State.setC_penFind (p : List Entry) : (s.setC p).penFind = s.penFind := rfl
@[simp] theorem State.setC_penProp (p : List Entry) : (s.setC p).penProp = s.penProp := rfl
@[simp] theorem State.setC_penTotal (p : List Entry) : (s.setC p).penTotal = s.penTotal := rfl
@[simp] theorem State.setC_mpen (p : List Entry) : (s.setC p).mpen = s.mpen := rfl
@[simp] theorem State.setC_best (p : List Entry) : (s.setC p).best = s.best := rfl
@[simp] theorem State.setC_phase (p : List Entry) : (s.setC p).phase = s.phase := rfl
@[simp] theorem State.setC_cmdreg (p : List Entry) : (s.setC p).cmdreg = s.cmdreg := rfl
@[simp] theorem State.setC_done (p : List Entry) : (s.setC p).done = s.done := rfl
@[simp] theorem State.setC_herr (p : List Entry) : (s.setC p).herr = s.herr := rfl
@[simp] theorem State.setC_errcode (p : List Entry) : (s.setC p).errcode = s.errcode := rfl
@[simp] theorem State.setC_errcmd (p : List Entry) : (s.setC p).errcmd = s.errcmd := rfl
@[simp] theorem State.setC_mem (p : List Entry) : (s.setC p).mem = Memory.replaceC s.mem p := rfl
@[simp] theorem State.setC_script (p : List Entry) : (s.setC p).script = s.script := rfl
@[simp] theorem State.setC_busyFor (p : List Entry) : (s.setC p).busyFor = s.busyFor := rfl
@[simp] theorem State.setC_rdata (p : List Entry) : (s.setC p).rdata = s.rdata := rfl
@[simp] theorem State.setC_draws (p : List Entry) : (s.setC p).draws = s.draws := rfl

/-! ## setMem -/

@[simp] theorem State.setMem_lenA (m : Memory) : (s.setMem m).lenA = s.lenA := rfl
@[simp] theorem State.setMem_lenB (m : Memory) : (s.setMem m).lenB = s.lenB := rfl
@[simp] theorem State.setMem_lenC (m : Memory) : (s.setMem m).lenC = s.lenC := rfl
@[simp] theorem State.setMem_ver (m : Memory) : (s.setMem m).ver = s.ver := rfl
@[simp] theorem State.setMem_result (m : Memory) : (s.setMem m).result = s.result := rfl
@[simp] theorem State.setMem_dark (m : Memory) : (s.setMem m).dark = s.dark := rfl
@[simp] theorem State.setMem_penAdj (m : Memory) : (s.setMem m).penAdj = s.penAdj := rfl
@[simp] theorem State.setMem_penBlk (m : Memory) : (s.setMem m).penBlk = s.penBlk := rfl
@[simp] theorem State.setMem_penFind (m : Memory) : (s.setMem m).penFind = s.penFind := rfl
@[simp] theorem State.setMem_penProp (m : Memory) : (s.setMem m).penProp = s.penProp := rfl
@[simp] theorem State.setMem_penTotal (m : Memory) : (s.setMem m).penTotal = s.penTotal := rfl
@[simp] theorem State.setMem_mpen (m : Memory) : (s.setMem m).mpen = s.mpen := rfl
@[simp] theorem State.setMem_best (m : Memory) : (s.setMem m).best = s.best := rfl
@[simp] theorem State.setMem_phase (m : Memory) : (s.setMem m).phase = s.phase := rfl
@[simp] theorem State.setMem_cmdreg (m : Memory) : (s.setMem m).cmdreg = s.cmdreg := rfl
@[simp] theorem State.setMem_done (m : Memory) : (s.setMem m).done = s.done := rfl
@[simp] theorem State.setMem_herr (m : Memory) : (s.setMem m).herr = s.herr := rfl
@[simp] theorem State.setMem_errcode (m : Memory) : (s.setMem m).errcode = s.errcode := rfl
@[simp] theorem State.setMem_errcmd (m : Memory) : (s.setMem m).errcmd = s.errcmd := rfl
@[simp] theorem State.setMem_mem (m : Memory) : (s.setMem m).mem = m := rfl
@[simp] theorem State.setMem_script (m : Memory) : (s.setMem m).script = s.script := rfl
@[simp] theorem State.setMem_busyFor (m : Memory) : (s.setMem m).busyFor = s.busyFor := rfl
@[simp] theorem State.setMem_rdata (m : Memory) : (s.setMem m).rdata = s.rdata := rfl
@[simp] theorem State.setMem_draws (m : Memory) : (s.setMem m).draws = s.draws := rfl

/-! ## setVer -/

@[simp] theorem State.setVer_lenA (v : Fin 41) : (s.setVer v).lenA = s.lenA := rfl
@[simp] theorem State.setVer_lenB (v : Fin 41) : (s.setVer v).lenB = s.lenB := rfl
@[simp] theorem State.setVer_lenC (v : Fin 41) : (s.setVer v).lenC = s.lenC := rfl
@[simp] theorem State.setVer_ver (v : Fin 41) : (s.setVer v).ver = v := rfl
@[simp] theorem State.setVer_result (v : Fin 41) : (s.setVer v).result = s.result := rfl
@[simp] theorem State.setVer_dark (v : Fin 41) : (s.setVer v).dark = s.dark := rfl
@[simp] theorem State.setVer_penAdj (v : Fin 41) : (s.setVer v).penAdj = s.penAdj := rfl
@[simp] theorem State.setVer_penBlk (v : Fin 41) : (s.setVer v).penBlk = s.penBlk := rfl
@[simp] theorem State.setVer_penFind (v : Fin 41) : (s.setVer v).penFind = s.penFind := rfl
@[simp] theorem State.setVer_penProp (v : Fin 41) : (s.setVer v).penProp = s.penProp := rfl
@[simp] theorem State.setVer_penTotal (v : Fin 41) : (s.setVer v).penTotal = s.penTotal := rfl
@[simp] theorem State.setVer_mpen (v : Fin 41) : (s.setVer v).mpen = s.mpen := rfl
@[simp] theorem State.setVer_best (v : Fin 41) : (s.setVer v).best = s.best := rfl
@[simp] theorem State.setVer_phase (v : Fin 41) : (s.setVer v).phase = s.phase := rfl
@[simp] theorem State.setVer_cmdreg (v : Fin 41) : (s.setVer v).cmdreg = s.cmdreg := rfl
@[simp] theorem State.setVer_done (v : Fin 41) : (s.setVer v).done = s.done := rfl
@[simp] theorem State.setVer_herr (v : Fin 41) : (s.setVer v).herr = s.herr := rfl
@[simp] theorem State.setVer_errcode (v : Fin 41) : (s.setVer v).errcode = s.errcode := rfl
@[simp] theorem State.setVer_errcmd (v : Fin 41) : (s.setVer v).errcmd = s.errcmd := rfl
@[simp] theorem State.setVer_mem (v : Fin 41) : (s.setVer v).mem = s.mem := rfl
@[simp] theorem State.setVer_script (v : Fin 41) : (s.setVer v).script = s.script := rfl
@[simp] theorem State.setVer_busyFor (v : Fin 41) : (s.setVer v).busyFor = s.busyFor := rfl
@[simp] theorem State.setVer_rdata (v : Fin 41) : (s.setVer v).rdata = s.rdata := rfl
@[simp] theorem State.setVer_draws (v : Fin 41) : (s.setVer v).draws = s.draws := rfl

/-! ## setSelection -/

@[simp] theorem State.setSelection_lenA (pens : Vector Word Config.nMask) (best : BitVec 3) : (s.setSelection pens best).lenA = s.lenA := rfl
@[simp] theorem State.setSelection_lenB (pens : Vector Word Config.nMask) (best : BitVec 3) : (s.setSelection pens best).lenB = s.lenB := rfl
@[simp] theorem State.setSelection_lenC (pens : Vector Word Config.nMask) (best : BitVec 3) : (s.setSelection pens best).lenC = s.lenC := rfl
@[simp] theorem State.setSelection_ver (pens : Vector Word Config.nMask) (best : BitVec 3) : (s.setSelection pens best).ver = s.ver := rfl
@[simp] theorem State.setSelection_result (pens : Vector Word Config.nMask) (best : BitVec 3) : (s.setSelection pens best).result = s.result := rfl
@[simp] theorem State.setSelection_dark (pens : Vector Word Config.nMask) (best : BitVec 3) : (s.setSelection pens best).dark = s.dark := rfl
@[simp] theorem State.setSelection_penAdj (pens : Vector Word Config.nMask) (best : BitVec 3) : (s.setSelection pens best).penAdj = s.penAdj := rfl
@[simp] theorem State.setSelection_penBlk (pens : Vector Word Config.nMask) (best : BitVec 3) : (s.setSelection pens best).penBlk = s.penBlk := rfl
@[simp] theorem State.setSelection_penFind (pens : Vector Word Config.nMask) (best : BitVec 3) : (s.setSelection pens best).penFind = s.penFind := rfl
@[simp] theorem State.setSelection_penProp (pens : Vector Word Config.nMask) (best : BitVec 3) : (s.setSelection pens best).penProp = s.penProp := rfl
@[simp] theorem State.setSelection_penTotal (pens : Vector Word Config.nMask) (best : BitVec 3) : (s.setSelection pens best).penTotal = s.penTotal := rfl
@[simp] theorem State.setSelection_mpen (pens : Vector Word Config.nMask) (best : BitVec 3) : (s.setSelection pens best).mpen = pens := rfl
@[simp] theorem State.setSelection_best (pens : Vector Word Config.nMask) (best : BitVec 3) : (s.setSelection pens best).best = best := rfl
@[simp] theorem State.setSelection_phase (pens : Vector Word Config.nMask) (best : BitVec 3) : (s.setSelection pens best).phase = s.phase := rfl
@[simp] theorem State.setSelection_cmdreg (pens : Vector Word Config.nMask) (best : BitVec 3) : (s.setSelection pens best).cmdreg = s.cmdreg := rfl
@[simp] theorem State.setSelection_done (pens : Vector Word Config.nMask) (best : BitVec 3) : (s.setSelection pens best).done = s.done := rfl
@[simp] theorem State.setSelection_herr (pens : Vector Word Config.nMask) (best : BitVec 3) : (s.setSelection pens best).herr = s.herr := rfl
@[simp] theorem State.setSelection_errcode (pens : Vector Word Config.nMask) (best : BitVec 3) : (s.setSelection pens best).errcode = s.errcode := rfl
@[simp] theorem State.setSelection_errcmd (pens : Vector Word Config.nMask) (best : BitVec 3) : (s.setSelection pens best).errcmd = s.errcmd := rfl
@[simp] theorem State.setSelection_mem (pens : Vector Word Config.nMask) (best : BitVec 3) : (s.setSelection pens best).mem = s.mem := rfl
@[simp] theorem State.setSelection_script (pens : Vector Word Config.nMask) (best : BitVec 3) : (s.setSelection pens best).script = s.script := rfl
@[simp] theorem State.setSelection_busyFor (pens : Vector Word Config.nMask) (best : BitVec 3) : (s.setSelection pens best).busyFor = s.busyFor := rfl
@[simp] theorem State.setSelection_rdata (pens : Vector Word Config.nMask) (best : BitVec 3) : (s.setSelection pens best).rdata = s.rdata := rfl
@[simp] theorem State.setSelection_draws (pens : Vector Word Config.nMask) (best : BitVec 3) : (s.setSelection pens best).draws = s.draws := rfl

/-! ## setScore -/

@[simp] theorem State.setScore_lenA (p : Score) : (s.setScore p).lenA = s.lenA := rfl
@[simp] theorem State.setScore_lenB (p : Score) : (s.setScore p).lenB = s.lenB := rfl
@[simp] theorem State.setScore_lenC (p : Score) : (s.setScore p).lenC = s.lenC := rfl
@[simp] theorem State.setScore_ver (p : Score) : (s.setScore p).ver = s.ver := rfl
@[simp] theorem State.setScore_result (p : Score) : (s.setScore p).result = s.result := rfl
@[simp] theorem State.setScore_dark (p : Score) : (s.setScore p).dark = BitVec.ofNat 32 p.dark := rfl
@[simp] theorem State.setScore_penAdj (p : Score) : (s.setScore p).penAdj = BitVec.ofNat 32 p.adj := rfl
@[simp] theorem State.setScore_penBlk (p : Score) : (s.setScore p).penBlk = BitVec.ofNat 32 p.blk := rfl
@[simp] theorem State.setScore_penFind (p : Score) : (s.setScore p).penFind = BitVec.ofNat 32 p.find := rfl
@[simp] theorem State.setScore_penProp (p : Score) : (s.setScore p).penProp = BitVec.ofNat 32 p.prop := rfl
@[simp] theorem State.setScore_penTotal (p : Score) : (s.setScore p).penTotal = BitVec.ofNat 32 p.total := rfl
@[simp] theorem State.setScore_mpen (p : Score) : (s.setScore p).mpen = s.mpen := rfl
@[simp] theorem State.setScore_best (p : Score) : (s.setScore p).best = s.best := rfl
@[simp] theorem State.setScore_phase (p : Score) : (s.setScore p).phase = s.phase := rfl
@[simp] theorem State.setScore_cmdreg (p : Score) : (s.setScore p).cmdreg = s.cmdreg := rfl
@[simp] theorem State.setScore_done (p : Score) : (s.setScore p).done = s.done := rfl
@[simp] theorem State.setScore_herr (p : Score) : (s.setScore p).herr = s.herr := rfl
@[simp] theorem State.setScore_errcode (p : Score) : (s.setScore p).errcode = s.errcode := rfl
@[simp] theorem State.setScore_errcmd (p : Score) : (s.setScore p).errcmd = s.errcmd := rfl
@[simp] theorem State.setScore_mem (p : Score) : (s.setScore p).mem = s.mem := rfl
@[simp] theorem State.setScore_script (p : Score) : (s.setScore p).script = s.script := rfl
@[simp] theorem State.setScore_busyFor (p : Score) : (s.setScore p).busyFor = s.busyFor := rfl
@[simp] theorem State.setScore_rdata (p : Score) : (s.setScore p).rdata = s.rdata := rfl
@[simp] theorem State.setScore_draws (p : Score) : (s.setScore p).draws = s.draws := rfl

/-! ## setHerr -/

@[simp] theorem State.setHerr_lenA : (s.setHerr).lenA = s.lenA := rfl
@[simp] theorem State.setHerr_lenB : (s.setHerr).lenB = s.lenB := rfl
@[simp] theorem State.setHerr_lenC : (s.setHerr).lenC = s.lenC := rfl
@[simp] theorem State.setHerr_ver : (s.setHerr).ver = s.ver := rfl
@[simp] theorem State.setHerr_result : (s.setHerr).result = s.result := rfl
@[simp] theorem State.setHerr_dark : (s.setHerr).dark = s.dark := rfl
@[simp] theorem State.setHerr_penAdj : (s.setHerr).penAdj = s.penAdj := rfl
@[simp] theorem State.setHerr_penBlk : (s.setHerr).penBlk = s.penBlk := rfl
@[simp] theorem State.setHerr_penFind : (s.setHerr).penFind = s.penFind := rfl
@[simp] theorem State.setHerr_penProp : (s.setHerr).penProp = s.penProp := rfl
@[simp] theorem State.setHerr_penTotal : (s.setHerr).penTotal = s.penTotal := rfl
@[simp] theorem State.setHerr_mpen : (s.setHerr).mpen = s.mpen := rfl
@[simp] theorem State.setHerr_best : (s.setHerr).best = s.best := rfl
@[simp] theorem State.setHerr_phase : (s.setHerr).phase = s.phase := rfl
@[simp] theorem State.setHerr_cmdreg : (s.setHerr).cmdreg = s.cmdreg := rfl
@[simp] theorem State.setHerr_done : (s.setHerr).done = s.done := rfl
@[simp] theorem State.setHerr_herr : (s.setHerr).herr = true := rfl
@[simp] theorem State.setHerr_errcode : (s.setHerr).errcode = s.errcode := rfl
@[simp] theorem State.setHerr_errcmd : (s.setHerr).errcmd = s.errcmd := rfl
@[simp] theorem State.setHerr_mem : (s.setHerr).mem = s.mem := rfl
@[simp] theorem State.setHerr_script : (s.setHerr).script = s.script := rfl
@[simp] theorem State.setHerr_busyFor : (s.setHerr).busyFor = s.busyFor := rfl
@[simp] theorem State.setHerr_rdata : (s.setHerr).rdata = s.rdata := rfl
@[simp] theorem State.setHerr_draws : (s.setHerr).draws = s.draws := rfl

/-! ## complete -/

@[simp] theorem State.complete_lenA : (s.complete).lenA = s.lenA := rfl
@[simp] theorem State.complete_lenB : (s.complete).lenB = s.lenB := rfl
@[simp] theorem State.complete_lenC : (s.complete).lenC = s.lenC := rfl
@[simp] theorem State.complete_ver : (s.complete).ver = s.ver := rfl
@[simp] theorem State.complete_result : (s.complete).result = s.result := rfl
@[simp] theorem State.complete_dark : (s.complete).dark = s.dark := rfl
@[simp] theorem State.complete_penAdj : (s.complete).penAdj = s.penAdj := rfl
@[simp] theorem State.complete_penBlk : (s.complete).penBlk = s.penBlk := rfl
@[simp] theorem State.complete_penFind : (s.complete).penFind = s.penFind := rfl
@[simp] theorem State.complete_penProp : (s.complete).penProp = s.penProp := rfl
@[simp] theorem State.complete_penTotal : (s.complete).penTotal = s.penTotal := rfl
@[simp] theorem State.complete_mpen : (s.complete).mpen = s.mpen := rfl
@[simp] theorem State.complete_best : (s.complete).best = s.best := rfl
@[simp] theorem State.complete_phase : (s.complete).phase = .idle := rfl
@[simp] theorem State.complete_cmdreg : (s.complete).cmdreg = s.cmdreg := rfl
@[simp] theorem State.complete_done : (s.complete).done = true := rfl
@[simp] theorem State.complete_herr : (s.complete).herr = s.herr := rfl
@[simp] theorem State.complete_errcode : (s.complete).errcode = s.errcode := rfl
@[simp] theorem State.complete_errcmd : (s.complete).errcmd = s.errcmd := rfl
@[simp] theorem State.complete_mem : (s.complete).mem = s.mem := rfl
@[simp] theorem State.complete_script : (s.complete).script = s.script := rfl
@[simp] theorem State.complete_busyFor : (s.complete).busyFor = s.busyFor := rfl
@[simp] theorem State.complete_rdata : (s.complete).rdata = s.rdata := rfl
@[simp] theorem State.complete_draws : (s.complete).draws = s.draws + 1 := rfl

/-! ## faultEntry -/

@[simp] theorem State.faultEntry_lenA (c : Cause) : (s.faultEntry c).lenA = s.lenA := rfl
@[simp] theorem State.faultEntry_lenB (c : Cause) : (s.faultEntry c).lenB = s.lenB := rfl
@[simp] theorem State.faultEntry_lenC (c : Cause) : (s.faultEntry c).lenC = s.lenC := rfl
@[simp] theorem State.faultEntry_ver (c : Cause) : (s.faultEntry c).ver = s.ver := rfl
@[simp] theorem State.faultEntry_result (c : Cause) : (s.faultEntry c).result = s.result := rfl
@[simp] theorem State.faultEntry_dark (c : Cause) : (s.faultEntry c).dark = s.dark := rfl
@[simp] theorem State.faultEntry_penAdj (c : Cause) : (s.faultEntry c).penAdj = s.penAdj := rfl
@[simp] theorem State.faultEntry_penBlk (c : Cause) : (s.faultEntry c).penBlk = s.penBlk := rfl
@[simp] theorem State.faultEntry_penFind (c : Cause) : (s.faultEntry c).penFind = s.penFind := rfl
@[simp] theorem State.faultEntry_penProp (c : Cause) : (s.faultEntry c).penProp = s.penProp := rfl
@[simp] theorem State.faultEntry_penTotal (c : Cause) : (s.faultEntry c).penTotal = s.penTotal := rfl
@[simp] theorem State.faultEntry_mpen (c : Cause) : (s.faultEntry c).mpen = s.mpen := rfl
@[simp] theorem State.faultEntry_best (c : Cause) : (s.faultEntry c).best = s.best := rfl
@[simp] theorem State.faultEntry_phase (c : Cause) : (s.faultEntry c).phase = .fault := rfl
@[simp] theorem State.faultEntry_cmdreg (c : Cause) : (s.faultEntry c).cmdreg = s.cmdreg := rfl
@[simp] theorem State.faultEntry_done (c : Cause) : (s.faultEntry c).done = s.done := rfl
@[simp] theorem State.faultEntry_herr (c : Cause) : (s.faultEntry c).herr = s.herr := rfl
@[simp] theorem State.faultEntry_errcode (c : Cause) : (s.faultEntry c).errcode = c.code := rfl
@[simp] theorem State.faultEntry_errcmd (c : Cause) : (s.faultEntry c).errcmd = s.cmdreg := rfl
@[simp] theorem State.faultEntry_mem (c : Cause) : (s.faultEntry c).mem = s.mem := rfl
@[simp] theorem State.faultEntry_script (c : Cause) : (s.faultEntry c).script = s.script := rfl
@[simp] theorem State.faultEntry_busyFor (c : Cause) : (s.faultEntry c).busyFor = s.busyFor := rfl
@[simp] theorem State.faultEntry_rdata (c : Cause) : (s.faultEntry c).rdata = s.rdata := rfl
@[simp] theorem State.faultEntry_draws (c : Cause) : (s.faultEntry c).draws = s.draws + 1 := rfl

/-! ## acceptCommand -/

@[simp] theorem State.acceptCommand_lenA (w : Word) : (s.acceptCommand w).lenA = s.lenA := rfl
@[simp] theorem State.acceptCommand_lenB (w : Word) : (s.acceptCommand w).lenB = s.lenB := rfl
@[simp] theorem State.acceptCommand_lenC (w : Word) : (s.acceptCommand w).lenC = s.lenC := rfl
@[simp] theorem State.acceptCommand_ver (w : Word) : (s.acceptCommand w).ver = s.ver := rfl
@[simp] theorem State.acceptCommand_result (w : Word) : (s.acceptCommand w).result = s.result := rfl
@[simp] theorem State.acceptCommand_dark (w : Word) : (s.acceptCommand w).dark = s.dark := rfl
@[simp] theorem State.acceptCommand_penAdj (w : Word) : (s.acceptCommand w).penAdj = s.penAdj := rfl
@[simp] theorem State.acceptCommand_penBlk (w : Word) : (s.acceptCommand w).penBlk = s.penBlk := rfl
@[simp] theorem State.acceptCommand_penFind (w : Word) : (s.acceptCommand w).penFind = s.penFind := rfl
@[simp] theorem State.acceptCommand_penProp (w : Word) : (s.acceptCommand w).penProp = s.penProp := rfl
@[simp] theorem State.acceptCommand_penTotal (w : Word) : (s.acceptCommand w).penTotal = s.penTotal := rfl
@[simp] theorem State.acceptCommand_mpen (w : Word) : (s.acceptCommand w).mpen = s.mpen := rfl
@[simp] theorem State.acceptCommand_best (w : Word) : (s.acceptCommand w).best = s.best := rfl
@[simp] theorem State.acceptCommand_phase (w : Word) : (s.acceptCommand w).phase = .busy := rfl
@[simp] theorem State.acceptCommand_cmdreg (w : Word) : (s.acceptCommand w).cmdreg = w := rfl
@[simp] theorem State.acceptCommand_done (w : Word) : (s.acceptCommand w).done = false := rfl
@[simp] theorem State.acceptCommand_herr (w : Word) : (s.acceptCommand w).herr = s.herr := rfl
@[simp] theorem State.acceptCommand_errcode (w : Word) : (s.acceptCommand w).errcode = s.errcode := rfl
@[simp] theorem State.acceptCommand_errcmd (w : Word) : (s.acceptCommand w).errcmd = s.errcmd := rfl
@[simp] theorem State.acceptCommand_mem (w : Word) : (s.acceptCommand w).mem = s.mem := rfl
@[simp] theorem State.acceptCommand_script (w : Word) : (s.acceptCommand w).script = s.script := rfl
@[simp] theorem State.acceptCommand_busyFor (w : Word) : (s.acceptCommand w).busyFor = Config.busyTurns s.draws := rfl
@[simp] theorem State.acceptCommand_rdata (w : Word) : (s.acceptCommand w).rdata = s.rdata := rfl
@[simp] theorem State.acceptCommand_draws (w : Word) : (s.acceptCommand w).draws = s.draws + 1 := rfl

/-! ## loadCommand -/

@[simp] theorem State.loadCommand_lenA (w : Word) : (s.loadCommand w).lenA = s.lenA := rfl
@[simp] theorem State.loadCommand_lenB (w : Word) : (s.loadCommand w).lenB = s.lenB := rfl
@[simp] theorem State.loadCommand_lenC (w : Word) : (s.loadCommand w).lenC = s.lenC := rfl
@[simp] theorem State.loadCommand_ver (w : Word) : (s.loadCommand w).ver = s.ver := rfl
@[simp] theorem State.loadCommand_result (w : Word) : (s.loadCommand w).result = s.result := rfl
@[simp] theorem State.loadCommand_dark (w : Word) : (s.loadCommand w).dark = s.dark := rfl
@[simp] theorem State.loadCommand_penAdj (w : Word) : (s.loadCommand w).penAdj = s.penAdj := rfl
@[simp] theorem State.loadCommand_penBlk (w : Word) : (s.loadCommand w).penBlk = s.penBlk := rfl
@[simp] theorem State.loadCommand_penFind (w : Word) : (s.loadCommand w).penFind = s.penFind := rfl
@[simp] theorem State.loadCommand_penProp (w : Word) : (s.loadCommand w).penProp = s.penProp := rfl
@[simp] theorem State.loadCommand_penTotal (w : Word) : (s.loadCommand w).penTotal = s.penTotal := rfl
@[simp] theorem State.loadCommand_mpen (w : Word) : (s.loadCommand w).mpen = s.mpen := rfl
@[simp] theorem State.loadCommand_best (w : Word) : (s.loadCommand w).best = s.best := rfl
@[simp] theorem State.loadCommand_phase (w : Word) : (s.loadCommand w).phase = .busy := rfl
@[simp] theorem State.loadCommand_cmdreg (w : Word) : (s.loadCommand w).cmdreg = w := rfl
@[simp] theorem State.loadCommand_done (w : Word) : (s.loadCommand w).done = false := rfl
@[simp] theorem State.loadCommand_herr (w : Word) : (s.loadCommand w).herr = s.herr := rfl
@[simp] theorem State.loadCommand_errcode (w : Word) : (s.loadCommand w).errcode = s.errcode := rfl
@[simp] theorem State.loadCommand_errcmd (w : Word) : (s.loadCommand w).errcmd = s.errcmd := rfl
@[simp] theorem State.loadCommand_mem (w : Word) : (s.loadCommand w).mem = s.mem := rfl
@[simp] theorem State.loadCommand_script (w : Word) : (s.loadCommand w).script = s.script := rfl
@[simp] theorem State.loadCommand_busyFor (w : Word) : (s.loadCommand w).busyFor = 0 := rfl
@[simp] theorem State.loadCommand_rdata (w : Word) : (s.loadCommand w).rdata = s.rdata := rfl
@[simp] theorem State.loadCommand_draws (w : Word) : (s.loadCommand w).draws = s.draws := rfl

/-! ## assertReset -/

@[simp] theorem State.assertReset_lenA : (s.assertReset).lenA = State.reset.lenA := rfl
@[simp] theorem State.assertReset_lenB : (s.assertReset).lenB = State.reset.lenB := rfl
@[simp] theorem State.assertReset_lenC : (s.assertReset).lenC = State.reset.lenC := rfl
@[simp] theorem State.assertReset_ver : (s.assertReset).ver = State.reset.ver := rfl
@[simp] theorem State.assertReset_result : (s.assertReset).result = State.reset.result := rfl
@[simp] theorem State.assertReset_dark : (s.assertReset).dark = State.reset.dark := rfl
@[simp] theorem State.assertReset_penAdj : (s.assertReset).penAdj = State.reset.penAdj := rfl
@[simp] theorem State.assertReset_penBlk : (s.assertReset).penBlk = State.reset.penBlk := rfl
@[simp] theorem State.assertReset_penFind : (s.assertReset).penFind = State.reset.penFind := rfl
@[simp] theorem State.assertReset_penProp : (s.assertReset).penProp = State.reset.penProp := rfl
@[simp] theorem State.assertReset_penTotal : (s.assertReset).penTotal = State.reset.penTotal := rfl
@[simp] theorem State.assertReset_mpen : (s.assertReset).mpen = State.reset.mpen := rfl
@[simp] theorem State.assertReset_best : (s.assertReset).best = State.reset.best := rfl
@[simp] theorem State.assertReset_phase : (s.assertReset).phase = State.reset.phase := rfl
@[simp] theorem State.assertReset_cmdreg : (s.assertReset).cmdreg = State.reset.cmdreg := rfl
@[simp] theorem State.assertReset_done : (s.assertReset).done = State.reset.done := rfl
@[simp] theorem State.assertReset_herr : (s.assertReset).herr = State.reset.herr := rfl
@[simp] theorem State.assertReset_errcode : (s.assertReset).errcode = State.reset.errcode := rfl
@[simp] theorem State.assertReset_errcmd : (s.assertReset).errcmd = State.reset.errcmd := rfl
@[simp] theorem State.assertReset_mem : (s.assertReset).mem = State.reset.mem := rfl
@[simp] theorem State.assertReset_script : (s.assertReset).script = s.script := rfl
@[simp] theorem State.assertReset_busyFor : (s.assertReset).busyFor = State.reset.busyFor := rfl
@[simp] theorem State.assertReset_rdata : (s.assertReset).rdata = s.rdata := rfl
@[simp] theorem State.assertReset_draws : (s.assertReset).draws = s.draws := rfl

/-! ## What the reads of the state see of an update -/

@[simp] theorem State.setResult_side (v : BitVec 18) : (s.setResult v).side = s.side := rfl
@[simp] theorem State.setC_side (p : List Entry) : (s.setC p).side = s.side := rfl
@[simp] theorem State.setMem_side (m : Memory) : (s.setMem m).side = s.side := rfl
@[simp] theorem State.setVer_side (v : Fin 41) : (s.setVer v).side = sideOf v := rfl
@[simp] theorem State.complete_side : s.complete.side = s.side := rfl
@[simp] theorem State.faultEntry_side (c : Cause) : (s.faultEntry c).side = s.side := rfl

end Sys2Proof.Machine
end

