-- ==== Sys2Proof/Laws/Ops.lean ====
section
/-! SUPPORT. The shared ends of a command: what `conclude`, `complete` and `faultEntry` can do, and the turns of a step. -/

namespace Sys2Proof.Machine

@[simp] theorem firstFailing_nil : firstFailing [] = none := rfl

@[simp] theorem firstFailing_cons (b : Bool) (c : Cause) (rest : List (Bool × Cause)) :
    firstFailing ((b, c) :: rest) = if b then some c else firstFailing rest := rfl

/-- A command whose preconditions all hold completes with its state writes (R240). -/
theorem conclude_of_none {checks : List (Bool × Cause)} (effect : State → State) (s : State)
    (h : firstFailing checks = none) : conclude checks effect s = .next (effect s).complete := by
  simp [conclude, h]

/-- A command with a failing precondition takes the fault of the first that fails (R241, R244). -/
theorem conclude_of_some {checks : List (Bool × Cause)} (effect : State → State) (s : State) {c : Cause}
    (h : firstFailing checks = some c) : conclude checks effect s = .next (s.faultEntry c) := by
  simp [conclude, h]

@[simp] theorem conclude_nil (effect : State → State) (s : State) :
    conclude [] effect s = .next (effect s).complete := rfl

/-- Everything `conclude` can answer: a fault entry, or the completed writes. -/
theorem conclude_cases {checks : List (Bool × Cause)} {effect : State → State} {s t : State}
    (h : conclude checks effect s = .next t) :
    (∃ c, firstFailing checks = some c ∧ t = s.faultEntry c)
      ∨ (firstFailing checks = none ∧ t = (effect s).complete) := by
  unfold conclude at h
  split at h
  · exact Or.inl ⟨_, ‹_›, (Host.Outcome.next.inj h).symm⟩
  · exact Or.inr ⟨‹_›, (Host.Outcome.next.inj h).symm⟩

/-- A fault entry is a fault in the terms of the statements. -/
theorem faultsWith_faultEntry (s : State) (c : Cause) : FaultsWith (.next (s.faultEntry c)) s c.code := ⟨_, rfl, rfl⟩

theorem State.blockMoves_iff (s : State) :
    s.blockMoves = true ↔ s.phase = .busy ∧ (s.busyFor = 0 ∨ s.script = []) := by
  simp [State.blockMoves]

/-- A step in a turn of the block runs the command in CMDREG. -/
theorem step_of_blockMoves {s : State} (h : s.blockMoves = true) : step s = runCommandBy exec s := by
  simp [step, stepBy, h]

/-- A step in a turn of the host is its next action. -/
theorem step_of_hostMoves {s : State} (h : s.blockMoves = false) : step s = .next s.hostTurn := by
  simp [step, stepBy, h]

/-- Everything a step can be. -/
theorem step_cases {s t : State} (h : step s = .next t) :
    (s.blockMoves = true ∧ ∃ i, decode s.cmdreg = .command i ∧ exec i s = .next t)
      ∨ (s.blockMoves = true ∧ (∃ why, decode s.cmdreg = .illegal why) ∧ t = s.faultEntry .illegalCmd)
      ∨ (s.blockMoves = false ∧ t = s.hostTurn) := by
  cases hb : s.blockMoves with
  | true =>
    rw [step_of_blockMoves hb] at h
    unfold runCommandBy at h
    split at h
    · exact Or.inl ⟨rfl, _, ‹_›, h⟩
    · exact Or.inr (Or.inl ⟨rfl, ⟨_, ‹_›⟩, (Host.Outcome.next.inj h).symm⟩)
  | false =>
    rw [step_of_hostMoves hb] at h
    exact Or.inr (Or.inr ⟨rfl, (Host.Outcome.next.inj h).symm⟩)

end Sys2Proof.Machine
end

