-- ==== Sys2Proof/Laws/Memory.lean ====
section
/-! SUPPORT. The storage: what a read gives after each operation, and that every operation keeps the canonical form. -/

namespace Sys2Proof.Machine

/-! ## Reads -/

@[simp] theorem Memory.read_nil (loc : Nat) : Memory.read [] loc = Memory.unlisted loc := rfl

theorem Memory.read_cons (c : Host.Cell) (m : Memory) (loc : Nat) :
    Memory.read (c :: m) loc = if c.1 = loc then some c.2 else Memory.read m loc := rfl

theorem Memory.read_of_not_listed {m : Memory} {loc : Nat} (h : ∀ c ∈ m, c.1 ≠ loc) :
    Memory.read m loc = Memory.unlisted loc := by
  induction m with
  | nil => rfl
  | cons c m ih =>
    rw [Memory.read_cons, if_neg (h c (by simp)), ih fun d hd => h d (by simp [hd])]

theorem Memory.read_append (m m' : Memory) (loc : Nat) :
    Memory.read (m ++ m') loc = if ∃ c ∈ m, c.1 = loc then Memory.read m loc else Memory.read m' loc := by
  induction m with
  | nil => simp
  | cons c m ih =>
    by_cases h : c.1 = loc
    · simp [Memory.read_cons, h]
    · simp [Memory.read_cons, h, ih]

/-- A filter that keeps every entry of a location does not change what it reads as. -/
theorem Memory.read_filter_of_keep {p : Host.Cell → Bool} {loc : Nat} (m : Memory)
    (h : ∀ c ∈ m, c.1 = loc → p c = true) : Memory.read (m.filter p) loc = Memory.read m loc := by
  induction m with
  | nil => rfl
  | cons c m ih =>
    have ih := ih fun d hd => h d (by simp [hd])
    by_cases hc : c.1 = loc
    · simp [h c (by simp) hc, Memory.read_cons, hc]
    · by_cases hp : p c = true <;> simp [hp, Memory.read_cons, hc, ih]

theorem Memory.read_filter_of_drop {p : Host.Cell → Bool} {loc : Nat} (m : Memory)
    (h : ∀ c ∈ m, c.1 = loc → p c = false) : Memory.read (m.filter p) loc = Memory.unlisted loc :=
  Memory.read_of_not_listed fun c hc hl => by
    have := List.mem_filter.1 hc
    simp [h c this.1 hl] at this

theorem Memory.read_insert (m : Memory) (loc loc' : Nat) (b : Byte) :
    Memory.read (Memory.insert m loc b) loc' = if loc = loc' then some b else Memory.read m loc' := by
  induction m with
  | nil => simp [Memory.insert, Memory.read_cons]
  | cons c m ih =>
    unfold Memory.insert
    split
    · simp [Memory.read_cons]
    · split
      · rename_i h; subst h
        by_cases h' : c.1 = loc' <;> simp [Memory.read_cons, h']
      · rename_i h
        by_cases h' : c.1 = loc'
        · have : loc ≠ loc' := fun e => h (e.trans h'.symm)
          simp [Memory.read_cons, h', this]
        · simp [Memory.read_cons, h', ih]

/-- A read after a write: the byte written at its location, and what was there before everywhere else. -/
@[simp] theorem Memory.read_write (m : Memory) (loc loc' : Nat) (b : Byte) :
    Memory.read (Memory.write m loc b) loc' = if loc = loc' then some b else Memory.read m loc' := by
  unfold Memory.write
  split
  · rename_i h
    by_cases h' : loc = loc'
    · subst h'
      rw [if_pos rfl, ← h]
      exact Memory.read_filter_of_drop m fun c _ hc => by simp [hc]
    · rw [if_neg h']
      exact Memory.read_filter_of_keep m fun c _ hc => by simp [hc, Ne.symm h']
  · exact Memory.read_insert m loc loc' b

theorem Memory.read_below (m : Memory) (bound loc : Nat) :
    Memory.read (Memory.below m bound) loc = if loc < bound then Memory.read m loc else Memory.unlisted loc := by
  split
  · exact Memory.read_filter_of_keep m fun c _ hc => by simp_all
  · exact Memory.read_filter_of_drop m fun c _ hc => by simp_all

theorem Memory.read_from (m : Memory) (bound loc : Nat) :
    Memory.read (Memory.from m bound) loc = if bound ≤ loc then Memory.read m loc else Memory.unlisted loc := by
  split
  · exact Memory.read_filter_of_keep m fun c _ hc => by simp_all
  · exact Memory.read_filter_of_drop m fun c _ hc => by simp_all

theorem Memory.mem_place {c : Host.Cell} {bytes : List Entry} {base : Nat} (h : c ∈ Memory.place base bytes) :
    base ≤ c.1 ∧ c.1 < base + bytes.length := by
  induction bytes generalizing base with
  | nil => simp [Memory.place] at h
  | cons b bs ih =>
    cases b with
    | none => have := ih h; simp only [List.length_cons]; omega
    | some b =>
      rcases List.mem_cons.1 h with rfl | h
      · simp
      · have := ih h; simp only [List.length_cons]; omega

/-- A placed list reads back entry by entry, an unspecified entry as nothing. -/
theorem Memory.read_place (bytes : List Entry) (base loc : Nat) (hb : base + bytes.length ≤ baseMat) :
    Memory.read (Memory.place base bytes) loc
      = if base ≤ loc ∧ loc < base + bytes.length then bytes[loc - base]?.join else Memory.unlisted loc := by
  induction bytes generalizing base with
  | nil => rw [if_neg (by simp)]; rfl
  | cons b bs ih =>
    simp only [List.length_cons] at hb
    have hu : Memory.unlisted base = none := by unfold Memory.unlisted; rw [if_neg (by omega)]
    have e : Memory.read (Memory.place base (b :: bs)) loc
        = if base = loc then b else Memory.read (Memory.place (base + 1) bs) loc := by
      cases b with
      | none =>
        simp only [Memory.place]
        split
        · rename_i h
          subst h
          rw [ih _ (by omega), if_neg (by omega), hu]
        · rfl
      | some b => rw [Memory.place, Memory.read_cons]
    rw [e, ih _ (by omega)]
    rcases Nat.lt_trichotomy loc base with h | h | h
    · rw [if_neg (by omega), if_neg (by omega), if_neg (by omega)]
    · subst h; simp
    · have : loc - base = (loc - (base + 1)) + 1 := by omega
      simp only [List.length_cons]
      rw [if_neg (by omega), this, List.getElem?_cons_succ]
      by_cases h' : loc < base + 1 + bs.length
      · rw [if_pos (by omega), if_pos (by omega)]
      · rw [if_neg (by omega), if_neg (by omega)]

/-- What buffer C holds after a command that writes it, and that nothing else changes (R27), for a result that fits. -/
theorem Memory.read_replaceC (m : Memory) (p : List Entry) (loc : Nat) (hp : p.length ≤ 256) :
    Memory.read (Memory.replaceC m p) loc
      = if baseC ≤ loc ∧ loc < baseC + 256 then p[loc - baseC]?.join else Memory.read m loc := by
  have hplace : (∃ c ∈ Memory.below m baseC ++ Memory.place baseC p, c.1 = loc) →
      loc < baseC ∨ (baseC ≤ loc ∧ loc < baseC + p.length) := by
    rintro ⟨c, hc, rfl⟩
    rcases List.mem_append.1 hc with hc | hc
    · simp [Memory.below] at hc; exact Or.inl hc.2
    · exact Or.inr (Memory.mem_place hc)
  have hbelow : (∃ c ∈ Memory.below m baseC, c.1 = loc) → loc < baseC := by
    rintro ⟨c, hc, rfl⟩
    simp [Memory.below] at hc
    exact hc.2
  have hu : baseC ≤ loc → loc < baseC + 256 → Memory.unlisted loc = none := by
    intro _ h2; unfold Memory.unlisted; rw [if_neg]; simp only [baseC, baseMat] at *; omega
  have hb : baseC + p.length ≤ baseMat := by simp only [baseC, baseMat]; omega
  unfold Memory.replaceC
  rw [Memory.read_append, Memory.read_append, Memory.read_below, Memory.read_place p baseC loc hb, Memory.read_from]
  rw [show Config.polyCap = 256 from rfl]
  by_cases h1 : loc < baseC
  · rw [if_neg (show ¬ (baseC ≤ loc ∧ loc < baseC + 256) by omega)]
    by_cases hl : ∃ c ∈ m, c.1 = loc
    · obtain ⟨c, hc, rfl⟩ := hl
      have hcb : c ∈ Memory.below m baseC := by simp [Memory.below, hc, h1]
      rw [if_pos ⟨c, by simp [hcb], rfl⟩, if_pos ⟨c, hcb, rfl⟩, if_pos h1]
    · have : Memory.read m loc = Memory.unlisted loc :=
        Memory.read_of_not_listed fun c hc he => hl ⟨c, hc, he⟩
      rw [if_pos h1, if_neg (show ¬ (baseC ≤ loc ∧ loc < baseC + p.length) by omega),
        if_neg (show ¬ baseC + 256 ≤ loc by omega), this]
      simp
  · rw [if_neg (fun h => h1 (hbelow h))]
    by_cases h2 : loc < baseC + 256
    · rw [if_pos (show baseC ≤ loc ∧ loc < baseC + 256 by omega), if_neg (show ¬ baseC + 256 ≤ loc by omega)]
      have hr := Memory.read_place p baseC loc hb
      by_cases h3 : loc < baseC + p.length
      · rw [if_pos (by omega)] at hr
        rw [if_pos (show baseC ≤ loc ∧ loc < baseC + p.length by omega)]
        split
        · rfl
        · rename_i hne
          rw [← hr, Memory.read_of_not_listed fun c hc he => hne ⟨c, by simp [hc], he⟩]
      · have hmem : ¬ ∃ c ∈ Memory.below m baseC ++ Memory.place baseC p, c.1 = loc := by
          intro h; have := hplace h; omega
        rw [if_neg hmem, hu (by omega) h2, List.getElem?_eq_none (by omega)]
        rfl
    · have hmem : ¬ ∃ c ∈ Memory.below m baseC ++ Memory.place baseC p, c.1 = loc := by
        intro h; have := hplace h; omega
      rw [if_neg hmem, if_neg (show ¬ (baseC ≤ loc ∧ loc < baseC + 256) by omega), if_pos (by omega)]

/-- Entry `k` of C after a command that writes it. -/
theorem Memory.read_replaceC_entry (m : Memory) {p : List Entry} (hp : p.length ≤ 256) {k : Nat} (hk : k < p.length) :
    Memory.read (Memory.replaceC m p) (baseC + k) = p[k]?.join := by
  rw [Memory.read_replaceC m p _ hp, if_pos ⟨Nat.le_add_right _ _, by omega⟩, Nat.add_sub_cancel_left]

/-- After `clearMatrix` every matrix location reads as an unset cell, every other location as before (R178). -/
theorem Memory.read_clearMatrix (m : Memory) (loc : Nat) :
    Memory.read (Memory.clearMatrix m) loc = if baseMat ≤ loc then some 0 else Memory.read m loc := by
  unfold Memory.clearMatrix
  rw [Memory.read_below]
  by_cases h : loc < baseMat
  · rw [if_pos h, if_neg (by omega)]
  · rw [if_neg h, if_pos (by omega), Memory.unlisted, if_pos (by omega)]

/-- The byte of a location with a mask applied (R171). -/
def maskedByte (n : Nat) (i : BitVec 3) (loc : Nat) (b : Byte) : Byte :=
  if maskToggles n i (loc, b) then b ^^^ 1 else b

/-- A read after a mask is applied: the `.val` bit of each toggled cell inverted, nothing else (R171). -/
theorem Memory.read_applyMask (n : Nat) (i : BitVec 3) (m : Memory) (loc : Nat) :
    Memory.read (applyMask n i m) loc = (Memory.read m loc).map (maskedByte n i loc) := by
  induction m with
  | nil =>
    simp only [applyMask, List.map_nil, Memory.read_nil, Memory.unlisted]
    split
    · simp [maskedByte, maskToggles, Cell.ofByte]
    · rfl
  | cons c m ih =>
    have hfst : (if maskToggles n i c then (c.1, c.2 ^^^ 1) else c).1 = c.1 := by split <;> rfl
    simp only [applyMask, List.map_cons, Memory.read_cons, hfst] at ih ⊢
    by_cases h : c.1 = loc
    · subst h; simp only [if_pos, Option.map_some, maskedByte]; split <;> rfl
    · rw [if_neg h, if_neg h, ih]

/-! ## The canonical form -/

theorem Memory.wf_nil : Memory.wf [] := ⟨List.Pairwise.nil, by simp⟩

theorem Memory.wf_filter {m : Memory} (p : Host.Cell → Bool) (h : Memory.wf m) : Memory.wf (m.filter p) :=
  ⟨h.1.filter p, fun c hc => h.2 c (List.mem_filter.1 hc).1⟩

theorem Memory.mem_insert {m : Memory} {loc : Nat} {b : Byte} {c : Host.Cell}
    (h : c ∈ Memory.insert m loc b) : c = (loc, b) ∨ c ∈ m := by
  induction m with
  | nil => simp [Memory.insert] at h; exact Or.inl h
  | cons d m ih =>
    unfold Memory.insert at h
    split at h
    · simpa using h
    · split at h
      · rcases List.mem_cons.1 h with h | h
        · exact Or.inl h
        · exact Or.inr (by simp [h])
      · rcases List.mem_cons.1 h with h | h
        · exact Or.inr (by simp [h])
        · rcases ih h with h | h
          · exact Or.inl h
          · exact Or.inr (by simp [h])

theorem Memory.wf_insert {m : Memory} {loc : Nat} {b : Byte} (h : Memory.wf m)
    (hb : Memory.unlisted loc ≠ some b) : Memory.wf (Memory.insert m loc b) := by
  refine ⟨?_, fun c hc => ?_⟩
  · obtain ⟨hs, -⟩ := h
    induction m with
    | nil => simp [Memory.insert]
    | cons d m ih =>
      obtain ⟨hd, hm⟩ := List.pairwise_cons.1 hs
      unfold Memory.insert
      split
      · rename_i hlt
        refine List.pairwise_cons.2 ⟨fun e he => ?_, hs⟩
        rcases List.mem_cons.1 he with rfl | he
        · exact hlt
        · exact Nat.lt_trans hlt (hd e he)
      · split
        · rename_i _ heq
          exact List.pairwise_cons.2 ⟨fun e he => by simpa [heq] using hd e he, hm⟩
        · refine List.pairwise_cons.2 ⟨fun e he => ?_, ih hm⟩
          rcases Memory.mem_insert he with rfl | he
          · simp only; omega
          · exact hd e he
  · rcases Memory.mem_insert hc with rfl | hc
    · exact hb
    · exact h.2 c hc

/-- A write keeps the canonical form. -/
theorem Memory.wf_write {m : Memory} (loc : Nat) (b : Byte) (h : Memory.wf m) : Memory.wf (Memory.write m loc b) := by
  unfold Memory.write
  split
  · exact Memory.wf_filter _ h
  · exact Memory.wf_insert h ‹_›

theorem Memory.wf_place {base : Nat} {bytes : List Entry} (h : base + bytes.length ≤ baseMat) :
    Memory.wf (Memory.place base bytes) := by
  refine ⟨?_, fun c hc => ?_⟩
  · induction bytes generalizing base with
    | nil => simp [Memory.place]
    | cons b bs ih =>
      have ih := ih (base := base + 1) (by simp only [List.length_cons] at h; omega)
      cases b with
      | none => exact ih
      | some b =>
        refine List.pairwise_cons.2 ⟨fun c hc => ?_, ih⟩
        have := Memory.mem_place hc
        simp only; omega
  · have := Memory.mem_place hc
    unfold Memory.unlisted; rw [if_neg (by omega)]; simp

/-- Replacing the content of buffer C keeps the canonical form, for a result that fits. -/
theorem Memory.wf_replaceC {m : Memory} {p : List Entry} (h : Memory.wf m) (hp : p.length ≤ 256) :
    Memory.wf (Memory.replaceC m p) := by
  have hb : Memory.wf (Memory.below m baseC) := Memory.wf_filter _ h
  have hf : Memory.wf (Memory.from m (baseC + Config.polyCap)) := Memory.wf_filter _ h
  have hpl : Memory.wf (Memory.place baseC p) := Memory.wf_place (by simp [baseC, baseMat]; omega)
  unfold Memory.replaceC
  refine ⟨?_, fun c hc => ?_⟩
  · refine List.pairwise_append.2 ⟨List.pairwise_append.2 ⟨hb.1, hpl.1, ?_⟩, hf.1, ?_⟩
    · intro c hc d hd
      have := Memory.mem_place hd
      simp [Memory.below] at hc
      omega
    · intro c hc d hd
      have hd := (List.mem_filter.1 hd).2
      rw [show Config.polyCap = 256 from rfl, decide_eq_true_eq] at hd
      rcases List.mem_append.1 hc with hc | hc
      · simp [Memory.below] at hc; omega
      · have := Memory.mem_place hc; omega
  · rcases List.mem_append.1 hc with hc | hc
    · rcases List.mem_append.1 hc with hc | hc
      · exact hb.2 c hc
      · exact hpl.2 c hc
    · exact hf.2 c hc

theorem Memory.wf_clearMatrix {m : Memory} (h : Memory.wf m) : Memory.wf (Memory.clearMatrix m) :=
  Memory.wf_filter _ h

/-- Applying a mask keeps the canonical form: a toggled cell is a codeword cell, so it never becomes 0. -/
theorem Memory.wf_applyMask {m : Memory} (n : Nat) (i : BitVec 3) (h : Memory.wf m) :
    Memory.wf (applyMask n i m) := by
  have hfst : ∀ c : Host.Cell, (if maskToggles n i c then (c.1, c.2 ^^^ 1) else c).1 = c.1 := by
    intro c; split <;> rfl
  refine ⟨?_, fun c hc => ?_⟩
  · refine List.pairwise_map.2 (h.1.imp fun {a b} hab => ?_)
    rw [hfst, hfst]; exact hab
  · obtain ⟨d, hd, rfl⟩ := List.mem_map.1 hc
    split
    · rename_i ht
      have hcw : d.2.getLsbD 1 = true := by
        simp only [maskToggles, Cell.ofByte, Bool.and_eq_true] at ht; exact ht.1.2
      unfold Memory.unlisted
      split
      · intro he
        have := Option.some.inj he
        have h1 : (d.2 ^^^ 1).getLsbD 1 = false := by simp only at this; rw [← this]; rfl
        rw [BitVec.getLsbD_xor, hcw] at h1
        exact absurd h1 (by decide)
      · simp
    · exact h.2 d hd

theorem Memory.wf_writeCell {m : Memory} (x y : Nat) (c : Cell) (h : Memory.wf m) : Memory.wf (writeCell m x y c) :=
  Memory.wf_write _ _ h

theorem Memory.wf_placeBits {w : Nat} {m : Memory} (c : BitVec w) (cells : List BitCell) (h : Memory.wf m) :
    Memory.wf (placeBits c cells m) := by
  unfold placeBits
  induction cells generalizing m with
  | nil => exact h
  | cons p ps ih => exact ih (Memory.wf_writeCell _ _ _ h)

theorem Memory.wf_placeFormat {m : Memory} (n : Nat) (c : BitVec 15) (dm : Bool) (h : Memory.wf m) :
    Memory.wf (placeFormat n c dm m) :=
  Memory.wf_writeCell _ _ _ (Memory.wf_placeBits _ _ h)

theorem Memory.wf_placeVersion {m : Memory} (n : Nat) (c : BitVec 18) (h : Memory.wf m) :
    Memory.wf (placeVersion n c m) :=
  Memory.wf_placeBits _ _ h

end Sys2Proof.Machine
end

