-- ==== Sys2Proof/Laws/Symbol.lean ====
section
/-! SUPPORT. The matrix by coordinates: what a cell is after each write, and that the symbol, its colours and the unset-cell test are what
the coordinates say. -/

namespace Sys2Proof.Machine

@[simp] theorem matX_matLoc (x y : Nat) (h : x < 256) : matX (matLoc x y) = x := by
  simp only [matX, matLoc, baseMat]; omega

@[simp] theorem matY_matLoc (x y : Nat) (h : x < 256) : matY (matLoc x y) = y := by
  simp only [matY, matLoc, baseMat]; omega

theorem matLoc_inj {x y x' y' : Nat} (h : x < 256) (h' : x' < 256) (e : matLoc x y = matLoc x' y') :
    x = x' ∧ y = y' := by
  simp only [matLoc, baseMat] at e; omega

@[simp] theorem Cell.ofByte_toByte (c : Cell) : Cell.ofByte c.toByte = c := by
  rcases c with ⟨a, b, c⟩; cases a <;> cases b <;> cases c <;> rfl

theorem side_le (v : Fin 41) : sideOf v ≤ 177 := by
  unfold sideOf; split <;> omega

theorem Memory.unlisted_matLoc (x y : Nat) : Memory.unlisted (matLoc x y) = some 0 := by
  unfold Memory.unlisted; rw [if_pos (by simp [matLoc, baseMat]; omega)]

/-- A cell after a cell write: the cell written at its coordinates, what was there before at every other. -/
theorem cellAt_writeCell (m : Memory) {x y x' y' : Nat} (c : Cell) (hx : x < 256) (hx' : x' < 256) :
    cellAt (writeCell m x y c) x' y' = if x = x' ∧ y = y' then c else cellAt m x' y' := by
  unfold cellAt writeCell
  rw [Memory.read_write]
  by_cases h : x = x' ∧ y = y'
  · rw [if_pos (by rw [h.1, h.2]), if_pos h]; simp
  · rw [if_neg (fun e => h (matLoc_inj hx hx' e)), if_neg h]

theorem Memory.read_matLoc_isSome (m : Memory) (x y : Nat) : (Memory.read m (matLoc x y)).isSome = true := by
  induction m with
  | nil => simp [Memory.unlisted_matLoc]
  | cons c m ih => rw [Memory.read_cons]; split <;> simp [ih]

/-- A cell of the symbol after a mask is applied: its colour inverted where the mask toggles it (R171). -/
theorem cellAt_applyMask (m : Memory) {n x y : Nat} (i : BitVec 3) (hn : n ≤ 256) (hx : x < n) (hy : y < n) :
    cellAt (applyMask n i m) x y
      = { cellAt m x y with value := (cellAt m x y).value ^^ ((cellAt m x y).isCodeword && maskPred i x y) } := by
  obtain ⟨b, hb⟩ := Option.isSome_iff_exists.1 (Memory.read_matLoc_isSome m x y)
  have hm : baseMat ≤ matLoc x y := by simp [matLoc, baseMat]; omega
  unfold cellAt
  rw [Memory.read_applyMask, hb, Option.map_some, Option.getD_some, Option.getD_some]
  have ht : maskToggles n i (matLoc x y, b) = ((Cell.ofByte b).isCodeword && maskPred i x y) := by
    simp [maskToggles, matX_matLoc x y (by omega), matY_matLoc x y (by omega), hm, hx, hy]
  unfold maskedByte
  rw [ht]
  cases (Cell.ofByte b).isCodeword && maskPred i x y
  · simp
  · simp [Cell.ofByte]

/-- A cell of a row cut out of the storage is the cell of the storage. -/
theorem symbolRow_eq (m : Memory) (n y : Nat) (hn : n ≤ 256) :
    symbolRow m n y = (List.range n).map fun x => cellAt m x y := by
  unfold symbolRow
  refine List.map_congr_left fun x hx => ?_
  have hx := List.mem_range.1 hx
  unfold cellAt
  rw [Memory.read_below, if_pos (by simp [matLoc]; omega), Memory.read_from, if_pos (by simp [matLoc])]

/-- The colours of the symbol are the colours of its cells. -/
theorem colours_eq_grid (m : Memory) (n : Nat) (hn : n ≤ 256) :
    colours m n = grid n fun x y => (cellAt m x y).value := by
  unfold colours symbol grid
  rw [List.map_map]
  refine List.map_congr_left fun y _ => ?_
  simp [symbolRow_eq m n y hn]

/-- Some cell of the symbol is unset exactly when not every cell is set. -/
theorem hasUnsetCell_eq (s : State) : s.hasUnsetCell = !decide s.AllSet := by
  have hn : s.side ≤ 256 := Nat.le_trans (side_le s.ver) (by omega)
  rw [Bool.eq_iff_iff]
  unfold State.hasUnsetCell symbol
  simp only [List.any_eq_true, List.mem_map, List.mem_range, Bool.not_eq_true', decide_eq_false_iff_not,
    exists_exists_and_eq_and, symbolRow_eq _ _ _ hn, State.AllSet]
  push Not
  constructor
  · rintro ⟨y, hy, x, hx, h⟩; exact ⟨x, hx, y, hy, by simp [h]⟩
  · rintro ⟨x, hx, y, hy, h⟩; exact ⟨y, hy, x, hx, by simpa using h⟩

end Sys2Proof.Machine
end

