-- ==== Sys2Proof/Laws/HostPort.lean ====
section
/-! SUPPORT. The host's side of a step: what each action does, what each read finds, and which place each location is (20_memory.md R60 to
R69). -/

namespace Sys2Proof.Machine

variable (s : State)

/-! ## Turns -/

theorem hostTurn_nil (h : s.script = []) : s.hostTurn = s := by simp [State.hostTurn, h]

theorem hostTurn_read {loc : Loc} {rest : List HostOp} (h : s.script = .read loc :: rest) :
    s.hostTurn = State.hostRead { s with script := rest, busyFor := s.busyFor - 1 } loc.toNat := by
  simp [State.hostTurn, h]

theorem hostTurn_write {loc : Loc} {v : Word} {rest : List HostOp} (h : s.script = .write loc v :: rest) :
    s.hostTurn = State.hostWrite { s with script := rest, busyFor := s.busyFor - 1 } loc.toNat v := by
  simp [State.hostTurn, h]

theorem hostTurn_reset {rest : List HostOp} (h : s.script = .reset :: rest) :
    s.hostTurn = { State.reset with script := rest, rdata := s.rdata, draws := s.draws } := by
  simp [State.hostTurn, h, State.assertReset]

theorem hostTurn_poll {rest : List HostOp} (h : s.script = .poll :: rest) :
    s.hostTurn = State.hostRead { s with script := if s.busyFlag then .poll :: rest else rest, busyFor := s.busyFor - 1 } 1 := by
  simp [State.hostTurn, h, statusLoc]

/-! ## Reads and writes -/

/-- Everything a host read can do (R67, R68): only `rdata`, the number of the next free value and, of an illegal one, `HERR` change. -/
theorem hostRead_eq (loc : Nat) :
    s.hostRead loc = { s with rdata := (s.hostRead loc).rdata, draws := (s.hostRead loc).draws
                              herr := s.herr || decide (s.find loc = .illegal) } := by
  unfold State.hostRead
  cases h : s.find loc <;> simp [State.setHerr]

/-- In phases BUSY and FAULT every write is dropped and sets `HERR` (R69). -/
theorem hostWrite_of_not_idle (loc : Nat) (v : Word) (h : s.phase ≠ .idle) : s.hostWrite loc v = s.setHerr := if_neg h

/-- In phase IDLE a write acts on the place of its location. -/
theorem hostWrite_of_idle (loc : Nat) (v : Word) (h : s.phase = .idle) : s.hostWrite loc v = s.writePlace v (placeAt loc) := if_pos h

/-- A read of `STATUS` is legal in every phase (R33, R69). -/
theorem find_status : s.find 1 = .word s.statusWord := by
  have h : placeAt 1 = .reg .status := rfl
  unfold State.find
  rw [h, if_neg (by simp)]; rfl

/-- Outside phase BUSY a read finds what its place holds. -/
theorem find_of_not_busy (loc : Nat) (h : s.phase ≠ .busy) : s.find loc = s.readPlace (placeAt loc) := by
  simp [State.find, h]

/-- Everything a write to a place can do outside the acceptance of a command: set `HERR`, or store a length or a byte. -/
theorem writePlace_cases (v : Word) (p : Place) :
    (p = .reg .cmd ∧ s.writePlace v p = s.acceptCommand v)
      ∨ s.writePlace v p = s.setHerr
      ∨ (v.toNat ≤ 256 ∧ (s.writePlace v p = { s with lenA := v.toNat } ∨ s.writePlace v p = { s with lenB := v.toNat }))
      ∨ (∃ i, (p = .bufA i ∧ s.writePlace v p = { s with mem := Memory.write s.mem (baseA + i) (v.extractLsb' 0 8) })
          ∨ (p = .bufB i ∧ s.writePlace v p = { s with mem := Memory.write s.mem (baseB + i) (v.extractLsb' 0 8) }))
      ∨ ∃ x y, p = .cell x y ∧ s.validCell x y = true
          ∧ s.writePlace v p = { s with mem := writeCell s.mem x y (Cell.ofByte (v.extractLsb' 0 8)) } := by
  cases p with
  | reg r =>
    cases r
    case cmd => exact Or.inl ⟨rfl, rfl⟩
    case lenA =>
      by_cases h : v.toNat ≤ 256
      · exact Or.inr (Or.inr (Or.inl ⟨h, Or.inl (if_pos h)⟩))
      · exact Or.inr (Or.inl (if_neg h))
    case lenB =>
      by_cases h : v.toNat ≤ 256
      · exact Or.inr (Or.inr (Or.inl ⟨h, Or.inr (if_pos h)⟩))
      · exact Or.inr (Or.inl (if_neg h))
    all_goals exact Or.inr (Or.inl rfl)
  | bufA i => exact Or.inr (Or.inr (Or.inr (Or.inl ⟨i, Or.inl ⟨rfl, rfl⟩⟩)))
  | bufB i => exact Or.inr (Or.inr (Or.inr (Or.inl ⟨i, Or.inr ⟨rfl, rfl⟩⟩)))
  | bufC i => exact Or.inr (Or.inl rfl)
  | unmapped => exact Or.inr (Or.inl rfl)
  | cell x y =>
    by_cases hv : s.validCell x y = true
    · exact Or.inr (Or.inr (Or.inr (Or.inr ⟨x, y, rfl, hv, if_pos hv⟩)))
    · exact Or.inr (Or.inl (if_neg hv))

/-! ## The location map -/

theorem placeAt_bufA {i : Nat} (h : i < 256) : placeAt (baseA + i) = .bufA i := by
  have ha : baseA = 0x1000 := rfl
  have hb : baseB = 0x1100 := rfl
  have hc : baseC = 0x1200 := rfl
  have hm : baseMat = 0x10000 := rfl
  have hp : Config.polyCap = 256 := rfl
  unfold placeAt
  rw [if_neg (by omega), if_neg (by omega), if_pos (by omega), Nat.add_sub_cancel_left]

theorem placeAt_bufB {i : Nat} (h : i < 256) : placeAt (baseB + i) = .bufB i := by
  have ha : baseA = 0x1000 := rfl
  have hb : baseB = 0x1100 := rfl
  have hc : baseC = 0x1200 := rfl
  have hm : baseMat = 0x10000 := rfl
  have hp : Config.polyCap = 256 := rfl
  unfold placeAt
  rw [if_neg (by omega), if_neg (by omega), if_neg (by omega), if_pos (by omega), Nat.add_sub_cancel_left]

theorem placeAt_bufC {i : Nat} (h : i < 256) : placeAt (baseC + i) = .bufC i := by
  have ha : baseA = 0x1000 := rfl
  have hb : baseB = 0x1100 := rfl
  have hc : baseC = 0x1200 := rfl
  have hm : baseMat = 0x10000 := rfl
  have hp : Config.polyCap = 256 := rfl
  unfold placeAt
  rw [if_neg (by omega), if_neg (by omega), if_neg (by omega), if_neg (by omega), if_pos (by omega), Nat.add_sub_cancel_left]

theorem placeAt_cell {x y : Nat} (h : x < 256) : placeAt (matLoc x y) = .cell x y := by
  have hx := matX_matLoc x y h
  have hy := matY_matLoc x y h
  have hl : 0x10000 ≤ matLoc x y := by simp [matLoc, baseMat]; omega
  have ha : baseA = 0x1000 := rfl
  have hb : baseB = 0x1100 := rfl
  have hc : baseC = 0x1200 := rfl
  have hm : baseMat = 0x10000 := rfl
  have hp : Config.polyCap = 256 := rfl
  unfold placeAt
  rw [if_neg (by omega), if_neg (by omega), if_neg (by omega), if_neg (by omega), if_neg (by omega), if_neg (by omega), hx, hy]

theorem placeAt_unmapped {loc : Nat} (h : (0x18 ≤ loc ∧ loc < 0x1000) ∨ (0x1300 ≤ loc ∧ loc < 0x10000)) :
    placeAt loc = .unmapped := by
  have ha : baseA = 0x1000 := rfl
  have hb : baseB = 0x1100 := rfl
  have hc : baseC = 0x1200 := rfl
  have hm : baseMat = 0x10000 := rfl
  have hp : Config.polyCap = 256 := rfl
  unfold placeAt
  rw [if_neg (by omega)]
  split
  · rfl
  · rw [if_neg (by omega), if_neg (by omega), if_neg (by omega), if_pos (by omega)]

theorem placeAt_reg {loc : Nat} (h : loc < 0x18) : placeAt loc = .reg (regAt loc) := by simp [placeAt, h]

theorem validCell_iff (x y : Nat) : s.validCell x y = true ↔ s.ver.val ≠ 0 ∧ x < s.side ∧ y < s.side := by
  simp [State.validCell, and_assoc]

end Sys2Proof.Machine
end

