-- ==== Sys2Proof/Laws/OpenPoly.lean ====
section
/-! SUPPORT. The polynomial functions on lists with unspecified entries: on lists without one they are the functions of Field.lean, and in
general an entry of their result has a value only if it is that entry of the result for every filling of the operands. -/

namespace Sys2Proof.Machine

/-! ## Fillings -/

theorem fills_map_some (a : Poly) : Fills (a.map some) a := by
  induction a with
  | nil => exact .nil
  | cons b a ih => exact .cons (Or.inr rfl) ih

theorem fills_append {p p' : List Entry} {a a' : Poly} (h : Fills p a) (h' : Fills p' a') : Fills (p ++ p') (a ++ a') :=
  List.rel_append h h'

theorem fills_openZeros (n : Nat) : Fills (openZeros n) (zeros n) := by
  unfold openZeros zeros; rw [← List.map_replicate]; exact fills_map_some _

theorem fills_drop {p : List Entry} {a : Poly} (h : Fills p a) (n : Nat) : Fills (p.drop n) (a.drop n) := List.forall₂_drop n h

/-- An entry that has a value has it in every filling. -/
theorem value_of_fills {p : List Entry} {a : Poly} (h : Fills p a) {k : Nat} {v : Byte} (hk : p[k]? = some (some v)) : a[k]? = some v := by
  induction h generalizing k with
  | nil => simp at hk
  | cons hd _ ih =>
    cases k with
    | zero =>
      rw [List.getElem?_cons_zero] at hk ⊢
      have hk := Option.some.inj hk
      subst hk
      rcases hd with hd | hd
      · cases hd
      · rw [Option.some.inj hd]
    | succ k => exact ih (by simpa using hk)

/-! ## Addition and multiplication -/

@[simp] theorem openAdd_some (a b : Byte) : openAdd (some a) (some b) = some (a ^^^ b) := rfl

@[simp] theorem openMul_some (a b : Byte) : openMul (some a) (some b) = some (gfMul a b) := rfl

theorem openAdd_sound {x y : Entry} {a b : Byte} (hx : x = none ∨ x = some a) (hy : y = none ∨ y = some b) :
    openAdd x y = none ∨ openAdd x y = some (a ^^^ b) := by
  rcases hx with rfl | rfl <;> rcases hy with rfl | rfl <;> simp [openAdd]

theorem openMul_sound {x y : Entry} {a b : Byte} (hx : x = none ∨ x = some a) (hy : y = none ∨ y = some b) :
    openMul x y = none ∨ openMul x y = some (gfMul a b) := by
  rcases hx with rfl | rfl <;> rcases hy with rfl | rfl
  · exact Or.inl rfl
  · by_cases h : b = 0#8 <;> simp [openMul, h]
  · by_cases h : a = 0#8 <;> simp [openMul, h]
  · exact Or.inr rfl

theorem fills_zipWith_openAdd {p q : List Entry} {a b : Poly} (hp : Fills p a) (hq : Fills q b) :
    Fills (List.zipWith openAdd p q) (gfAddLists a b) := by
  induction hp generalizing q b with
  | nil => cases hq <;> exact .nil
  | cons hx _ ih =>
    cases hq with
    | nil => exact .nil
    | cons hy hq => exact .cons (openAdd_sound hx hy) (ih hq)

theorem fills_map_openMul {q : List Entry} {b : Poly} {x : Entry} {a : Byte} (hx : x = none ∨ x = some a) (hq : Fills q b) :
    Fills (q.map fun c => openMul c x) (gfScale a b) := by
  induction hq with
  | nil => exact .nil
  | cons hy _ ih => exact .cons (openMul_sound hy hx) ih

/-! ## The product -/

/-- An entry of the product that has a value has it whatever the unspecified entries are (R122). -/
theorem fills_openPolyMul {p q : List Entry} {a b : Poly} (hp : Fills p a) (hq : Fills q b) :
    Fills (openPolyMul p q) (polyMul a b) := by
  induction hp with
  | nil => rw [openPolyMul, polyMul, hq.length_eq]; exact fills_openZeros _
  | cons hx hp ih =>
    rw [openPolyMul, polyMul, hp.length_eq]
    exact fills_zipWith_openAdd (fills_append (fills_map_openMul hx hq) (fills_openZeros _)) (.cons (Or.inr rfl) ih)

/-- On operands all written the product is `polyMul` (R122). -/
theorem openPolyMul_map_some (a b : Poly) : openPolyMul (a.map some) (b.map some) = (polyMul a b).map some := by
  induction a with
  | nil => simp [openPolyMul, polyMul, openZeros, zeros]
  | cons x a ih =>
    have e : (List.map some b).map (fun c => openMul c (some x)) = (gfScale x b).map some := by simp [gfScale, Function.comp_def]
    have z : openZeros (List.map some a).length = (zeros a.length).map some := by simp [openZeros, zeros]
    rw [List.map_cons, openPolyMul, ih, e, z, ← List.map_append, ← List.map_cons, List.zipWith_map, polyMul, gfAddLists, List.map_zipWith]
    rfl

theorem length_openPolyMul {p q : List Entry} (hp : p ≠ []) (hq : q ≠ []) :
    (openPolyMul p q).length = p.length + q.length - 1 := by
  have hq := List.length_pos_iff.2 hq
  induction p with
  | nil => exact absurd rfl hp
  | cons x p ih =>
    have e : (openPolyMul p q).length = p.length + q.length - 1 := by
      cases p with
      | nil => simp [openPolyMul, openZeros]
      | cons y p => exact ih (by simp)
    simp [openPolyMul, openZeros, e]; omega

/-! ## Long division without stripping -/

/-- `addScaled` on bytes. -/
def addScaledBytes (c : Byte) : Poly → Poly → Poly
  | r :: rem, d :: tail => (r ^^^ gfMul d c) :: addScaledBytes c rem tail
  | rem, [] => rem
  | [], _ :: _ => []

/-- `openDivide` on bytes. -/
def divideBytes : Nat → Poly → Poly → Poly
  | 0, rem, _ => rem
  | _ + 1, [], _ => []
  | passes + 1, c :: rem, tail => divideBytes passes (addScaledBytes c rem tail) tail

@[simp] theorem length_addScaled (c : Entry) (rem tail : List Entry) : (addScaled c rem tail).length = rem.length := by
  induction rem generalizing tail with
  | nil => cases tail <;> rfl
  | cons r rem ih => cases tail with
    | nil => rfl
    | cons d tail => simp [addScaled, ih]

/-- Every pass removes one entry. -/
@[simp] theorem length_openDivide (passes : Nat) (rem tail : List Entry) :
    (openDivide passes rem tail).length = rem.length - passes := by
  induction passes generalizing rem with
  | zero => rfl
  | succ passes ih => cases rem with
    | nil => simp [openDivide]
    | cons c rem => simp [openDivide, ih]

theorem fills_addScaled {x : Entry} {c : Byte} {rem tail : List Entry} {r ds : Poly} (hx : x = none ∨ x = some c) (hr : Fills rem r)
    (hd : Fills tail ds) : Fills (addScaled x rem tail) (addScaledBytes c r ds) := by
  induction hr generalizing tail ds with
  | nil => cases hd <;> exact .nil
  | cons ha hr ih =>
    cases hd with
    | nil => exact .cons ha hr
    | cons hb hd => exact .cons (openAdd_sound ha (openMul_sound hb hx)) (ih hd)

/-- An entry of the long division that has a value has it whatever the unspecified entries are. -/
theorem fills_openDivide {rem tail : List Entry} {r ds : Poly} (passes : Nat) (hr : Fills rem r) (hd : Fills tail ds) :
    Fills (openDivide passes rem tail) (divideBytes passes r ds) := by
  induction passes generalizing rem r with
  | zero => exact hr
  | succ passes ih => cases hr with
    | nil => exact .nil
    | cons hx hr => exact ih (fills_addScaled hx hr hd)

theorem addScaled_map_some (c : Byte) (r ds : Poly) :
    addScaled (some c) (r.map some) (ds.map some) = (addScaledBytes c r ds).map some := by
  induction r generalizing ds with
  | nil => cases ds <;> rfl
  | cons a r ih => cases ds with
    | nil => rfl
    | cons d ds => simp [addScaled, addScaledBytes, ih]

theorem openDivide_map_some (passes : Nat) (r ds : Poly) :
    openDivide passes (r.map some) (ds.map some) = (divideBytes passes r ds).map some := by
  induction passes generalizing r with
  | zero => rfl
  | succ passes ih => cases r with
    | nil => rfl
    | cons c r => rw [List.map_cons, openDivide, addScaled_map_some, ih, divideBytes]

theorem length_divideBytes (passes : Nat) (r ds : Poly) : (divideBytes passes r ds).length = r.length - passes := by
  have h := length_openDivide passes (r.map some) (ds.map some)
  rw [openDivide_map_some] at h
  simpa using h

theorem addScaledBytes_zero (r ds : Poly) : addScaledBytes 0#8 r ds = r := by
  induction r generalizing ds with
  | nil => cases ds <;> rfl
  | cons a r ih => cases ds with
    | nil => rfl
    | cons d ds => simp [addScaledBytes, ih]

/-- A pass of R123 cancels the head of the remainder. -/
theorem subtractAtHead_cons (c : Byte) (r ds : Poly) (h : ds.length ≤ r.length) :
    subtractAtHead (c :: r) (1 :: ds) c = 0 :: addScaledBytes c r ds := by
  have e : subtractAtHead r ds c = addScaledBytes c r ds := by
    induction ds generalizing r with
    | nil => cases r <;> rfl
    | cons d ds ih => cases r with
      | nil => simp at h
      | cons a r =>
        have := ih r (by simpa using h)
        simp only [subtractAtHead, gfAddLists, gfScale] at this
        simp [subtractAtHead, gfAddLists, gfScale, addScaledBytes, this]
  rw [← e]
  simp [subtractAtHead, gfAddLists, gfScale]

/-- One pass of R123 by a monic divisor, where the dividend is long enough. -/
theorem polyMod_pass (c : Byte) (r ds : Poly) (h : ds.length ≤ r.length) :
    polyMod (c :: r) (1 :: ds) = polyMod (stripZeros (addScaledBytes c r ds)) (1 :: ds) := by
  have hd : (1 :: ds : Poly).head? = some 1 := rfl
  have hl : (stripZeros (addScaledBytes c r ds)).length ≤ r.length := by
    have := List.Sublist.length_le (List.dropWhile_sublist (· == 0) (l := addScaledBytes c r ds))
    have hb := length_addScaled (some c) (r.map some) (ds.map some)
    rw [addScaled_map_some] at hb
    simp only [List.length_map] at hb
    unfold stripZeros; omega
  have e : polyMod (c :: r) (1 :: ds) = polyModLoop r.length (stripZeros (addScaledBytes c r ds)) (1 :: ds) := by
    simp only [polyMod, List.length_cons, polyModLoop]
    rw [if_neg (by simp; omega), List.headD_cons, subtractAtHead_cons c r ds h]
    simp [stripZeros]
  rw [e, polyModLoop_enough hd _ _ hl, polyMod]

/-- The division of R123, which strips in every pass, is the long division stripped once. -/
theorem stripZeros_divideBytes (ds : Poly) : ∀ (n : Nat) (y : Poly), y.length = n + ds.length →
    stripZeros (divideBytes n y ds) = polyMod (stripZeros y) (1 :: ds) := by
  intro n
  induction n with
  | zero =>
    intro y hy
    have hl := List.Sublist.length_le (List.dropWhile_sublist (· == 0) (l := y))
    rw [divideBytes, polyMod]
    generalize hz : stripZeros y = z
    have hz' : z.length ≤ ds.length := by rw [← hz]; unfold stripZeros; omega
    cases z with
    | nil => rfl
    | cons c z => rw [List.length_cons, polyModLoop, if_pos (by simp at hz' ⊢; omega)]
  | succ n ih =>
    intro y hy
    cases y with
    | nil => simp only [List.length_nil] at hy; omega
    | cons c r =>
      have hr : r.length = n + ds.length := by simp only [List.length_cons] at hy; omega
      have hb : (addScaledBytes c r ds).length = n + ds.length := by
        have hb := length_addScaled (some c) (r.map some) (ds.map some)
        rw [addScaled_map_some] at hb
        simpa [hr] using hb
      rw [divideBytes, ih _ hb]
      by_cases hc : c = 0#8
      · subst hc; rw [addScaledBytes_zero]; simp [stripZeros]
      · rw [← polyMod_pass c r ds (by omega)]
        congr 1
        simp [stripZeros, hc]

/-- The remainder of R123 is the long division without its leading zeros. -/
theorem polyMod_eq_strip (x ds : Poly) (h : ds.length < x.length) :
    polyMod x (1 :: ds) = stripZeros (divideBytes (x.length - ds.length) x ds) := by
  cases x with
  | nil => simp at h
  | cons c r =>
    have hr : ds.length ≤ r.length := by simp only [List.length_cons] at h; omega
    have hb : (addScaledBytes c r ds).length = (r.length - ds.length) + ds.length := by
      have hb := length_addScaled (some c) (r.map some) (ds.map some)
      rw [addScaled_map_some] at hb
      simp only [List.length_map] at hb; omega
    rw [polyMod_pass c r ds hr, ← stripZeros_divideBytes ds _ _ hb,
      show (c :: r).length - ds.length = (r.length - ds.length) + 1 by simp only [List.length_cons]; omega]
    rfl

/-- Padding a stripped list with zeros to its length gives it back. -/
theorem pad_stripZeros (r : Poly) : zeros (r.length - (stripZeros r).length) ++ stripZeros r = r := by
  induction r with
  | nil => rfl
  | cons a r ih =>
    by_cases h : a = 0#8
    · subst h
      have hl := List.Sublist.length_le (List.dropWhile_sublist (· == 0) (l := r))
      have e : stripZeros (0#8 :: r) = stripZeros r := by simp [stripZeros]
      rw [e, List.length_cons,
        show r.length + 1 - (stripZeros r).length = (r.length - (stripZeros r).length) + 1 by unfold stripZeros at *; omega]
      simpa [zeros, List.replicate_succ] using ih
    · have e : stripZeros (a :: r) = a :: r := by simp [stripZeros, h]
      rw [e]; simp [zeros]

/-- The remainder of R123, padded with zeros to one entry fewer than the divisor, is the long division. -/
theorem pad_polyMod (x ds : Poly) (h : ds.length < x.length) :
    zeros (ds.length - (polyMod x (1 :: ds)).length) ++ polyMod x (1 :: ds) = divideBytes (x.length - ds.length) x ds := by
  have e := pad_stripZeros (divideBytes (x.length - ds.length) x ds)
  rw [← polyMod_eq_strip x ds h, length_divideBytes, show x.length - (x.length - ds.length) = ds.length by omega] at e
  exact e

/-! ## The strip -/

/-- What is left by the strip is the end of the list. -/
theorem openStrip_eq_drop (draw : Nat → Byte) (p : List Entry) :
    openStrip draw p = p.drop (p.length - (openStrip draw p).length) ∧ (openStrip draw p).length ≤ p.length := by
  induction p with
  | nil => exact ⟨rfl, Nat.le_refl _⟩
  | cons x p ih =>
    have kept : openStrip draw (x :: p) = x :: p ∨ openStrip draw (x :: p) = openStrip draw p := by
      cases x with
      | none => by_cases h : draw p.length = 0#8 <;> simp [openStrip, h]
      | some b => by_cases h : b = 0#8 <;> simp [openStrip, h]
    rcases kept with h | h
    · rw [h]; simp
    · rw [h]
      refine ⟨?_, by simp only [List.length_cons]; omega⟩
      rw [List.length_cons, show p.length + 1 - (openStrip draw p).length = (p.length - (openStrip draw p).length) + 1 by omega]
      exact ih.1

/-- What is left by the strip does not begin with a zero. -/
theorem head_openStrip (draw : Nat → Byte) (p : List Entry) : (openStrip draw p).head? ≠ some (some 0#8) := by
  induction p with
  | nil => simp [openStrip]
  | cons x p ih => cases x with
    | none => by_cases h : draw p.length = 0#8 <;> simp [openStrip, h, ih]
    | some b => by_cases h : b = 0#8 <;> simp [openStrip, h, ih]

theorem openStrip_map_some (draw : Nat → Byte) (a : Poly) : openStrip draw (a.map some) = (stripZeros a).map some := by
  induction a with
  | nil => rfl
  | cons b a ih => by_cases h : b = 0#8 <;> simp_all [openStrip, stripZeros]

/-! ## The remainder and the EC codewords -/

@[simp] theorem length_divisorTail (q : List Entry) : (divisorTail q).length = q.length - 1 := by
  rcases q with _ | ⟨_ | b, q⟩ <;> simp [divisorTail]

theorem fills_divisorTail {q : List Entry} {b : Byte} {ds : Poly} (h : Fills q (b :: ds)) : Fills (divisorTail q) ds := by
  cases h with
  | cons hx h =>
    rename_i x q
    cases x with
    | some _ => exact h
    | none =>
      clear hx
      induction h with
      | nil => exact .nil
      | cons _ _ ih => exact .cons (Or.inl rfl) ih

theorem openPolyMod_short (draw : Nat → Byte) {p q : List Entry} (h : p.length < q.length) : openPolyMod draw p q = p := if_pos h

/-- The remainder is shorter than a divisor of at least one entry (R123, fact 5). -/
theorem length_openPolyMod_lt (draw : Nat → Byte) (p : List Entry) {q : List Entry} (hq : 0 < q.length) :
    (openPolyMod draw p q).length < q.length := by
  unfold openPolyMod
  split
  · assumption
  · have := (openStrip_eq_drop draw (openDivide (p.length - (q.length - 1)) p (divisorTail q))).2
    rw [length_openDivide] at this
    omega

/-- On operands all written, the divisor monic, the remainder is `polyMod` (R123). -/
theorem openPolyMod_map_some (draw : Nat → Byte) (a : Poly) {b : Poly} (hb : b.head? = some 1) :
    openPolyMod draw (a.map some) (b.map some) = (polyMod a b).map some := by
  obtain ⟨ds, rfl⟩ : ∃ ds, b = 1 :: ds := by
    cases b with
    | nil => simp at hb
    | cons c ds => exact ⟨ds, by simpa using hb⟩
  unfold openPolyMod
  by_cases h : a.length < (1 :: ds : Poly).length
  · rw [if_pos (by simpa using h), polyMod]
    cases a with
    | nil => rfl
    | cons c a => rw [List.length_cons, polyModLoop, if_pos h]
  · rw [if_neg (by simpa using h), polyMod_eq_strip a ds (by simp only [List.length_cons] at h; omega), ← openStrip_map_some draw,
      ← openDivide_map_some]
    simp [divisorTail]

/-- Where a pass runs, an entry of the remainder that has a value has it, counted from the end, in the padded remainder of every filling
with a monic divisor (R123). -/
theorem openPolyMod_value (draw : Nat → Byte) {p q : List Entry} {a ds : Poly} (hp : Fills p a) (hq : Fills q (1 :: ds))
    (h : q.length ≤ p.length) {k : Nat} {v : Byte} (hk : (openPolyMod draw p q)[k]? = some (some v)) :
    (zeros (ds.length - (polyMod a (1 :: ds)).length) ++ polyMod a (1 :: ds))[ds.length - (openPolyMod draw p q).length + k]?
      = some v := by
  have hpl := hp.length_eq
  have hql : q.length = ds.length + 1 := hq.length_eq
  rw [pad_polyMod a ds (by omega)]
  unfold openPolyMod at hk ⊢
  rw [if_neg (by omega)] at hk ⊢
  rw [hql, Nat.add_sub_cancel] at hk ⊢
  have hs := (openStrip_eq_drop draw (openDivide (p.length - ds.length) p (divisorTail q))).1
  rw [length_openDivide, show p.length - (p.length - ds.length) = ds.length by omega] at hs
  rw [hs, List.getElem?_drop] at hk
  rw [← hpl]
  exact value_of_fills (fills_openDivide _ hp (fills_divisorTail hq)) hk

/-- The remainder does not begin with a zero where a pass runs (R123). -/
theorem head_openPolyMod (draw : Nat → Byte) {p q : List Entry} (h : q.length ≤ p.length) :
    (openPolyMod draw p q).head? ≠ some (some 0) := by
  unfold openPolyMod; rw [if_neg (by omega)]; exact head_openStrip _ _

theorem gen_eq_cons (e : Nat) : ∃ ds, gen e = 1 :: ds ∧ ds.length = e := by
  have hh := head_gen e
  have hl := length_gen e
  cases h : gen e with
  | nil => simp [h] at hh
  | cons c ds =>
    rw [h] at hh hl
    exact ⟨ds, by rw [show c = 1 by simpa using hh], by simpa using hl⟩

/-- The EC codewords are the long division of the block followed by zeros (R151). -/
theorem rsEncode_eq_divide (a : Poly) (e : Nat) : rsEncode a e = divideBytes a.length (a ++ zeros e) (gen e).tail := by
  obtain ⟨ds, hg, hl⟩ := gen_eq_cons e
  unfold rsEncode
  rw [hg, List.tail_cons]
  cases a with
  | nil =>
    have e0 : polyMod ([] ++ zeros e) (1 :: ds) = zeros e := by
      rw [List.nil_append, polyMod]
      cases hz : zeros e with
      | nil => rfl
      | cons c z =>
        have := length_zeros e
        rw [hz] at this
        rw [List.length_cons, polyModLoop, if_pos (by simp only [List.length_cons] at *; omega)]
    rw [e0]; simp [divideBytes, zeros]
  | cons c a =>
    have := pad_polyMod ((c :: a) ++ zeros e) ds (by simp [hl])
    rw [hl, List.length_append, length_zeros, Nat.add_sub_cancel] at this
    exact this

/-- On a block all written the EC codewords are `rsEncode` (R151). -/
theorem openRsEncode_map_some (a : Poly) (e : Nat) : openRsEncode (a.map some) e = (rsEncode a e).map some := by
  rw [rsEncode_eq_divide, ← openDivide_map_some, openRsEncode]
  simp [openZeros, zeros]

/-- A block has exactly `e` EC codewords (R151). -/
@[simp] theorem length_openRsEncode (p : List Entry) (e : Nat) : (openRsEncode p e).length = e := by
  simp [openRsEncode, openZeros]

/-- An EC codeword that has a value has it whatever the unspecified entries are (R151). -/
theorem fills_openRsEncode {p : List Entry} {a : Poly} (h : Fills p a) (e : Nat) : Fills (openRsEncode p e) (rsEncode a e) := by
  rw [rsEncode_eq_divide, openRsEncode, h.length_eq]
  exact fills_openDivide _ (fills_append h (fills_openZeros e)) (fills_map_some _)

end Sys2Proof.Machine
end

