-- ==== Sys2Proof/Laws/PerInstr.lean ====
section
/-! SUPPORT. A statement made per instruction: the command word of each command has the match pattern of its row of the opcode map under
the row's mask (30_encoding.md R93). -/

namespace Sys2Proof.Laws.RowPattern

/-- The mask of the command's row (R93). -/
def rowMask : Instr → Word
  | .gfmul _ _ => 0xFFFF0000
  | .gfexp _ => 0xFFFFFE00
  | .gflog _ => 0xFFFFFF00
  | .pmul => 0xFFFFFFFF
  | .pmod => 0xFFFFFFFF
  | .genld _ => 0xFFFFFF80
  | .rsenc _ => 0xFFFFFF80
  | .minit _ => 0xFFFFFFC0
  | .maskapply _ => 0xFFFFFFF8
  | .score => 0xFFFFFFFF
  | .masksel => 0xFFFFFFFF
  | .fmtpack _ _ => 0xFFFFFCF8
  | .fmtrsv => 0xFFFFFFFF
  | .fmtplace _ _ => 0xFFFFFCF8
  | .verpack _ => 0xFFFFFFC0
  | .verplace => 0xFFFFFFFF

/-- The match pattern of the command's row (R93). -/
def rowMatch : Instr → Word
  | .gfmul _ _ => 0x10000000
  | .gfexp _ => 0x11000000
  | .gflog _ => 0x12000000
  | .pmul => 0x14000000
  | .pmod => 0x15000000
  | .genld _ => 0x20000000
  | .rsenc _ => 0x21000000
  | .minit _ => 0x30000000
  | .maskapply _ => 0x31000000
  | .score => 0x32000000
  | .masksel => 0x33000000
  | .fmtpack _ _ => 0x40000000
  | .fmtrsv => 0x41000000
  | .fmtplace _ _ => 0x42000000
  | .verpack _ => 0x44000000
  | .verplace => 0x45000000

/-- The command word of `i` selects the row of `i`. -/
def Statement (i : Instr) : Prop := encode i &&& rowMask i = rowMatch i

theorem gfmul (a b : Byte) : Statement (.gfmul a b) := by
  refine BitVec.eq_of_getLsbD_eq fun k hk => ?_
  simp only [encode, rowMask, rowMatch, BitVec.getLsbD_and, BitVec.getLsbD_append]
  interval_cases k <;> simp

theorem gfexp (idx : BitVec 9) : Statement (.gfexp idx) := by
  refine BitVec.eq_of_getLsbD_eq fun k hk => ?_
  simp only [encode, rowMask, rowMatch, BitVec.getLsbD_and, BitVec.getLsbD_append]
  interval_cases k <;> simp

theorem gflog (x : Byte) : Statement (.gflog x) := by
  refine BitVec.eq_of_getLsbD_eq fun k hk => ?_
  simp only [encode, rowMask, rowMatch, BitVec.getLsbD_and, BitVec.getLsbD_append]
  interval_cases k <;> simp

theorem pmul : Statement .pmul := rfl

theorem pmod : Statement .pmod := rfl

theorem genld (d : BitVec 7) : Statement (.genld d) := by
  refine BitVec.eq_of_getLsbD_eq fun k hk => ?_
  simp only [encode, rowMask, rowMatch, BitVec.getLsbD_and, BitVec.getLsbD_append]
  interval_cases k <;> simp

theorem rsenc (e : BitVec 7) : Statement (.rsenc e) := by
  refine BitVec.eq_of_getLsbD_eq fun k hk => ?_
  simp only [encode, rowMask, rowMatch, BitVec.getLsbD_and, BitVec.getLsbD_append]
  interval_cases k <;> simp

theorem minit (v : BitVec 6) : Statement (.minit v) := by
  refine BitVec.eq_of_getLsbD_eq fun k hk => ?_
  simp only [encode, rowMask, rowMatch, BitVec.getLsbD_and, BitVec.getLsbD_append]
  interval_cases k <;> simp

theorem maskapply (m : BitVec 3) : Statement (.maskapply m) := by
  refine BitVec.eq_of_getLsbD_eq fun k hk => ?_
  simp only [encode, rowMask, rowMatch, BitVec.getLsbD_and, BitVec.getLsbD_append]
  interval_cases k <;> simp

theorem score : Statement .score := rfl

theorem masksel : Statement .masksel := rfl

theorem fmtpack (ec : EcLevel) (m : BitVec 3) : Statement (.fmtpack ec m) := by
  refine BitVec.eq_of_getLsbD_eq fun k hk => ?_
  simp only [encode, rowMask, rowMatch, BitVec.getLsbD_and, BitVec.getLsbD_append]
  interval_cases k <;> simp

theorem fmtrsv : Statement .fmtrsv := rfl

theorem fmtplace (ec : EcLevel) (m : BitVec 3) : Statement (.fmtplace ec m) := by
  refine BitVec.eq_of_getLsbD_eq fun k hk => ?_
  simp only [encode, rowMask, rowMatch, BitVec.getLsbD_and, BitVec.getLsbD_append]
  interval_cases k <;> simp

theorem verpack (v : BitVec 6) : Statement (.verpack v) := by
  refine BitVec.eq_of_getLsbD_eq fun k hk => ?_
  simp only [encode, rowMask, rowMatch, BitVec.getLsbD_and, BitVec.getLsbD_append]
  interval_cases k <;> simp

theorem verplace : Statement .verplace := rfl

end Sys2Proof.Laws.RowPattern
end

