-- ==== Sys2Proof/Laws/Placement.lean ====
section
/-! SUPPORT. The placers: what a cell holds after a code is placed, and that nothing else changes (43_format_version.md R213, R215). -/

namespace Sys2Proof.Machine

/-- Placing the bits of a code leaves every location alone that is no target (R213, R215). -/
theorem read_placeBits_of_not_target {w : Nat} (c : BitVec w) {loc : Nat} :
    ∀ (cells : List BitCell) (m : Memory), (∀ p ∈ cells, loc ≠ matLoc p.x p.y) →
      Memory.read (placeBits c cells m) loc = Memory.read m loc := by
  intro cells
  induction cells with
  | nil => intro m _; rfl
  | cons p cells ih =>
    intro m h
    have hp := h p List.mem_cons_self
    show Memory.read (placeBits c cells _) loc = _
    rw [ih _ fun q hq => h q (List.mem_cons_of_mem _ hq)]
    unfold writeCell
    rw [Memory.read_write, if_neg (Ne.symm hp)]

/-- A target cell holds its bit, provided every pair of the map that names the cell names the same bit value. -/
theorem cellAt_placeBits {w : Nat} (c : BitVec w) {x y : Nat} (b : Bool) (hx : x < 256) :
    ∀ (cells : List BitCell) (m : Memory), (∀ p ∈ cells, p.x < 256) →
      (∀ p ∈ cells, p.x = x → p.y = y → sbit c p.bit = b) →
      ((∃ p ∈ cells, p.x = x ∧ p.y = y) ∨ cellAt m x y = .functional b) →
      cellAt (placeBits c cells m) x y = .functional b := by
  intro cells
  induction cells with
  | nil =>
    intro m _ _ h
    rcases h with ⟨p, hp, _⟩ | h
    · cases hp
    · exact h
  | cons p cells ih =>
    intro m hb ha h
    refine ih (writeCell m p.x p.y _) (fun q hq => hb q (List.mem_cons_of_mem _ hq))
      (fun q hq => ha q (List.mem_cons_of_mem _ hq)) ?_
    rw [cellAt_writeCell m _ (hb p List.mem_cons_self) hx]
    by_cases hp : p.x = x ∧ p.y = y
    · rw [if_pos hp, ha p List.mem_cons_self hp.1 hp.2]; exact Or.inr rfl
    · rw [if_neg hp]
      rcases h with ⟨q, hq, hq'⟩ | h
      · rcases List.mem_cons.1 hq with rfl | hq
        · exact absurd hq' hp
        · exact Or.inl ⟨q, hq, hq'⟩
      · exact Or.inr h

/-- The placer's conflict test (R221), as a statement. -/
theorem hasConflict_eq (s : State) (targets : List BitCell) : s.hasConflict targets = decide (s.Conflict targets) := by
  rw [Bool.eq_iff_iff]; simp [State.hasConflict]

/-- No version above 40 or below 7 has a code (R214). -/
theorem versionCode_eq_none (p : Config.Params) (v : Nat) : versionCode p v = none ↔ v < 7 ∨ 40 < v := by
  unfold versionCode Config.verInfoMin
  split
  · rw [Vector.getElem?_eq_none_iff]; omega
  · simp; omega

end Sys2Proof.Machine
end

