-- ==== Sys2Proof/Laws/Run.lean ====
section
/-! SUPPORT. Runs (70_reset_and_hazards.md R279): what one step adds to a run, how a poll waits, that the run of a command line that writes
`RESULT` ends well, and that a run through phase FAULT does not, whatever follows. -/

namespace Sys2Proof.Machine

variable {s s' t u : State}

theorem reaches_zero : s.Reaches 0 t ↔ t = s := by
  constructor
  · intro h; exact (Host.Outcome.next.inj h).symm
  · rintro rfl; rfl

/-- A run's first step. -/
theorem reaches_succ (h : step s = .next s') (k : Nat) : s.Reaches (k + 1) t ↔ s'.Reaches k t := by
  have h : core.step s = .next s' := h
  simp only [State.Reaches, Host.Core.run]
  rw [h]

/-- A run that is in phase FAULT at some step has not ended well, also where a reset follows (R246, R279). -/
theorem not_endedWell_of_fault {j k : Nat} (hj : j ≤ k) (hu : s.Reaches j u) (hf : u.phase = .fault) : ¬ s.EndedWell k t :=
  fun h => h.noFault j u hj hu hf

/-- A run with an illegal access has not ended well (R249, R279). -/
theorem not_endedWell_of_illegal {j k : Nat} (hj : j < k) (hu : s.Reaches j u) (hi : u.AccessesIllegally) : ¬ s.EndedWell k t :=
  fun h => h.noIllegal j u hj hu hi

/-- A poll makes no illegal access. -/
theorem not_accessesIllegally_poll {rest : List HostOp} (h : s.script = .poll :: rest) : ¬ s.AccessesIllegally := by
  rintro ⟨-, ⟨_, _, h', -⟩ | ⟨_, _, _, h', -⟩⟩ <;> simp [h] at h'

/-- A way of `k` steps from `s` to `t` on which no state is in phase FAULT and no access is illegal. -/
def CleanWay (s : State) (k : Nat) (t : State) : Prop :=
  s.Reaches k t ∧ (∀ j u, j ≤ k → s.Reaches j u → u.phase ≠ .fault) ∧ ∀ j u, j < k → s.Reaches j u → ¬ u.AccessesIllegally

theorem cleanWay_zero (h : s.phase ≠ .fault) : CleanWay s 0 s :=
  ⟨rfl, fun j u hj hu => by
    obtain rfl := Nat.le_zero.1 hj
    rw [reaches_zero.1 hu]; exact h, fun _ _ hj => absurd hj (Nat.not_lt_zero _)⟩

/-- One more step at the front of a clean way. -/
theorem cleanWay_succ {k : Nat} (hs : step s = .next s') (hf : s.phase ≠ .fault) (hi : ¬ s.AccessesIllegally) (h : CleanWay s' k t) :
    CleanWay s (k + 1) t := by
  refine ⟨(reaches_succ hs k).2 h.1, fun j u hj hu => ?_, fun j u hj hu => ?_⟩
  · cases j with
    | zero => rw [reaches_zero.1 hu]; exact hf
    | succ j => exact h.2.1 j u (by omega) ((reaches_succ hs j).1 hu)
  · cases j with
    | zero => rw [reaches_zero.1 hu]; exact hi
    | succ j => exact h.2.2 j u (by omega) ((reaches_succ hs j).1 hu)

/-- While the block is BUSY a poll takes every turn of the host (R95): the way through the turns left is the way from where none is, with
the `STATUS` word in `rdata`. -/
theorem cleanWay_poll (s : State) (hp : s.phase = .busy) (hs : s.script = [.poll]) {k : Nat}
    (h : ∀ r : Word, ∃ t, CleanWay { s with busyFor := 0, rdata := r } k t ∧ t.script = [] ∧ t.StatusClean
      ∧ ∃ j u, j < k ∧ State.Reaches { s with busyFor := 0, rdata := r } j u ∧ u.script = [.poll] ∧ u.StatusClean) :
    ∃ t, CleanWay s (s.busyFor + k) t ∧ t.script = [] ∧ t.StatusClean
      ∧ ∃ j u, j < s.busyFor + k ∧ s.Reaches j u ∧ u.script = [.poll] ∧ u.StatusClean := by
  obtain ⟨n, hn⟩ : ∃ n, s.busyFor = n := ⟨_, rfl⟩
  induction n generalizing s with
  | zero =>
    have e : { s with busyFor := 0, rdata := s.rdata } = s := by cases s; cases hn; rfl
    obtain ⟨t, ht⟩ := h s.rdata
    rw [e] at ht
    rw [hn, Nat.zero_add]
    exact ⟨t, ht⟩
  | succ n ih =>
    have hb : s.blockMoves = false := by simp [State.blockMoves, hn, hs]
    have hstep : step s = .next { s with busyFor := n, rdata := s.statusWord } := by
      rw [step_of_hostMoves hb, hostTurn_poll s hs]
      unfold State.hostRead
      rw [find_status]
      simp [State.busyFlag, hp, hn, ← hs, State.statusWord, State.errFlag]
    obtain ⟨t, hw, h1, h2, j, u, hj, hu, h3⟩ := ih { s with busyFor := n, rdata := s.statusWord } hp hs h rfl
    rw [hn, show n + 1 + k = (n + k) + 1 by omega]
    exact ⟨t, cleanWay_succ hstep (by rw [hp]; simp) (not_accessesIllegally_poll hs) hw, h1, h2,
      j + 1, u, by simp only at hj; omega, (reaches_succ hstep j).2 hu, h3⟩

/-- The run of one command line whose command writes `RESULT` ends well from every idle state with `HERR` 0 (R95, R279). -/
theorem commandLine_endedWell {w : Word} {i : Instr} (hw : decode w = .command i)
    (hx : ∀ u : State, ∃ r, exec i u = .next (u.setResult r).complete)
    (hp : s.phase = .idle) (hh : s.herr = false) (hs : s.script = hostScript [.command w]) : ∃ k t, s.EndedWell k t := by
  have hs' : s.script = [.write 0 w, .poll] := hs
  have hstep : step s = .next (State.acceptCommand { s with script := [.poll], busyFor := s.busyFor - 1 } w) := by
    rw [step_of_hostMoves (by simp [State.blockMoves, hp]), hostTurn_write s hs', hostWrite_of_idle]
    · rfl
    · exact hp
  have hlegal : ¬ s.AccessesIllegally := by
    rintro ⟨-, ⟨_, _, h, -⟩ | ⟨loc, v, _, h, hi⟩⟩
    · simp [hs'] at h
    · rw [hs'] at h
      obtain ⟨⟨rfl, rfl⟩, rfl⟩ : ((0 : Loc) = loc ∧ w = v) ∧ [HostOp.poll] = _ := by simpa using h
      simp [State.IllegalWrite, hp, UnmappedLoc] at hi
  obtain ⟨t, hway, h1, h2, j, u, hj, hu, h3, h4⟩ := cleanWay_poll
    (State.acceptCommand { s with script := [.poll], busyFor := s.busyFor - 1 } w) rfl rfl (k := 2) (fun r => by
      let b : State := { State.acceptCommand { s with script := [.poll], busyFor := s.busyFor - 1 } w with busyFor := 0, rdata := r }
      obtain ⟨v, hv⟩ := hx b
      have hrun : step b = .next (b.setResult v).complete := by
        rw [step_of_blockMoves rfl]; unfold runCommandBy
        rw [show b.cmdreg = w from rfl, hw]; exact hv
      have hclean : (b.setResult v).complete.StatusClean := by
        have : b.herr = false := hh
        simp [State.StatusClean, State.statusWord, State.errFlag, State.busyFlag, this]
        decide
      have hread : step (b.setResult v).complete
          = .next { (b.setResult v).complete with script := [], rdata := (b.setResult v).complete.statusWord } := by
        rw [step_of_hostMoves rfl, hostTurn_poll (rest := []) _ rfl]
        unfold State.hostRead
        rw [find_status]; rfl
      exact ⟨_, cleanWay_succ hrun (by show Phase.busy ≠ _; simp) (not_accessesIllegally_poll (rest := []) rfl)
          (cleanWay_succ hread (by show Phase.idle ≠ _; simp) (not_accessesIllegally_poll (rest := []) rfl)
            (cleanWay_zero (by show Phase.idle ≠ _; simp))), rfl, hclean,
        1, _, by omega, (reaches_succ hrun 0).2 rfl, rfl, hclean⟩)
  have hall := cleanWay_succ hstep (by rw [hp]; simp) hlegal hway
  exact ⟨_, t, ⟨hp, [.command w], hs⟩, ⟨hall.1, h1, h2⟩, hall.2.1, hall.2.2,
    j + 1, u, by omega, (reaches_succ hstep j).2 hu, ⟨[], h3, by simp⟩, h4⟩

end Sys2Proof.Machine
end

