-- ==== Sys2Proof/Tests/Slice0.lean ====
section
/-! SUPPORT. Tests of the model against the spec's own words, examples and vectors (95_test_vectors.md), and for each statement of
Obligations.lean that has hypotheses a state and operands that meet them. -/

namespace Sys2Proof.Tests

-- One theorem at a time: each evaluates in the kernel, and many at once ask for too much memory.
set_option Elab.async false

open Sys2Proof.Machine

/-! ## States and readers for the tests -/

/-- The next state of an answer. -/
def after : Answer → Option State
  | .next t => some t
  | .fault _ => none
  | .refused _ => none

/-- What a reader sees in the next state of an answer. -/
def seen {α : Type} (f : State → α) (a : Answer) : Option α := (after a).map f

/-- After reset, with this action of the host pending. -/
def idle (op : HostOp) : State := { State.reset with script := [op] }

/-- Busy, a host turn being left, with this action of the host pending. -/
def busy (op : HostOp) : State := { State.reset with script := [op], phase := .busy, busyFor := 3 }

/-- In phase FAULT with cause 1 and this action of the host pending. -/
def faulty (op : HostOp) : State := { State.reset with script := [op], phase := .fault, errcode := 1 }

/-- The accepted command word `w`, about to run. -/
def running (w : Word) : State := State.reset.loadCommand w

/-- Buffers A and B hold these lists, `none` an entry nothing wrote. -/
def partly (a b : List Sys2Proof.Entry) : State :=
  { State.reset with mem := Memory.place baseA a ++ Memory.place baseB b, lenA := a.length, lenB := b.length }

/-- Buffers A and B hold these lists. -/
def operands (a b : Poly) : State := partly (a.map some) (b.map some)

/-- A symbol of version `v` with nothing written. -/
def unsetSymbol (v : Fin 41) : State := { State.reset with ver := v }

/-- A version-1 symbol with cell `(x, y)` holding the bits `f x y`. -/
def symbol1 (f : Nat → Nat → Byte) : State :=
  { State.reset with
    ver := 1
    mem := (List.range 21).flatMap fun y => (List.range 21).map fun x => (matLoc x y, f x y) }

/-- The version-1 symbol of R179's example: every cell `(1, 1, 0)`, set, codeword, light. -/
def allLight : State := symbol1 fun _ _ => 6

/-- An `n` by `n` symbol's dark cells among the given coordinates. -/
def darkOf (m : Memory) (cells : List (Nat × Nat)) : List Bool := cells.map fun p => (cellAt m p.1 p.2).value

/-- The entries of C that have a value. -/
def listC (s : State) : List (Option Byte) := (List.range 4).map fun i => Memory.read s.mem (baseC + i)

/-! ## Well-formedness: one ill-formed term for each check (R92) -/

theorem test_wf_genld : Instr.wf (.genld 69) = false := by decide
theorem test_wf_rsenc : Instr.wf (.rsenc 69) = false := by decide
theorem test_wf_minit_low : Instr.wf (.minit 0) = false := by decide
theorem test_wf_minit_high : Instr.wf (.minit 41) = false := by decide
theorem test_wf_verpack_low : Instr.wf (.verpack 6) = false := by decide
theorem test_wf_verpack_high : Instr.wf (.verpack 41) = false := by decide
theorem test_wf_legal :
    [Instr.genld 68, .rsenc 68, .minit 1, .minit 40, .verpack 7, .verpack 40, .gfexp 511, .maskapply 7].all Instr.wf = true := by decide

/-! ## Decoding: one word of each command, written out in the bit pictures of R91 with the opcodes of R93 -/

theorem test_decode_gfmul : decode 0b00010000_00000000_10000000_00000010 = .command (.gfmul 2 128) := by decide
theorem test_decode_gfexp : decode 0b00010001_00000000_00000001_11111110 = .command (.gfexp 510) := by decide
theorem test_decode_gflog : decode 0b00010010_00000000_00000000_00011101 = .command (.gflog 29) := by decide
theorem test_decode_pmul : decode 0b00010100_00000000_00000000_00000000 = .command .pmul := by decide
theorem test_decode_pmod : decode 0b00010101_00000000_00000000_00000000 = .command .pmod := by decide
theorem test_decode_genld : decode 0b00100000_00000000_00000000_01000100 = .command (.genld 68) := by decide
theorem test_decode_rsenc : decode 0b00100001_00000000_00000000_00001010 = .command (.rsenc 10) := by decide
theorem test_decode_minit : decode 0b00110000_00000000_00000000_00100111 = .command (.minit 39) := by decide
theorem test_decode_maskapply : decode 0b00110001_00000000_00000000_00000110 = .command (.maskapply 6) := by decide
theorem test_decode_score : decode 0b00110010_00000000_00000000_00000000 = .command .score := by decide
theorem test_decode_masksel : decode 0b00110011_00000000_00000000_00000000 = .command .masksel := by decide
theorem test_decode_fmtpack : decode 0b01000000_00000000_00000011_00000001 = .command (.fmtpack .h 1) := by decide
theorem test_decode_fmtrsv : decode 0b01000001_00000000_00000000_00000000 = .command .fmtrsv := by decide
theorem test_decode_fmtplace : decode 0b01000010_00000000_00000010_00000101 = .command (.fmtplace .q 5) := by decide
theorem test_decode_verpack : decode 0b01000100_00000000_00000000_00101000 = .command (.verpack 40) := by decide
theorem test_decode_verplace : decode 0b01000101_00000000_00000000_00000000 = .command .verplace := by decide

/-- R94: the unassigned opcodes next to an assigned one. -/
theorem test_decode_unassigned :
    [0x00#32, 0x13#32, 0x16#32, 0x22#32, 0x34#32, 0x3F#32, 0x43#32, 0x46#32, 0xFF#32].map (fun op : Word => decode (op <<< 24))
      = List.replicate 9 (.illegal .unassignedOpcode) := by decide

/-- R91, R94: one reserved bit next to each format's operand field, and bits 7 and 10 of format EM. -/
theorem test_decode_reserved :
    [0x10010000#32, 0x11000200#32, 0x12000100#32, 0x14000001#32, 0x20000080#32, 0x30000040#32, 0x31000008#32, 0x40000080#32,
      0x40000400#32, 0x42000008#32, 0x45800000#32].map decode = List.replicate 11 (.illegal .reservedBit) := by decide

/-! ## The tables, against the rules they are built by -/

/-- The powers of `ALPHA` from `v` on (R21). -/
def powers : Nat → Nat → List Nat
  | 0, _ => []
  | k + 1, v => v :: powers k (nextPower v)

theorem test_exp_table : (List.range Config.expLen).map (fun i => (gfExp i).toNat) = powers 255 1 ++ powers 257 1 := by decide +kernel

/-- R22. -/
theorem test_log_table : (List.range 255).map (fun i => gfLog (gfExp i)) = (List.range 255).map some := by decide +kernel

/-- The remainder of a polynomial over GF(2) held in bits, by one of degree `deg`, clearing bits from `deg + k - 1` down to `deg`. -/
def gf2Rem (g deg : Nat) : Nat → Nat → Nat
  | 0, r => r
  | k + 1, r => gf2Rem g deg k (if r.testBit (deg + k) then r ^^^ (g <<< k) else r)

theorem test_format_table :
    params.formatInformation.toList.map BitVec.toNat
      = (List.range 32).map fun d => ((d <<< 10) ||| gf2Rem 0x537 10 5 (d <<< 10)) ^^^ 0x5412 := by decide +kernel

theorem test_version_table :
    params.versionInformation.toList.map BitVec.toNat
      = (List.range 34).map fun k => ((k + 7) <<< 12) ||| gf2Rem 0x1F25 12 6 ((k + 7) <<< 12) := by decide +kernel

/-! ## One step of each command, with the spec's own examples -/

/-- R124's example. -/
theorem test_gfmul_reduces : seen State.result (exec (.gfmul 2 128) State.reset) = some 29 := by decide +kernel
/-- R124's corner case. -/
theorem test_gfmul_top : seen State.result (exec (.gfmul 255 255) State.reset) = some 226 := by decide +kernel
/-- R125's corner cases. -/
theorem test_gfexp_top : seen State.result (exec (.gfexp 511) State.reset) = some 2 := by decide +kernel
theorem test_gfexp_repeats : seen State.result (exec (.gfexp 508) State.reset) = some 71 := by decide +kernel
/-- R126's corner cases. -/
theorem test_gflog_one : seen State.result (exec (.gflog 1) State.reset) = some 0 := by decide +kernel
theorem test_gflog_zero :
    seen (fun t => (t.errcode, t.errcmd, t.phase)) (step (running 0x12000000)) = some (3, 0x12000000, .fault) := by decide +kernel

/-- R127's example; the entry of C beyond the product has no value (R27). -/
theorem test_pmul : seen (fun t => (t.lenC, listC t)) (exec .pmul (operands [1, 2] [1, 4])) = some (3, [some 1, some 6, some 8, none]) := by
  decide +kernel
/-- R243: an empty operand. -/
theorem test_pmul_empty : seen State.errcode (exec .pmul (operands [] [1])) = some 4 := by decide +kernel
/-- R128's corner cases: leading zeros are stripped pass by pass, and kept where no pass runs. -/
theorem test_pmod_strips : seen (fun t => (t.lenC, listC t)) (exec .pmod (operands [0, 0, 5] [1, 1])) = some (1, [some 5, none, none, none]) := by
  decide +kernel
theorem test_pmod_short : seen (fun t => (t.lenC, listC t)) (exec .pmod (operands [0, 5] [1, 3, 2])) = some (2, [some 0, some 5, none, none]) := by
  decide +kernel

/-- R152's example. -/
theorem test_genld : seen (fun t => (t.lenC, listC t)) (exec (.genld 2) State.reset) = some (3, [some 1, some 3, some 2, none]) := by
  decide +kernel
theorem test_genld_range : seen State.errcode (exec (.genld 69) State.reset) = some 2 := by decide +kernel
/-- R153's corner case: the remainder is left-padded. -/
theorem test_rsenc_pads : seen (fun t => (t.lenC, listC t)) (exec (.rsenc 2) (operands [25, 9, 125, 250] [])) = some (2, [some 0, some 151, none, none]) := by
  decide +kernel
/-- R153, R244: INVALID_INPUT before LENGTH. -/
theorem test_rsenc_order : seen State.errcode (exec (.rsenc 69) { State.reset with lenA := 256 }) = some 2 := by decide +kernel

/-- R178's example, over a symbol that had a dark cell: `VER` reads 0x2D07 and the cell is unset. -/
theorem test_minit :
    seen (fun t => (t.regWord .ver, (cellAt t.mem 3 3).isSet)) (exec (.minit 7) { unsetSymbol 1 with mem := [(matLoc 3 3, 7)] })
      = some (some 0x2D07, false) := by decide +kernel
theorem test_minit_range : seen State.errcode (exec (.minit 41) State.reset) = some 2 := by decide +kernel

/-- R170's check: the first six columns of rows 0 and 1 under each mask. -/
theorem test_mask_rows :
    ([0, 1, 2, 3, 4, 5, 6, 7] : List (BitVec 3)).map (fun i => [0, 1].map fun y => (List.range 6).map fun x => (maskPred i x y).toNat)
      = [[[1, 0, 1, 0, 1, 0], [0, 1, 0, 1, 0, 1]], [[1, 1, 1, 1, 1, 1], [0, 0, 0, 0, 0, 0]],
         [[1, 0, 0, 1, 0, 0], [1, 0, 0, 1, 0, 0]], [[1, 0, 0, 1, 0, 0], [0, 0, 1, 0, 0, 1]],
         [[1, 1, 1, 0, 0, 0], [1, 1, 1, 0, 0, 0]], [[1, 1, 1, 1, 1, 1], [1, 0, 0, 0, 0, 0]],
         [[1, 1, 1, 1, 1, 1], [1, 1, 1, 0, 0, 0]], [[1, 0, 1, 0, 1, 0], [0, 0, 0, 1, 1, 1]]] := by decide +kernel

/-- R179's example: the checkerboard, 221 dark cells. -/
theorem test_maskapply :
    seen (fun t => (popcount (colours t.mem 21), darkOf t.mem [(0, 0), (1, 0), (20, 20)])) (exec (.maskapply 0) allLight)
      = some (221, [true, false, true]) := by decide +kernel
/-- R179: a symbol with an unset cell. -/
theorem test_maskapply_unset : seen State.errcode (exec (.maskapply 0) (unsetSymbol 1)) = some 7 := by decide +kernel

/-- R180's example (V42): an all-light version-1 symbol with the finder pattern in row 3. -/
theorem test_score :
    seen (fun t => (t.dark, t.penAdj, t.penBlk, t.penFind, t.penProp, t.penTotal))
        (exec .score (symbol1 fun x y => if y = 3 ∧ x ∈ [2, 4, 5, 6, 8] then 5 else 4))
      = some (5, 769, 1152, 40, 90, 2051) := by decide +kernel
theorem test_score_no_matrix : seen State.errcode (exec .score State.reset) = some 6 := by decide +kernel

/-- R181's example: the trial with mask 3, and the choice among the eight penalties it lists. -/
theorem test_masksel_trial : trialPenalty 21 allLight.mem 3 = 30 := by decide +kernel
/-- R177: the lowest penalty, the lowest index on ties. -/
theorem test_masksel_choice :
    [[0, 399, 849, 30, 420, 435, 407, 147], [7, 7, 7, 7, 7, 7, 7, 7], [9, 5, 6, 5, 9, 9, 9, 5], [8, 7, 6, 5, 4, 3, 2, 1]].map leastArgMin
      = [0, 0, 1, 7] := by decide +kernel

/-- R216's examples. -/
theorem test_fmtpack_l : seen State.result (exec (.fmtpack .l 0) State.reset) = some 0x77C4 := by decide +kernel
theorem test_fmtpack_m : seen State.result (exec (.fmtpack .m 0) State.reset) = some 0x5412 := by decide +kernel

/-- R217's example: the dark module dark, the ends of each strip light, the timing cell untouched. -/
theorem test_fmtrsv :
    seen (fun t => [(8, 13), (0, 8), (8, 8), (8, 14), (13, 8), (20, 8), (6, 8)].map fun p => cellAt t.mem p.1 p.2)
        (exec .fmtrsv (unsetSymbol 1))
      = some [⟨true, false, true⟩, ⟨true, false, false⟩, ⟨true, false, false⟩, ⟨true, false, false⟩, ⟨true, false, false⟩,
          ⟨true, false, false⟩, ⟨false, false, false⟩] := by decide +kernel
/-- R221: the dark-module cell is a target. -/
theorem test_fmtrsv_conflict : seen State.errcode (exec .fmtrsv { unsetSymbol 1 with mem := [(matLoc 8 13, 6)] }) = some 8 := by
  decide +kernel

/-- R218's example (V52): row 8 and column 8 of a version-1 symbol after `FMTPLACE L, 0`. -/
theorem test_fmtplace :
    seen (fun t => (darkOf t.mem ([0, 1, 2, 3, 4, 5, 7, 8, 13, 14, 15, 16, 17, 18, 19, 20].map fun x => (x, 8)),
        darkOf t.mem ([0, 1, 2, 3, 4, 5, 7, 8, 13, 14, 15, 16, 17, 18, 19, 20].map fun y => (8, y))))
        (exec (.fmtplace .l 0) (unsetSymbol 1))
      = some ([true, true, true, false, true, true, true, true, true, true, false, false, false, true, false, false],
          [false, false, true, false, false, false, true, true, true, true, true, true, false, true, true, true]) := by decide +kernel
/-- R218's corner case: the dark module is dark although bit 7 of the code of H, 5 is 0, as `(8, 8)` shows. -/
theorem test_fmtplace_dark_module :
    seen (fun t => darkOf t.mem [(8, 13), (8, 8)]) (exec (.fmtplace .h 5) (unsetSymbol 1)) = some [true, false] := by decide +kernel

/-- R219's example. -/
theorem test_verpack : seen State.result (exec (.verpack 7) State.reset) = some 0x07C94 := by decide +kernel
theorem test_verpack_range : seen State.errcode (exec (.verpack 6) State.reset) = some 2 := by decide +kernel

/-- R220's example (V55): the dark cells of region A at version 7, and that region B is its transpose. -/
theorem test_verplace :
    seen (fun t => ((List.range 6).flatMap fun y => [34, 35, 36].filterMap fun x =>
          if (cellAt t.mem x y).value = true ∧ cellAt t.mem x y = cellAt t.mem y x then some (x, y) else none))
        (exec .verplace (unsetSymbol 7))
      = some [(36, 0), (35, 1), (35, 2), (35, 3), (36, 3), (34, 4), (35, 4), (36, 4)] := by decide +kernel
/-- R220: below version 7 nothing is written. -/
theorem test_verplace_no_op : seen (fun t => (t.mem, t.done)) (exec .verplace (unsetSymbol 6)) = some ([], true) := by decide +kernel

/-! ## One turn of the host -/

/-- R37: a length of 257 is illegal, 256 is not. -/
theorem test_len_257 : seen (fun t => (t.lenA, t.herr)) (step (idle (.write 6 257))) = some (0, true) := by decide +kernel
theorem test_len_256 : seen (fun t => (t.lenA, t.herr)) (step (idle (.write 6 256))) = some (256, false) := by decide +kernel
/-- R63: bits 31:8 are ignored. -/
theorem test_buffer_write : seen (fun t => Memory.read t.mem 0x11FF) (step (idle (.write 0x11FF 0x1A5))) = some (some 0xA5) := by decide +kernel
/-- R64: row pitch 256; bits 31:3 are ignored. -/
theorem test_cell_write :
    seen (fun t => cellAt t.mem 2 20) (step { idle (.write 0x11402 0xFE) with ver := 1 }) = some ⟨true, true, false⟩ := by decide +kernel
/-- R64, R68: the cell one beyond the symbol. -/
theorem test_cell_outside : seen State.herr (step { idle (.write 0x10015 4) with ver := 1 }) = some true := by decide +kernel
/-- R68: a read of an unmapped location. -/
theorem test_unmapped : seen State.herr (step (idle (.read 0x18))) = some true := by decide +kernel
/-- R33, R69: `STATUS` is readable while BUSY, and only it. -/
theorem test_status_busy : seen (fun t => (t.rdata, t.herr)) (step (busy (.read 1))) = some (1, false) := by decide +kernel
theorem test_ver_busy : seen State.herr (step (busy (.read 4))) = some true := by decide +kernel
/-- R246, R69: no command is accepted in phase FAULT. -/
theorem test_fault_stays : seen (fun t => (t.phase, t.herr)) (step (faulty (.write 0 0x14000000))) = some (.fault, true) := by decide +kernel

/-- The first command after reset, placed as the host's `CMD` write places it (log 11). -/
theorem test_first_command : seen State.result (step (State.reset.withFetchWord 32 0x10008002)) = some 29 := by decide +kernel
theorem test_decodeTableWord : decodeTableWord 32 0x42000205 = some (.fmtplace .q 5) := by decide

/-- R279: the run of `GFEXP 8` from reset ends well. -/
theorem test_run_ends_well : ∃ k t, State.EndedWell { State.reset with script := hostScript [.command 0x11000008] } k t :=
  commandLine_endedWell (i := .gfexp 8) (by decide) (fun _ => ⟨_, rfl⟩) rfl rfl rfl

/-! ## Witnesses: what meets the hypotheses of the statements

A statement's name is in the witness's; a letter tells its clauses apart. Values stand at the ends of their ranges. -/

/-- The command word of `i` selects the row of `i`. -/
theorem row_of (i : Instr) : encode i &&& Laws.RowPattern.rowMask i = Laws.RowPattern.rowMatch i := by
  cases i with
  | gfmul a b => exact Laws.RowPattern.gfmul a b
  | gfexp idx => exact Laws.RowPattern.gfexp idx
  | gflog x => exact Laws.RowPattern.gflog x
  | pmul => exact Laws.RowPattern.pmul
  | pmod => exact Laws.RowPattern.pmod
  | genld d => exact Laws.RowPattern.genld d
  | rsenc e => exact Laws.RowPattern.rsenc e
  | minit v => exact Laws.RowPattern.minit v
  | maskapply m => exact Laws.RowPattern.maskapply m
  | score => exact Laws.RowPattern.score
  | masksel => exact Laws.RowPattern.masksel
  | fmtpack ec m => exact Laws.RowPattern.fmtpack ec m
  | fmtrsv => exact Laws.RowPattern.fmtrsv
  | fmtplace ec m => exact Laws.RowPattern.fmtplace ec m
  | verpack v => exact Laws.RowPattern.verpack v
  | verplace => exact Laws.RowPattern.verplace

theorem witness_DecodedWordIsItsEncoding : decode 0x420003F7 = .illegal .reservedBit ∧ decode 0x42000307 = .command (.fmtplace .h 7) := by
  decide

theorem row_mem (i : Instr) : (Laws.RowPattern.rowMask i, Laws.RowPattern.rowMatch i) ∈ opcodeMap := by
  cases i <;> simp [Laws.RowPattern.rowMask, Laws.RowPattern.rowMatch, opcodeMap]

/-- The rows that select a word, one by one. -/
theorem no_row {w : Word} (h : (opcodeMap.all fun r => w &&& r.1 != r.2) = true) : ∀ r ∈ opcodeMap, w &&& r.1 ≠ r.2 :=
  fun r hr => by simpa using List.all_eq_true.1 h r hr

/-- A word that no row selects is the word of no command. -/
theorem encode_ne {w : Word} (h : ∀ r ∈ opcodeMap, w &&& r.1 ≠ r.2) (i : Instr) : encode i ≠ w := fun e =>
  h _ (row_mem i) (e ▸ row_of i)

theorem witness_IllegalWordsAreNamed_unassigned : ∀ i : Instr, encode i ≠ 0 := encode_ne (no_row (by decide))

theorem witness_IllegalWordsAreNamed_reserved : ∀ i : Instr, encode i ≠ 0x10010000 := encode_ne (no_row (by decide))

theorem witness_StepRunsDecodedCommand :
    (running 0x15000000).CommandRuns ∧ decode (running 0x15000000).cmdreg = .command .pmod := by decide

theorem witness_IllegalWordFaults_a :
    (running 0x10010000).CommandRuns ∧ ∀ r ∈ opcodeMap, (running 0x10010000).cmdreg &&& r.1 ≠ r.2 :=
  ⟨by decide, no_row (by decide)⟩

theorem witness_IllegalWordFaults_b :
    (running 0x20000045).CommandRuns ∧ decode (running 0x20000045).cmdreg = .command (.genld 69)
      ∧ ¬ Instr.WellFormed (.genld 69) := by decide

theorem witness_FaultCausesInOrder_a :
    causeOf (.rsenc 69) { State.reset with lenA := 256 } = some .invalidInput
      ∧ causeOf (.gflog 0) State.reset = some .logZero ∧ causeOf .pmul { State.reset with lenA := 256, lenB := 2 } = some .length
      ∧ causeOf .pmod (operands [] [2]) = some .divisor ∧ causeOf .fmtrsv State.reset = some .noMatrix
      ∧ causeOf .score (unsetSymbol 1) = some .unsetCell
      ∧ causeOf .fmtrsv { unsetSymbol 1 with mem := [(matLoc 8 13, 6)] } = some .cellConflict := by decide +kernel

theorem witness_FaultCausesInOrder_b :
    causeOf (.rsenc 68) { State.reset with lenA := 188 } = none ∧ causeOf .pmul { State.reset with lenA := 256, lenB := 1 } = none
      ∧ causeOf .pmod (operands [] [1]) = none ∧ causeOf .verplace (unsetSymbol 40) = none := by decide +kernel

theorem witness_CommandWritesOnlyItsState :
    State.lenB { State.reset with lenB := 256 } ≤ 256 ∧ ∃ t, exec (.minit 1) { State.reset with lenB := 256 } = .next t :=
  ⟨by decide, _, rfl⟩

theorem witness_ResultsIgnoreLeftovers :
    State.lenA { State.reset with lenA := 256, lenB := 256 } ≤ 256 ∧ State.lenB { State.reset with lenA := 256, lenB := 256 } ≤ 256
      ∧ SameOperands { State.reset with lenA := 256, lenB := 256 }
          { State.reset with lenA := 256, lenB := 256, result := 7, lenC := 3, best := 5, dark := 9 }
      ∧ (∃ t, exec (.gfexp 8) { State.reset with lenA := 256, lenB := 256 } = .next t)
      ∧ ∃ t, exec (.gfexp 8) { State.reset with lenA := 256, lenB := 256, result := 7, lenC := 3, best := 5, dark := 9 } = .next t :=
  ⟨Nat.le_refl _, Nat.le_refl _, ⟨rfl, rfl, rfl, rfl, rfl, fun _ _ => rfl⟩, ⟨_, rfl⟩, ⟨_, rfl⟩⟩

theorem witness_CmdWriteStartsCommand :
    ((idle (.write 0 0xFFFFFFFF)).HostMoves ∧ (idle (.write 0 0xFFFFFFFF)).script = .write 0 0xFFFFFFFF :: [] ∧ (idle (.write 0 0xFFFFFFFF)).phase = .idle)
      ∧ ((busy (.write 0 5)).HostMoves ∧ (busy (.write 0 5)).script = .write 0 5 :: [] ∧ (busy (.write 0 5)).phase ≠ .idle)
      ∧ ((faulty (.write 0 5)).HostMoves ∧ (faulty (.write 0 5)).script = .write 0 5 :: [] ∧ (faulty (.write 0 5)).phase ≠ .idle)
      ∧ ((busy (.read 0)).HostMoves ∧ (busy (.read 0)).script = .read 0 :: []) := by decide

theorem witness_PhaseTransitions_accept :
    step (idle (.write 0 5)) = .next (idle (.write 0 5)).hostTurn ∧ (idle (.write 0 5)).hostTurn.phase ≠ (idle (.write 0 5)).phase :=
  ⟨rfl, by decide⟩

theorem witness_PhaseTransitions_complete : ∃ t, step (running 0x110001FF) = .next t ∧ t.phase ≠ (running 0x110001FF).phase :=
  ⟨_, rfl, by decide⟩

theorem witness_PhaseTransitions_fault : ∃ t, step (running 0) = .next t ∧ t.phase ≠ (running 0).phase := ⟨_, rfl, by decide⟩

theorem witness_PhaseTransitions_reset :
    step (busy .reset) = .next (busy .reset).hostTurn ∧ (busy .reset).hostTurn.phase ≠ (busy .reset).phase := ⟨rfl, by decide⟩

theorem witness_FaultLeftOnlyByReset :
    (faulty .poll).phase = .fault ∧ step (faulty .poll) = .next (faulty .poll).hostTurn
      ∧ (faulty .reset).phase = .fault ∧ step (faulty .reset) = .next (faulty .reset).hostTurn := ⟨rfl, rfl, rfl, rfl⟩

theorem witness_BusyEndsInFiniteTime : (busy .poll).phase = .busy ∧ (running 0).phase = .busy := ⟨rfl, rfl⟩

theorem witness_ResetInputRestoresResetState :
    ((busy .reset).HostMoves ∧ (busy .reset).script = .reset :: []) ∧ ((faulty .reset).HostMoves ∧ (faulty .reset).script = .reset :: []) := by
  decide

/-- A state of the invariant with something everywhere: an entry of A, two of C, a cell at the far corner of a version-1 symbol, scores,
and a command that has faulted. -/
def faultedWorld : State :=
  { State.reset with
    mem := [(baseA, 5), (baseC, 1), (baseC + 1, 0), (matLoc 20 20, 7)], lenA := 256, lenC := 2, ver := 1, phase := .fault
    cmdreg := 0x12000000, errcmd := 0x12000000, errcode := 3, penAdj := 1, penBlk := 3, penFind := 40, penProp := 10, penTotal := 54
    mpen := #v[9, 5, 6, 5, 9, 9, 9, 5], best := 1, script := [.poll] }

theorem witness_StepKeepsInvariant : faultedWorld.Inv ∧ step faultedWorld = .next faultedWorld.hostTurn := ⟨by decide +kernel, rfl⟩

theorem witness_StepKeepsSelection : faultedWorld.SelectionInv ∧ step faultedWorld = .next faultedWorld.hostTurn := ⟨by decide +kernel, rfl⟩

theorem witness_StatusRegister_read : (busy (.read 1)).HostMoves ∧ (busy (.read 1)).script = .read 1 :: [] := by decide

/-- An idle block with `DONE` and `HERR` set, about to accept a command. -/
def doneWorld : State := { idle (.write 0 5) with done := true, herr := true }

theorem witness_StatusRegister_sticky :
    (step doneWorld = .next doneWorld.hostTurn ∧ (∀ rest, doneWorld.script ≠ .reset :: rest) ∧ doneWorld.herr = true ∧ doneWorld.done = true)
      ∧ (step faultedWorld = .next faultedWorld.hostTurn ∧ (∀ rest, faultedWorld.script ≠ .reset :: rest) ∧ faultedWorld.phase = .fault) :=
  ⟨⟨rfl, by intro rest h; simp [doneWorld, idle] at h, rfl, rfl⟩, ⟨rfl, by intro rest h; simp [faultedWorld] at h, rfl⟩⟩

theorem witness_IllegalAccessesSetHerr_illegal :
    ((idle (.write 0x1FFFF 0)).HostMoves ∧ (idle (.write 0x1FFFF 0)).script = .write 0x1FFFF 0 :: [])
      ∧ (idle (.write 0x1FFFF 0)).IllegalWrite (0x1FFFF : Loc).toNat 0 :=
  ⟨by decide, by decide⟩

theorem witness_IllegalAccessesSetHerr_legal :
    ((idle (.write 7 256)).HostMoves ∧ (idle (.write 7 256)).script = .write 7 256 :: [])
      ∧ ¬ (idle (.write 7 256)).IllegalWrite (7 : Loc).toNat 256 :=
  ⟨by decide, by decide⟩

theorem witness_IllegalAccessesSetHerr_read :
    (busy (.read 0x17)).HostMoves ∧ (busy (.read 0x17)).script = .read 0x17 :: [] := by decide

theorem witness_RegisterReads :
    (faulty (.read 0x17)).phase ≠ .busy ∧ (0x17, 0) ∈ (faulty (.read 0x17)).registerMap
      ∧ (faulty (.read 0x17)).script = .read (BitVec.ofNat 17 0x17) :: []
      ∧ (idle (.read 1)).phase ≠ .busy ∧ (1, 0) ∈ (idle (.read 1)).registerMap
      ∧ (idle (.read 1)).script = .read (BitVec.ofNat 17 1) :: [] := by decide +kernel

theorem witness_LengthRegisterWrites :
    ((idle (.write 6 256)).phase = .idle ∧ (idle (.write 6 256)).script = .write 6 256 :: [])
      ∧ ((idle (.write 7 257)).phase = .idle ∧ (idle (.write 7 257)).script = .write 7 257 :: [])
      ∧ ((idle (.write 8 0)).phase = .idle ∧ (idle (.write 8 0)).script = .write 8 0 :: []) := by decide

theorem witness_BufferWindows_write :
    ((idle (.write 0x1000 5)).phase = .idle ∧ (idle (.write 0x1000 5)).script = .write (BitVec.ofNat 17 (baseA + 0)) 5 :: [])
      ∧ ((idle (.write 0x11FF 5)).phase = .idle ∧ (idle (.write 0x11FF 5)).script = .write (BitVec.ofNat 17 (baseB + 255)) 5 :: [])
      ∧ ((idle (.write 0x12FF 5)).phase = .idle ∧ (idle (.write 0x12FF 5)).script = .write (BitVec.ofNat 17 (baseC + 255)) 5 :: []) := by
  decide

/-- `faultedWorld`, in phase FAULT, with a read of this location pending. -/
def reading (loc : Loc) : State := { faultedWorld with script := [.read loc] }

theorem witness_BufferWindows_read :
    (reading 0x1000).phase ≠ .busy ∧ (baseA, (reading 0x1000).lenA) ∈ [(baseA, (reading 0x1000).lenA)]
      ∧ ((reading 0x1000).script = .read (BitVec.ofNat 17 (baseA + 0)) :: [] ∧ 0 < (reading 0x1000).lenA
        ∧ Memory.read (reading 0x1000).mem (baseA + 0) = some 5)
      ∧ ((reading 0x10FF).script = .read (BitVec.ofNat 17 (baseA + 255)) :: [] ∧ 255 < (reading 0x10FF).lenA
        ∧ Memory.read (reading 0x10FF).mem (baseA + 255) = none)
      ∧ ((reading 0x1202).script = .read (BitVec.ofNat 17 (baseC + 2)) :: [] ∧ (reading 0x1202).lenC ≤ 2) := by decide +kernel

/-- A version-40 symbol with this action of the host pending. -/
def on40 (op : HostOp) : State := { unsetSymbol 40 with script := [op] }

theorem witness_MatrixWindow_valid :
    (176 < 256 ∧ (on40 (.read 0x1B0B0)).phase ≠ .busy
        ∧ (on40 (.read 0x1B0B0)).script = .read (BitVec.ofNat 17 (0x10000 + 256 * 176 + 176)) :: []
        ∧ (on40 (.read 0x1B0B0)).ver ≠ 0 ∧ 176 < (on40 (.read 0x1B0B0)).side)
      ∧ ((on40 (.write 0x10000 5)).phase = .idle ∧ (on40 (.write 0x10000 5)).script = .write (BitVec.ofNat 17 (0x10000 + 256 * 0 + 0)) 5 :: []
        ∧ (on40 (.write 0x10000 5)).ver ≠ 0 ∧ 0 < (on40 (.write 0x10000 5)).side) := by decide

theorem witness_MatrixWindow_invalid :
    ((on40 (.read 0x100B1)).phase ≠ .busy ∧ (on40 (.read 0x100B1)).script = .read (BitVec.ofNat 17 (0x10000 + 256 * 0 + 177)) :: []
        ∧ ¬ ((on40 (.read 0x100B1)).ver ≠ 0 ∧ 177 < (on40 (.read 0x100B1)).side ∧ 0 < (on40 (.read 0x100B1)).side))
      ∧ ((idle (.write 0x1FFFF 5)).phase = .idle ∧ (idle (.write 0x1FFFF 5)).script = .write (BitVec.ofNat 17 (0x10000 + 256 * 255 + 255)) 5 :: []
        ∧ ¬ ((idle (.write 0x1FFFF 5)).ver ≠ 0 ∧ 255 < (idle (.write 0x1FFFF 5)).side ∧ 255 < (idle (.write 0x1FFFF 5)).side)) := by decide

theorem witness_BufferOperands : 255 < faultedWorld.lenA ∧ 0 < (operands [] [7]).lenB := by decide

theorem witness_ExpTable : 0 ≤ 253 ∧ 253 ≤ 253 ∧ 255 ≤ 255 ∧ 255 ≤ 511 ∧ 511 ≤ 511 ∧ (255 : Byte) ≠ 0 := by decide

theorem witness_GeneratorPolynomials : 1 ≤ 1 ∧ 1 ≤ 68 := by decide

theorem witness_LogTable : (255 : Byte) ≠ 0 ∧ (1 : Byte) ≠ 0 := by decide

theorem witness_GfMulOfLogs : gfLog 142 = some 254 ∧ gfLog 1 = some 0 ∧ (142 : Byte) ≠ 0 := by decide +kernel

theorem witness_GflogRule : (1 : Byte) ≠ 0 ∧ (255 : Byte) ≠ 0 := by decide

theorem witness_PolyMulIsConvolution : ([1, 2] : Poly) ≠ [] ∧ ([4] : Poly) ≠ [] ∧ 1 < ([1, 2] : Poly).length + ([4] : Poly).length - 1 := by
  decide

theorem witness_PmulRule_a : 1 ≤ (operands [1, 2] [1, 4]).lenA ∧ 1 ≤ (operands [1, 2] [1, 4]).lenB
    ∧ (operands [1, 2] [1, 4]).lenA + (operands [1, 2] [1, 4]).lenB - 1 ≤ 256
    ∧ State.lenA { State.reset with lenA := 256, lenB := 1 } + State.lenB { State.reset with lenA := 256, lenB := 1 } - 1 ≤ 256 := by decide

theorem witness_PmulRule_b : State.reset.lenA = 0
    ∧ 256 < State.lenA { State.reset with lenA := 256, lenB := 2 } + State.lenB { State.reset with lenA := 256, lenB := 2 } - 1 := by decide

/-- Operands all written. -/
theorem witness_PmulRule_written :
    (operands [1, 2] [1, 4]).listA = ([1, 2] : Poly).map some ∧ (operands [1, 2] [1, 4]).listB = ([1, 4] : Poly).map some := by decide +kernel

/-- With `A[0]` unwritten the last entry of the product, `1 * 1`, has a value, the two that depend on `A[0]` have none. -/
theorem witness_PmulRule_unwritten :
    seen (fun t => (t.lenC, listC t)) (exec .pmul (partly [none, some 1] [some 1, some 1])) = some (3, [none, none, some 1, none])
      ∧ Fills (partly [none, some 1] [some 1, some 1]).listA [9, 1] ∧ Fills (partly [none, some 1] [some 1, some 1]).listB [1, 1] := by
  decide +kernel

theorem witness_PolyModDividesStepwise :
    ([1, 3, 2] : Poly).head? = some 1 ∧ ([0, 5] : Poly).length < ([1, 3, 2] : Poly).length
      ∧ ([1, 3, 2] : Poly).length ≤ ([1, 0, 0] : Poly).length := by decide

theorem witness_PolyModIsRemainder : ([1] : Poly).head? = some 1 ∧ ([1] : Poly).length ≤ ([0] : Poly).length := by decide

theorem witness_PmodRule_a :
    1 ≤ (operands [1, 0, 0] [1, 3, 2]).lenB ∧ (operands [1, 0, 0] [1, 3, 2]).lenB ≤ 256 ∧ (operands [1, 0, 0] [1, 3, 2]).entry baseB = 1
      ∧ (operands [1, 0, 0] [1, 3, 2]).lenB ≤ (operands [1, 0, 0] [1, 3, 2]).lenA
      ∧ (operands [1, 0, 0] [1, 3, 2]).listA = ([1, 0, 0] : Poly).map some
      ∧ (operands [1, 0, 0] [1, 3, 2]).listB = ([1, 3, 2] : Poly).map some := by decide +kernel

theorem witness_PmodRule_b :
    State.reset.lenB = 0 ∧ (operands [1] [2]).entry baseB ≠ 1 ∧ Memory.read (operands [1] [2]).mem baseB = some 2 := by decide +kernel

/-- A dividend shorter than the divisor, its first entry unwritten. -/
theorem witness_PmodRule_short :
    (partly [none, some 5] [some 1, some 3, some 2]).lenA < (partly [none, some 5] [some 1, some 3, some 2]).lenB
      ∧ 1 < (partly [none, some 5] [some 1, some 3, some 2]).lenA
      ∧ (partly [none, some 5] [some 1, some 3, some 2]).entry baseB = 1 := by decide +kernel

/-- With `A[1]` unwritten the remainder by `x` is still the last entry. -/
theorem witness_PmodRule_unwritten :
    seen (fun t => (t.lenC, listC t)) (exec .pmod (partly [some 1, none, some 5] [some 1, some 0])) = some (1, [some 5, none, none, none])
      ∧ (partly [some 1, none, some 5] [some 1, some 0]).entry baseB = 1
      ∧ Fills (partly [some 1, none, some 5] [some 1, some 0]).listA [1, 9, 5]
      ∧ Fills (partly [some 1, none, some 5] [some 1, some 0]).listB [1, 0] := by decide +kernel

theorem witness_GenldRule : (68 : BitVec 7).toNat ≤ 68 ∧ 69 ≤ (69 : BitVec 7).toNat ∧ (0 : BitVec 7).toNat ≤ 68 := by decide

theorem witness_RsEncodeDivisible : ([25] : Poly) ≠ [] ∧ 0 ≤ 68 := by decide

theorem witness_RsencRule :
    (68 : BitVec 7).toNat ≤ 68 ∧ State.lenA { State.reset with lenA := 188 } + (68 : BitVec 7).toNat ≤ 256
      ∧ 69 ≤ (69 : BitVec 7).toNat ∧ 256 < State.lenA { State.reset with lenA := 189 } + (68 : BitVec 7).toNat := by decide

/-- A block all written, and one with an entry unwritten, of whose EC codewords none has a value. -/
theorem witness_RsencRule_entries :
    (operands [25, 9, 125, 250] []).listA = ([25, 9, 125, 250] : Poly).map some
      ∧ Fills (operands [25, 9, 125, 250] []).listA [25, 9, 125, 250]
      ∧ seen (fun t => (t.lenC, listC t)) (exec (.rsenc 2) (operands [25, 9, 125, 250] [])) = some (2, [some 0, some 151, none, none])
      ∧ seen (fun t => (t.lenC, listC t)) (exec (.rsenc 2) (partly [some 25, none] [])) = some (2, [none, none, none, none]) := by
  decide +kernel

theorem witness_RscheckAcceptsEncodedBlock :
    ([25] : Poly) ≠ [] ∧ (operands ([25] ++ rsEncode [25] 2) [1, 3, 2]).listA = ([25] ++ rsEncode [25] 2 : Poly).map some
      ∧ (operands ([25] ++ rsEncode [25] 2) [1, 3, 2]).listB = (gen 2).map some := by decide +kernel

theorem witness_MaskTogglesCodewordCells : 177 ≤ 177 ∧ 176 < 177 ∧ ∀ x y, x < 177 → y < 177 → matLoc 177 0 ≠ matLoc x y := by
  refine ⟨Nat.le_refl _, by omega, fun x y hx _ => ?_⟩
  simp only [matLoc]; omega

theorem witness_ProportionIsExact : (40 : Fin 41) ≠ 0 ∧ 31329 ≤ sideOf 40 * sideOf 40 ∧ (1 : Fin 41) ≠ 0 := by decide

theorem witness_WidthsSuffice : (40 : Fin 41) ≠ 0 ∧ 176 < sideOf 40 ∧ gfLog 142 = some 254 := by decide +kernel

theorem witness_MinitRule : 1 ≤ (1 : BitVec 6).toNat ∧ (40 : BitVec 6).toNat ≤ 40 ∧ (0 : BitVec 6).toNat = 0 ∧ 41 ≤ (41 : BitVec 6).toNat := by
  decide

/-- For `MaskapplyRule`, `ScoreRule` and `MaskselRule`. -/
theorem witness_MaskRules_a : allLight.ver ≠ 0 ∧ allLight.AllSet := by decide +kernel

/-- No codeword cell, and storage in canonical form. -/
theorem witness_MaskapplyRule_functional :
    (symbol1 fun _ _ => 4).ver ≠ 0 ∧ (symbol1 fun _ _ => 4).AllSet ∧ Memory.wf (symbol1 fun _ _ => 4).mem
      ∧ ∀ x < (symbol1 fun _ _ => 4).side, ∀ y < (symbol1 fun _ _ => 4).side,
          (cellAt (symbol1 fun _ _ => 4).mem x y).isCodeword = false := by decide +kernel

/-- The symbol of the checkerboard. -/
theorem witness_MaskapplyRule_checkerboard :
    allLight.ver = 1 ∧ ∀ x < 21, ∀ y < 21, cellAt allLight.mem x y = ⟨true, true, false⟩ := by decide +kernel

theorem witness_MaskRules_b : State.reset.ver = 0 ∧ (unsetSymbol 40).ver ≠ 0 ∧ ¬ (unsetSymbol 40).AllSet := by
  refine ⟨rfl, by decide, fun h => ?_⟩
  exact absurd (h 0 (by decide) 0 (by decide)) (by decide)

/-- For `FmtrsvRule` and `FmtplaceRule`. -/
theorem witness_FormatRules :
    (unsetSymbol 1).ver ≠ 0 ∧ ¬ (unsetSymbol 1).Conflict (fmtCells (unsetSymbol 1).side)
      ∧ State.ver { unsetSymbol 1 with mem := [(matLoc 8 13, 6)] } ≠ 0
      ∧ State.Conflict { unsetSymbol 1 with mem := [(matLoc 8 13, 6)] } (fmtCells 21) ∧ State.reset.ver = 0 := by decide +kernel

theorem witness_VerpackRule :
    7 ≤ (7 : BitVec 6).toNat ∧ (40 : BitVec 6).toNat ≤ 40 ∧ (6 : BitVec 6).toNat ≤ 6 ∧ 41 ≤ (41 : BitVec 6).toNat := by decide

theorem witness_VerplaceRule :
    7 ≤ (unsetSymbol 7).ver.val ∧ ¬ (unsetSymbol 7).Conflict (verCells (unsetSymbol 7).side)
      ∧ (unsetSymbol 6).ver ≠ 0 ∧ (unsetSymbol 6).ver.val ≤ 6 ∧ State.reset.ver = 0
      ∧ State.Conflict { unsetSymbol 7 with mem := [(matLoc 34 0, 6)] } (verCells 45) := by decide +kernel

theorem witness_CellKindsAreKept :
    State.lenB faultedWorld ≤ 256 ∧ 20 < faultedWorld.side ∧ (cellAt faultedWorld.mem 20 20).isSet = true
      ∧ (cellAt faultedWorld.mem 20 20).isCodeword = true ∧ (∃ t, exec (.gfexp 511) faultedWorld = .next t)
      ∧ (cellAt ({ faultedWorld with mem := [(matLoc 0 0, 5)] } : State).mem 0 0).isSet = true
      ∧ (cellAt ({ faultedWorld with mem := [(matLoc 0 0, 5)] } : State).mem 0 0).isCodeword = false :=
  ⟨by decide, by decide, by decide +kernel, by decide +kernel, ⟨_, rfl⟩, by decide +kernel, by decide +kernel⟩

end Sys2Proof.Tests
end

section
/-! SUPPORT. What a command writes: one inversion lemma for `exec`, and what each kind of write leaves unchanged (10_state.md R26, R31). -/

namespace Sys2Proof.Machine

/-- The writes that command `i` makes when it completes lead from `s` to `u`, and its preconditions hold: one constructor for each kind of
write (10_state.md R31). -/
inductive Writes (s : State) : Instr → State → Prop
  | result {i : Instr} (hi : writesResult i = true) (v : BitVec 18) : Writes s i (s.setResult v)
  | buffer {i : Instr} (hi : writesC i = true) (p : List Entry) (hp : s.lenB ≤ 256 → p.length ≤ 256) : Writes s i (s.setC p)
  | version (w : BitVec 6) (v : Fin 41) : Writes s (.minit w) ((s.setVer v).setMem (Memory.clearMatrix s.mem))
  | mask (m : BitVec 3) (hu : s.hasUnsetCell = false) : Writes s (.maskapply m) (s.setMem (applyMask s.side m s.mem))
  | score (hu : s.hasUnsetCell = false) : Writes s .score (s.setScore (penaltyOf s.side s.mem))
  | selection (hu : s.hasUnsetCell = false) : Writes s .masksel s.applySelection
  | format {i : Instr} (hi : i = .fmtrsv ∨ ∃ ec m, i = .fmtplace ec m) (hv : s.ver.val ≠ 0)
      (hc : s.hasConflict (fmtCells s.side) = false) (c : BitVec Config.fmtBits) (dm : Bool) :
      Writes s i (s.setMem (placeFormat s.side c dm s.mem))
  | stamp (hc : s.hasConflict (versionTargets s.ver) = false) : Writes s .verplace (State.stampVersion params s)

variable {s t u : State} {i : Instr}

/-! ## The inversion of `exec` -/

/-- A command that is one `conclude` faults, or completes with the writes that its preconditions allow. -/
theorem conclude_writes {checks : List (Bool × Cause)} {effect : State → State} (h : conclude checks effect s = .next t)
    (hw : firstFailing checks = none → Writes s i (effect s)) :
    (∃ c, t = s.faultEntry c) ∨ ∃ u, Writes s i u ∧ t = u.complete := by
  rcases conclude_cases h with ⟨c, -, ht⟩ | ⟨hn, ht⟩
  · exact .inl ⟨c, ht⟩
  · exact .inr ⟨_, hw hn, ht⟩

/-- All of a list of preconditions hold where none of them is reported as failing. -/
theorem firstFailing_eq_none {checks : List (Bool × Cause)} : firstFailing checks = none ↔ ∀ c ∈ checks, c.1 = false := by
  induction checks with
  | nil => simp
  | cons c checks ih => obtain ⟨b, cause⟩ := c; cases b <;> simp [ih]

theorem unset_of_maskChecks (h : firstFailing (maskChecks s) = none) : s.hasUnsetCell = false :=
  firstFailing_eq_none.1 h (s.hasUnsetCell, .unsetCell) (by simp [maskChecks])

theorem placeable_of_placerChecks {targets : List BitCell} (h : firstFailing (placerChecks s targets) = none) :
    s.ver.val ≠ 0 ∧ s.hasConflict targets = false := by
  have h := firstFailing_eq_none.1 h
  exact ⟨by simpa [State.hasNoMatrix] using h (s.hasNoMatrix, .noMatrix) (by simp [placerChecks]),
    h (s.hasConflict targets, .cellConflict) (by simp [placerChecks])⟩

theorem length_listA (s : State) : s.listA.length = s.lenA := by simp [State.listA, State.bufferList]

theorem length_listB (s : State) : s.listB.length = s.lenB := by simp [State.listB, State.bufferList]

/-- The product of the operands fits in C where `PMUL` has not faulted (R127). -/
theorem length_pmul_le (hA : ¬ (s.lenA = 0 ∨ s.lenB = 0)) (hcap : s.lenA + s.lenB - 1 ≤ 256) :
    (openPolyMul s.listA s.listB).length ≤ 256 := by
  have ha : s.listA ≠ [] := by rw [← List.length_pos_iff, length_listA]; omega
  have hb : s.listB ≠ [] := by rw [← List.length_pos_iff, length_listB]; omega
  rw [length_openPolyMul ha hb, length_listA, length_listB]; exact hcap

/-- The remainder is shorter than the divisor, so it fits where the divisor does (R123, R128). -/
theorem length_pmod_le (draw : Nat → Byte) (h0 : s.lenB ≠ 0) (hB : s.lenB ≤ 256) :
    (openPolyMod draw s.listA s.listB).length ≤ 256 := by
  have := length_openPolyMod_lt draw s.listA (q := s.listB) (by rw [length_listB]; omega)
  rw [length_listB] at this; omega

/-- Everything a command can do: enter a fault, or make its writes and complete (R240, R241). -/
theorem exec_cases (h : exec i s = .next t) : (∃ c, t = s.faultEntry c) ∨ ∃ u, Writes s i u ∧ t = u.complete := by
  cases i with
  | gfmul a b =>
    simp only [exec, execGfmul] at h
    exact conclude_writes h fun _ => .result rfl _
  | gfexp idx =>
    simp only [exec, execGfexp] at h
    exact conclude_writes h fun _ => .result rfl _
  | gflog x =>
    simp only [exec, execGflog] at h
    split at h
    · exact .inl ⟨_, (Host.Outcome.next.inj h).symm⟩
    · exact .inr ⟨_, .result rfl _, (Host.Outcome.next.inj h).symm⟩
  | pmul =>
    simp only [exec, execPmul] at h
    refine conclude_writes h fun hn => .buffer rfl _ fun _ => ?_
    have hn := firstFailing_eq_none.1 hn
    simp only [List.forall_mem_cons, decide_eq_false_iff_not] at hn
    obtain ⟨hA, hcap, -⟩ := hn
    exact length_pmul_le hA (Nat.le_of_not_lt hcap)
  | pmod =>
    simp only [exec, execPmod] at h
    refine conclude_writes h fun hn => .buffer rfl _ fun hB => ?_
    have hn := firstFailing_eq_none.1 hn
    simp only [List.forall_mem_cons, decide_eq_false_iff_not] at hn
    exact length_pmod_le _ (fun h0 => hn.1 (.inl h0)) hB
  | genld d =>
    simp only [exec, execGenld] at h
    refine conclude_writes h fun _ => .buffer rfl _ fun _ => ?_
    rw [List.length_map, length_gen]; have := d.isLt; omega
  | rsenc e =>
    simp only [exec, execRsenc] at h
    refine conclude_writes h fun _ => .buffer rfl _ fun _ => ?_
    rw [length_openRsEncode]; have := e.isLt; omega
  | minit v =>
    simp only [exec, execMinit] at h
    exact conclude_writes h fun _ => .version v _
  | maskapply m =>
    simp only [exec, execMaskapply] at h
    exact conclude_writes h fun hn => .mask m (unset_of_maskChecks hn)
  | score =>
    simp only [exec, execScore] at h
    exact conclude_writes h fun hn => .score (unset_of_maskChecks hn)
  | masksel =>
    simp only [exec, execMasksel] at h
    exact conclude_writes h fun hn => .selection (unset_of_maskChecks hn)
  | fmtpack ec m =>
    simp only [exec, execFmtpack, fmtpackFor] at h
    exact conclude_writes h fun _ => .result rfl _
  | fmtrsv =>
    simp only [exec, execFmtrsv, fmtrsvFor] at h
    refine conclude_writes h fun hn => ?_
    obtain ⟨hv, hc⟩ := placeable_of_placerChecks hn
    exact .format (.inl rfl) hv hc _ _
  | fmtplace ec m =>
    simp only [exec, execFmtplace, fmtplaceFor] at h
    refine conclude_writes h fun hn => ?_
    obtain ⟨hv, hc⟩ := placeable_of_placerChecks hn
    exact .format (.inr ⟨ec, m, rfl⟩) hv hc _ _
  | verpack v =>
    simp only [exec, execVerpack, verpackFor] at h
    split at h
    · exact .inl ⟨_, (Host.Outcome.next.inj h).symm⟩
    · exact .inr ⟨_, .result rfl _, (Host.Outcome.next.inj h).symm⟩
  | verplace =>
    simp only [exec, execVerplace, verplaceFor] at h
    exact conclude_writes h fun hn => .stamp (placeable_of_placerChecks hn).2

/-! ## What the writes of the matrix leave unchanged -/

theorem ne_matLoc_of_lt {loc : Nat} (h : loc < baseMat) (x y : Nat) : loc ≠ matLoc x y := by
  unfold matLoc; omega

theorem read_writeCell_of_lt (m : Memory) (x y : Nat) (c : Cell) {loc : Nat} (h : loc < baseMat) :
    Memory.read (writeCell m x y c) loc = Memory.read m loc := by
  rw [writeCell, Memory.read_write, if_neg (ne_matLoc_of_lt h x y).symm]

theorem read_placeBits_of_lt {w : Nat} (c : BitVec w) (cells : List BitCell) (m : Memory) {loc : Nat} (h : loc < baseMat) :
    Memory.read (placeBits c cells m) loc = Memory.read m loc :=
  read_placeBits_of_not_target c cells m fun p _ => ne_matLoc_of_lt h p.x p.y

theorem read_placeFormat_of_lt (n : Nat) (c : BitVec Config.fmtBits) (dm : Bool) (m : Memory) {loc : Nat} (h : loc < baseMat) :
    Memory.read (placeFormat n c dm m) loc = Memory.read m loc := by
  rw [placeFormat, read_writeCell_of_lt _ _ _ _ h, read_placeBits_of_lt _ _ _ h]

theorem read_applyMask_of_lt (n : Nat) (k : BitVec 3) (m : Memory) {loc : Nat} (h : loc < baseMat) :
    Memory.read (applyMask n k m) loc = Memory.read m loc := by
  have hb : maskedByte n k loc = id := funext fun b => by simp [maskedByte, maskToggles, Nat.not_le.2 h]
  rw [Memory.read_applyMask, hb, Option.map_id, id]

/-! ## The stamp of the version -/

/-- Below version 7 `VERPLACE` writes nothing; from there on it places a code (R220). -/
theorem stampVersion_cases (p : Config.Params) (s : State) :
    State.stampVersion p s = s ∨ (7 ≤ s.ver.val ∧ ∃ c, State.stampVersion p s = s.setMem (placeVersion s.side c s.mem)) := by
  unfold State.stampVersion
  split
  · exact .inl rfl
  · rename_i c hc
    have hv : ¬ (s.ver.val < 7 ∨ 40 < s.ver.val) := fun h => by rw [(versionCode_eq_none p _).2 h] at hc; cases hc
    exact .inr ⟨by omega, c, rfl⟩

/-! ## The frame of the writes -/

/-- The writes of a command change no register that every command leaves alone. -/
theorem Writes.keeps_common (h : Writes s i u) :
    u.lenA = s.lenA ∧ u.lenB = s.lenB ∧ u.cmdreg = s.cmdreg ∧ u.herr = s.herr ∧ u.script = s.script
      ∧ u.busyFor = s.busyFor ∧ u.rdata = s.rdata ∧ u.errcode = s.errcode ∧ u.errcmd = s.errcmd := by
  cases h with
  | stamp _ => rcases stampVersion_cases params s with e | ⟨-, c, e⟩ <;> rw [e] <;> simp
  | _ => simp [State.applySelection]

/-- The storage after a command's writes: unchanged, with a new content of C, or changed in the matrix only. -/
theorem Writes.storage_cases (h : Writes s i u) :
    (u.mem = s.mem ∧ u.lenC = s.lenC)
      ∨ (writesC i = true ∧ ∃ p, (s.lenB ≤ 256 → p.length ≤ 256) ∧ u = s.setC p)
      ∨ (writesMatrix i = true ∧ u.lenC = s.lenC ∧ ∀ loc, loc < baseMat → Memory.read u.mem loc = Memory.read s.mem loc) := by
  cases h with
  | result _ _ => exact .inl ⟨rfl, rfl⟩
  | score _ => exact .inl ⟨rfl, rfl⟩
  | buffer hi p hp => exact .inr (.inl ⟨hi, p, hp, rfl⟩)
  | version w v =>
    exact .inr (.inr ⟨rfl, rfl, fun loc hl => by rw [State.setMem_mem, Memory.read_clearMatrix, if_neg (Nat.not_le.2 hl)]⟩)
  | mask m _ => exact .inr (.inr ⟨rfl, rfl, fun loc hl => read_applyMask_of_lt _ m _ hl⟩)
  | selection _ => exact .inr (.inr ⟨rfl, rfl, fun loc hl => read_applyMask_of_lt _ _ _ hl⟩)
  | format hi _ _ c dm =>
    exact .inr (.inr ⟨by rcases hi with rfl | ⟨ec, m, rfl⟩ <;> rfl, rfl, fun loc hl => read_placeFormat_of_lt _ c dm _ hl⟩)
  | stamp _ =>
    rcases stampVersion_cases params s with e | ⟨-, c, e⟩ <;> rw [e]
    · exact .inl ⟨rfl, rfl⟩
    · exact .inr (.inr ⟨rfl, rfl, fun loc hl => read_placeBits_of_lt c _ _ hl⟩)

/-- A command that does not write C leaves its entries alone. -/
theorem Writes.read_bufferC (h : Writes s i u) (hi : writesC i = false) {loc : Nat} (hl : loc < baseMat) :
    Memory.read u.mem loc = Memory.read s.mem loc := by
  rcases h.storage_cases with ⟨e, -⟩ | ⟨hc, -⟩ | ⟨-, -, e⟩
  · rw [e]
  · rw [hi] at hc; cases hc
  · exact e loc hl

/-- No command writes below the matrix window outside C. -/
theorem Writes.read_outside (h : Writes s i u) (hB : s.lenB ≤ 256) {loc : Nat}
    (hl : loc < baseC ∨ (baseC + 256 ≤ loc ∧ loc < baseMat)) : Memory.read u.mem loc = Memory.read s.mem loc := by
  have hm : loc < baseMat := by simp only [baseC, baseMat] at *; omega
  rcases h.storage_cases with ⟨e, -⟩ | ⟨-, p, hp, rfl⟩ | ⟨-, -, e⟩
  · rw [e]
  · rw [State.setC_mem, Memory.read_replaceC _ _ _ (hp hB), if_neg (by omega)]
  · exact e loc hm

/-- A command that does not write the matrix leaves its cells alone. -/
theorem Writes.read_matrix (h : Writes s i u) (hB : s.lenB ≤ 256) (hi : writesMatrix i = false) {loc : Nat} (hl : baseMat ≤ loc) :
    Memory.read u.mem loc = Memory.read s.mem loc := by
  rcases h.storage_cases with ⟨e, -⟩ | ⟨-, p, hp, rfl⟩ | ⟨hm, -⟩
  · rw [e]
  · rw [State.setC_mem, Memory.read_replaceC _ _ _ (hp hB), if_neg (by simp only [baseC, baseMat] at *; omega)]
  · rw [hi] at hm; cases hm

/-- Each other register is written only by the commands named for it (R31, R35 to R39). -/
theorem Writes.registers (h : Writes s i u) :
    (writesResult i = false → u.result = s.result) ∧ (writesC i = false → u.lenC = s.lenC)
      ∧ (writesVer i = false → u.ver = s.ver)
      ∧ (writesScore i = false → u.dark = s.dark ∧ u.penAdj = s.penAdj ∧ u.penBlk = s.penBlk ∧ u.penFind = s.penFind
          ∧ u.penProp = s.penProp ∧ u.penTotal = s.penTotal)
      ∧ (writesSelection i = false → u.mpen = s.mpen ∧ u.best = s.best) := by
  cases h with
  | result hi _ => simp [hi]
  | buffer hi _ _ => simp [hi]
  | stamp _ => rcases stampVersion_cases params s with e | ⟨-, c, e⟩ <;> rw [e] <;> simp
  | _ => simp [State.applySelection, writesVer, writesScore, writesSelection]

end Sys2Proof.Machine

open Sys2Proof.Machine

/-- Settles O9: a fault changes none of this, and the writes of a completing command are of the kinds of `Writes`. -/
theorem commandWritesOnlyItsState : Obligations.CommandWritesOnlyItsState := by
  intro i s t hB h
  rcases exec_cases h with ⟨c, rfl⟩ | ⟨u, hu, rfl⟩
  · simp
  · obtain ⟨hA, hB', hcmd, hherr, hscript, hbusy, hrdata, -, -⟩ := hu.keeps_common
    obtain ⟨hresult, hC, hver, hscore, hsel⟩ := hu.registers
    refine ⟨hA, hB', hcmd, hherr, hscript, hbusy, hrdata, fun loc hl => hu.read_outside hB hl, hresult,
      fun hi => ⟨hC hi, fun loc _ hl => hu.read_bufferC hi ?_⟩, hver, hscore, hsel, fun hi loc hl => hu.read_matrix hB hi hl⟩
    simp only [baseC, baseMat] at *; omega

end

section
/-! SUPPORT. The bounds of the penalties (10_state.md R41), and the least index of a list's minimum (42_matrix_mask.md R177). -/

namespace Sys2Proof.Machine

/-! ## The lines of a symbol -/

/-- A symbol has `n` rows and `n` columns, each of `n` cells. -/
theorem length_symbolLines (n : Nat) (f : Nat → Nat → Bool) : (symbolLines n (grid n f)).length = 2 * n := by
  simp [symbolLines, grid]; omega

theorem length_of_mem_grid {n : Nat} {f : Nat → Nat → Bool} {row : List Bool} (h : row ∈ grid n f) : row.length = n := by
  obtain ⟨y, -, rfl⟩ := List.mem_map.1 h; simp

theorem length_grid (n : Nat) (f : Nat → Nat → Bool) : (grid n f).length = n := by simp [grid]

theorem length_of_mem_symbolLines {n : Nat} {f : Nat → Nat → Bool} {line : List Bool} (h : line ∈ symbolLines n (grid n f)) :
    line.length = n := by
  rcases List.mem_append.1 h with h | h
  · exact length_of_mem_grid h
  · obtain ⟨x, -, rfl⟩ := List.mem_map.1 h
    rw [List.length_map, length_grid]

/-- A score of the lines is at most `2n` times what one line of `n` cells can score. -/
theorem sum_symbolLines_le {n bound : Nat} (f : Nat → Nat → Bool) (score : List Bool → Nat)
    (h : ∀ line, line.length = n → score line ≤ bound) : ((symbolLines n (grid n f)).map score).sum ≤ 2 * n * bound := by
  have hs := List.sum_le_card_nsmul ((symbolLines n (grid n f)).map score) bound fun x hx => by
    obtain ⟨line, hl, rfl⟩ := List.mem_map.1 hx
    exact h line (length_of_mem_symbolLines hl)
  simpa [length_symbolLines] using hs

/-! ## The four components -/

theorem runScore_le (run : Nat) : runScore run ≤ run - 2 := by
  unfold runScore Config.runThreshold Config.runBase; split <;> omega

/-- The runs in a rest of a line after `run` cells score at most two fewer than there are cells (R172). -/
theorem runsScore_le (colour : Bool) (run : Nat) (line : List Bool) : runsScore colour run line ≤ run + line.length - 2 := by
  induction line generalizing colour run with
  | nil => exact runScore_le run
  | cons c cs ih =>
    have hrun := runScore_le run
    have hsame := ih colour (run + 1)
    have hnew := ih c 1
    simp only [runsScore, List.length_cons]
    split <;> omega

theorem lineAdj_le (line : List Bool) : lineAdj line ≤ line.length - 2 := by
  cases line with
  | nil => exact Nat.zero_le _
  | cons c cs => have := runsScore_le c 1 cs; simp only [lineAdj, List.length_cons]; omega

/-- R41: adjacency scores at most `2N(N-2)`. -/
theorem penAdjOf_le (n : Nat) (f : Nat → Nat → Bool) : penAdjOf n (grid n f) ≤ 2 * n * (n - 2) :=
  sum_symbolLines_le f lineAdj fun line hl => hl ▸ lineAdj_le line

/-- Two rows of `n` cells have at most `n - 1` uniform blocks (R173). -/
theorem blocksOfRows_le (upper lower : List Bool) : blocksOfRows upper lower ≤ 3 * (upper.length - 1) := by
  induction upper, lower using blocksOfRows.induct with
  | case1 a b upper c d lower ih =>
    simp only [blocksOfRows, Config.blockScore, List.length_cons] at ih ⊢
    split <;> omega
  | case2 upper lower h => rw [blocksOfRows.eq_2 _ _ h]; exact Nat.zero_le _

theorem penBlkOf_le {n : Nat} (rows : List (List Bool)) (h : ∀ row ∈ rows, row.length = n) :
    penBlkOf rows ≤ (rows.length - 1) * (3 * (n - 1)) := by
  induction rows with
  | nil => exact Nat.zero_le _
  | cons upper rows ih =>
    cases rows with
    | nil => exact Nat.zero_le _
    | cons lower rest =>
      have hb := blocksOfRows_le upper lower
      rw [h upper (by simp)] at hb
      have hr := ih fun row hrow => h row (by simp [hrow])
      simp only [List.length_cons, Nat.add_sub_cancel] at hr
      simp only [penBlkOf, List.length_cons, Nat.add_sub_cancel]
      rw [Nat.succ_mul]; omega

/-- R41: blocks score at most `3(N-1)^2`. -/
theorem penBlkOf_grid_le (n : Nat) (f : Nat → Nat → Bool) : penBlkOf (grid n f) ≤ 3 * (n - 1) ^ 2 := by
  have h := penBlkOf_le (grid n f) fun row hrow => length_of_mem_grid hrow
  rw [length_grid] at h
  calc penBlkOf (grid n f) ≤ (n - 1) * (3 * (n - 1)) := h
    _ = 3 * (n - 1) ^ 2 := by ring

/-- A line of `n` cells has at most `n - 10` finder-like windows (R174). -/
theorem lineFind_le (line : List Bool) : lineFind line ≤ 40 * (line.length - 10) := by
  induction line with
  | nil => exact Nat.zero_le _
  | cons c cs ih =>
    simp only [lineFind, Config.finderScore, List.length_cons]
    split
    · rename_i h
      have hl : ((c :: cs).take 11).length = 11 := by rcases h with h | h <;> rw [h] <;> rfl
      rw [List.length_take, List.length_cons] at hl
      omega
    · omega

/-- R41: finder-like windows score at most `40 * 2N(N-10)`. -/
theorem penFindOf_le (n : Nat) (f : Nat → Nat → Bool) : penFindOf n (grid n f) ≤ 40 * (2 * n * (n - 10)) := by
  calc penFindOf n (grid n f) ≤ 2 * n * (40 * (n - 10)) := sum_symbolLines_le f lineFind fun line hl => hl ▸ lineFind_le line
    _ = 40 * (2 * n * (n - 10)) := by ring

theorem popcount_grid_le (n : Nat) (f : Nat → Nat → Bool) : popcount (grid n f) ≤ n * n := by
  have h := List.sum_le_card_nsmul ((grid n f).map fun row => row.count true) n fun x hx => by
    obtain ⟨row, hrow, rfl⟩ := List.mem_map.1 hx
    exact Nat.le_trans List.count_le_length (Nat.le_of_eq (length_of_mem_grid hrow))
  simpa [length_grid, popcount] using h

/-- R41: proportion scores at most 100. -/
theorem penPropOf_le {n dark : Nat} (h : dark ≤ n * n) : penPropOf n dark ≤ 100 := by
  have hdev : ((2 * dark : Int) - (n * n : Nat)).natAbs ≤ n * n := by omega
  have hdiv : 10 * ((2 * dark : Int) - (n * n : Nat)).natAbs / (n * n) ≤ 10 :=
    Nat.div_le_of_le_mul (by rw [Nat.mul_comm]; exact Nat.mul_le_mul_right 10 hdev)
  exact Nat.mul_le_mul_left 10 hdiv

/-! ## The values of the bounds at the largest symbol -/

variable {n : Nat}

theorem adj_bound_le (h : n ≤ 177) : 2 * n * (n - 2) ≤ 61950 :=
  Nat.mul_le_mul (Nat.mul_le_mul_left 2 h) (Nat.sub_le_sub_right h 2)

theorem blk_bound_le (h : n ≤ 177) : 3 * (n - 1) ^ 2 ≤ 92928 :=
  Nat.mul_le_mul_left 3 (Nat.pow_le_pow_left (Nat.sub_le_sub_right h 1) 2)

theorem find_bound_le (h : n ≤ 177) : 40 * (2 * n * (n - 10)) ≤ 2364720 :=
  Nat.mul_le_mul_left 40 (Nat.mul_le_mul (Nat.mul_le_mul_left 2 h) (Nat.sub_le_sub_right h 10))

/-- R41: a total penalty is far below the width of its register. -/
theorem total_scoreOf_lt (h : n ≤ 177) (f : Nat → Nat → Bool) : (scoreOf n (grid n f)).total < 2 ^ 22 := by
  have h1 := Nat.le_trans (penAdjOf_le n f) (adj_bound_le h)
  have h2 := Nat.le_trans (penBlkOf_grid_le n f) (blk_bound_le h)
  have h3 := Nat.le_trans (penFindOf_le n f) (find_bound_le h)
  have h4 := penPropOf_le (popcount_grid_le n f)
  simp only [Score.total, scoreOf]; omega

/-! ## The least index of the minimum -/

/-- `leastArgMin` gives an index of the list at which it takes its minimum, and the least one (R177). -/
theorem leastArgMin_spec {l : List Nat} (hl : l ≠ []) :
    ∃ h : leastArgMin l < l.length,
      (∀ j (hj : j < l.length), l[leastArgMin l] ≤ l[j]) ∧ ∀ j (hj : j < leastArgMin l), l[leastArgMin l] < l[j] := by
  cases l with
  | nil => exact absurd rfl hl
  | cons p ps =>
    obtain ⟨hmem, hle⟩ := List.min?_eq_some_iff.1 (List.min?_cons' (x := p) (xs := ps))
    have hlt : leastArgMin (p :: ps) < (p :: ps).length :=
      List.findIdx_lt_length_of_exists ⟨_, hmem, beq_self_eq_true _⟩
    have hat : (p :: ps)[leastArgMin (p :: ps)] = ps.foldl min p :=
      eq_of_beq (List.findIdx_getElem (p := fun q => q == ps.foldl min p) (w := hlt))
    refine ⟨hlt, fun j hj => ?_, fun j hj => ?_⟩
    · rw [hat]; exact hle _ (List.getElem_mem hj)
    · have hne : (p :: ps)[j] ≠ ps.foldl min p := by simpa using List.not_of_lt_findIdx hj
      rw [hat]
      exact Nat.lt_of_le_of_ne (hle _ (List.getElem_mem _)) hne.symm

/-! ## The selection of a mask -/

/-- No trial penalty overflows its word (R41). -/
theorem trialPenalty_lt (h : n ≤ 177) (m : Memory) (k : BitVec 3) : trialPenalty n m k < 2 ^ 32 := by
  unfold trialPenalty penaltyOf
  rw [colours_eq_grid _ n (by omega)]
  exact Nat.lt_trans (total_scoreOf_lt h _) (by decide)

theorem length_trialPenalties (n : Nat) (m : Memory) : (trialPenalties n m).length = 8 := rfl

/-- `MPEN[k]` holds the penalty of trial `k` (R181). -/
theorem toNat_trialWords (h : n ≤ 177) (m : Memory) (k : Fin 8) :
    (trialWords n m)[k].toNat = (trialPenalties n m)[k] := by
  have e : (trialWords n m)[k] = BitVec.ofNat 32 (trialPenalties n m)[k] := by fin_cases k <;> rfl
  have hlt : (trialPenalties n m)[k] < 2 ^ 32 := by fin_cases k <;> exact trialPenalty_lt h m _
  rw [e, BitVec.toNat_ofNat, Nat.mod_eq_of_lt hlt]

theorem toNat_selectMask (n : Nat) (m : Memory) : (selectMask n m).toNat = leastArgMin (trialPenalties n m) := by
  obtain ⟨h, -⟩ := leastArgMin_spec (l := trialPenalties n m) (by simp [trialPenalties])
  rw [length_trialPenalties] at h
  rw [selectMask, BitVec.toNat_ofNat, Nat.mod_eq_of_lt h]

/-- The chosen mask is the least one whose recorded penalty is the lowest (R177, R181). -/
theorem selectMask_least (h : n ≤ 177) (m : Memory) (k : Fin 8) :
    (trialWords n m)[(selectMask n m).toFin] ≤ (trialWords n m)[k]
      ∧ (k.val < (selectMask n m).toNat → (trialWords n m)[(selectMask n m).toFin] < (trialWords n m)[k]) := by
  obtain ⟨hlt, hle, hless⟩ := leastArgMin_spec (l := trialPenalties n m) (by simp [trialPenalties])
  have hbest : (trialWords n m)[(selectMask n m).toFin].toNat = (trialPenalties n m)[leastArgMin (trialPenalties n m)] := by
    rw [toNat_trialWords h]
    simp only [Fin.getElem_fin, BitVec.val_toFin, toNat_selectMask]
  rw [BitVec.le_def, BitVec.lt_def, hbest, toNat_trialWords h, toNat_selectMask]
  exact ⟨hle k k.isLt, fun hk => hless k hk⟩

/-! ## Logarithms -/

theorem gfLog_le {x : Byte} {k : Nat} (h : gfLog x = some k) : k ≤ 254 := by
  have hall : ∀ x : Byte, (gfLog x).all (· ≤ 254) = true := by decide +kernel
  simpa [h] using hall x

end Sys2Proof.Machine

open Sys2Proof.Machine

/-- Settles O50: the bound of each component at `n` cells a side, and their values at 177. -/
theorem widthsSuffice : Obligations.WidthsSuffice := by
  refine ⟨fun v f _ => ?_, fun a b i j hi hj => ?_⟩
  · have hn := side_le v
    generalize sideOf v = n at hn ⊢
    refine ⟨?_, penAdjOf_le n f, penBlkOf_grid_le n f, penFindOf_le n f, penPropOf_le (popcount_grid_le n f), total_scoreOf_lt hn f,
      adj_bound_le hn, blk_bound_le hn, find_bound_le hn, fun x y hx hy => ?_⟩
    · exact Nat.le_trans (popcount_grid_le n f) (Nat.mul_le_mul hn hn)
    · show x * y ≤ 176 * 176
      exact Nat.mul_le_mul (by omega) (by omega)
  · have := gfLog_le hi
    have := gfLog_le hj
    omega

end

section
/-! SUPPORT. What a turn of the host does to the block: one inversion lemma for `hostTurn`, and with `exec_cases` one for `step`. -/

namespace Sys2Proof.Machine

/-- A turn of the host leads from `s` to the second state: one constructor for each thing a turn can do to the block
(20_memory.md R61 to R69; 70_reset_and_hazards.md R270). -/
inductive HostEffect (s : State) : State → Prop
  | reset (rest : List HostOp) (hs : s.script = .reset :: rest) :
      HostEffect s { State.reset with script := rest, rdata := s.rdata, draws := s.draws }
  | quiet (script : List HostOp) (busyFor : Nat) (rdata : Word) (draws : Nat) (herr : Bool) (hh : s.herr = true → herr = true) :
      HostEffect s { s with script := script, busyFor := busyFor, rdata := rdata, draws := draws, herr := herr }
  | accept (hp : s.phase = .idle) (w : Word) (rest : List HostOp) (hs : s.script = .write 0 w :: rest) (busyFor draws : Nat) :
      HostEffect s { s with script := rest, cmdreg := w, done := false, phase := .busy, busyFor := busyFor, draws := draws }
  | lengthA (hp : s.phase = .idle) (len : Nat) (hl : len ≤ 256) (script : List HostOp) (busyFor : Nat) :
      HostEffect s { s with script := script, busyFor := busyFor, lenA := len }
  | lengthB (hp : s.phase = .idle) (len : Nat) (hl : len ≤ 256) (script : List HostOp) (busyFor : Nat) :
      HostEffect s { s with script := script, busyFor := busyFor, lenB := len }
  | entry (hp : s.phase = .idle) (loc : Nat) (hlo : baseA ≤ loc) (hhi : loc < baseC) (b : Byte) (script : List HostOp) (busyFor : Nat) :
      HostEffect s { s with script := script, busyFor := busyFor, mem := Memory.write s.mem loc b }
  | cell (hp : s.phase = .idle) (x y : Nat) (hx : x < s.side) (hy : y < s.side) (c : Cell) (script : List HostOp) (busyFor : Nat) :
      HostEffect s { s with script := script, busyFor := busyFor, mem := writeCell s.mem x y c }

variable {s t : State}

/-! ## Which location a place has -/

/-- `CMD` is location 0 alone (R31). -/
theorem eq_zero_of_placeAt_cmd {loc : Nat} (h : placeAt loc = .reg .cmd) : loc = 0 := by
  unfold placeAt at h
  split_ifs at h with hl
  have hreg : regAt loc = .cmd := by simpa using h
  revert hreg
  interval_cases loc <;> simp [regAt]

theorem lt_of_placeAt_bufA {loc i : Nat} (h : placeAt loc = .bufA i) : i < 256 := by
  unfold placeAt at h
  split_ifs at h
  simp only [Place.bufA.injEq, baseA, baseB] at *; omega

theorem lt_of_placeAt_bufB {loc i : Nat} (h : placeAt loc = .bufB i) : i < 256 := by
  unfold placeAt at h
  split_ifs at h
  simp only [Place.bufB.injEq, baseB, baseC] at *; omega

/-! ## The inversion of a turn of the host -/

/-- Everything a host write can do to the block. -/
theorem hostWrite_effect {loc : Loc} {v : Word} {rest : List HostOp} (hs : s.script = .write loc v :: rest) (busyFor : Nat) :
    HostEffect s (State.hostWrite { s with script := rest, busyFor := busyFor } loc.toNat v) := by
  by_cases hp : s.phase = .idle
  · rw [hostWrite_of_idle { s with script := rest, busyFor := busyFor } _ _ hp]
    rcases writePlace_cases { s with script := rest, busyFor := busyFor } v (placeAt loc.toNat) with
      ⟨hc, e⟩ | e | ⟨hv, e | e⟩ | ⟨i, ⟨hi, e⟩ | ⟨hi, e⟩⟩ | ⟨x, y, -, hv, e⟩ <;> rw [e]
    · obtain rfl : loc = 0 := BitVec.eq_of_toNat_eq (eq_zero_of_placeAt_cmd hc)
      exact .accept hp v rest hs _ _
    · exact .quiet rest busyFor s.rdata s.draws true fun _ => rfl
    · exact .lengthA hp _ hv rest busyFor
    · exact .lengthB hp _ hv rest busyFor
    · have := lt_of_placeAt_bufA hi
      exact HostEffect.entry (s := s) hp _ (Nat.le_add_right _ _) (by simp only [baseA, baseC]; omega) _ rest busyFor
    · have := lt_of_placeAt_bufB hi
      exact HostEffect.entry (s := s) hp _ (by simp only [baseA, baseB]; omega) (by simp only [baseB, baseC]; omega) _ rest busyFor
    · obtain ⟨-, hx, hy⟩ := (validCell_iff _ x y).1 hv
      exact HostEffect.cell (s := s) hp x y hx hy _ rest busyFor
  · rw [hostWrite_of_not_idle { s with script := rest, busyFor := busyFor } _ _ hp]
    exact .quiet rest busyFor s.rdata s.draws true fun _ => rfl

/-- A host read changes nothing of the block but `HERR`, which it can only set. -/
theorem hostRead_effect (s : State) (script : List HostOp) (busyFor loc : Nat) :
    HostEffect s (State.hostRead { s with script := script, busyFor := busyFor } loc) := by
  rw [hostRead_eq]
  exact .quiet _ _ _ _ _ fun h => by simp [h]

/-- Everything a turn of the host can do. -/
theorem hostTurn_effect (s : State) : HostEffect s s.hostTurn := by
  match hs : s.script with
  | [] => rw [hostTurn_nil s hs]; exact .quiet s.script s.busyFor s.rdata s.draws s.herr id
  | .read loc :: rest => rw [hostTurn_read s hs]; exact hostRead_effect s _ _ _
  | .write loc v :: rest => rw [hostTurn_write s hs]; exact hostWrite_effect hs _
  | .poll :: rest => rw [hostTurn_poll s hs]; exact hostRead_effect s _ _ _
  | .reset :: rest => rw [hostTurn_reset s hs]; exact .reset rest hs

/-! ## The inversion of a step -/

/-- Everything a step can do: the running command faults or completes, or the host has its turn. -/
theorem step_effect (h : step s = .next t) :
    (s.CommandRuns ∧ ∃ c, t = s.faultEntry c) ∨ (s.CommandRuns ∧ ∃ i u, Writes s i u ∧ t = u.complete) ∨ HostEffect s t := by
  rcases step_cases h with ⟨hb, i, -, hx⟩ | ⟨hb, -, rfl⟩ | ⟨-, rfl⟩
  · have hr := s.blockMoves_iff.1 hb
    rcases exec_cases hx with hf | ⟨u, hu, ht⟩
    · exact .inl ⟨hr, hf⟩
    · exact .inr (.inl ⟨hr, i, u, hu, ht⟩)
  · exact .inl ⟨s.blockMoves_iff.1 hb, _, rfl⟩
  · exact .inr (.inr (hostTurn_effect s))

/-! ## One host access as a step -/

theorem blockMoves_of_hostMoves (h : s.HostMoves) : s.blockMoves = false := by
  rw [Bool.eq_false_iff]
  intro hb
  obtain ⟨hp, hor⟩ := s.blockMoves_iff.1 hb
  exact hor.elim (h hp).1 (h hp).2

theorem hostMoves_of_not_busy (h : s.phase ≠ .busy) : s.HostMoves := fun hp => absurd hp h

theorem hostMoves_of_idle (h : s.phase = .idle) : s.HostMoves := hostMoves_of_not_busy (by rw [h]; decide)

/-- The step of a read that finds a word puts it into `rdata` and changes nothing of the block. -/
theorem step_read_word {loc : Loc} {rest : List HostOp} {w : Word} (hm : s.HostMoves) (hs : s.script = .read loc :: rest)
    (hf : s.find loc.toNat = .word w) :
    step s = .next { s with script := rest, busyFor := s.busyFor - 1, rdata := w } := by
  have hf : State.find { s with script := rest, busyFor := s.busyFor - 1 } loc.toNat = .word w := hf
  rw [step_of_hostMoves (blockMoves_of_hostMoves hm), hostTurn_read s hs, State.hostRead, hf]

/-- The step of an illegal read sets `HERR` and returns an unspecified word (R68). -/
theorem step_read_illegal {loc : Loc} {rest : List HostOp} (hm : s.HostMoves) (hs : s.script = .read loc :: rest)
    (hf : s.find loc.toNat = .illegal) :
    step s = .next { s with script := rest, busyFor := s.busyFor - 1, herr := true
                            rdata := Config.freeWord s.draws, draws := s.draws + 1 } := by
  have hf : State.find { s with script := rest, busyFor := s.busyFor - 1 } loc.toNat = .illegal := hf
  rw [step_of_hostMoves (blockMoves_of_hostMoves hm), hostTurn_read s hs, State.hostRead, hf]; rfl

/-- The step of a write in phase IDLE acts on the place of its location. -/
theorem step_write_idle {loc : Loc} {v : Word} {rest : List HostOp} (hp : s.phase = .idle) (hs : s.script = .write loc v :: rest) :
    step s = .next (State.writePlace { s with script := rest, busyFor := s.busyFor - 1 } v (placeAt loc.toNat)) := by
  rw [step_of_hostMoves (blockMoves_of_hostMoves (hostMoves_of_idle hp)), hostTurn_write s hs]
  exact congrArg _ (hostWrite_of_idle { s with script := rest, busyFor := s.busyFor - 1 } _ _ hp)

/-- The step of a write outside phase IDLE drops it and sets `HERR` (R69). -/
theorem step_write_not_idle {loc : Loc} {v : Word} {rest : List HostOp} (hm : s.HostMoves) (hp : s.phase ≠ .idle)
    (hs : s.script = .write loc v :: rest) :
    step s = .next { s with script := rest, busyFor := s.busyFor - 1, herr := true } := by
  rw [step_of_hostMoves (blockMoves_of_hostMoves hm), hostTurn_write s hs]
  exact congrArg _ (hostWrite_of_not_idle { s with script := rest, busyFor := s.busyFor - 1 } _ _ hp)

/-! ## Registers by location -/

/-- `CMD` cannot be read in any phase (R32, R69). -/
theorem find_cmd (s : State) : s.find 0 = .illegal := by
  unfold State.find; split <;> rfl

/-- The bytes of `VER` as a sum (R35). -/
theorem verWord_eq (v : Fin 41) :
    0#16 ++ BitVec.ofNat 8 (sideOf v) ++ BitVec.ofNat 8 v.val = BitVec.ofNat 32 (256 * sideOf v + v.val) := by
  revert v; decide

/-- Each entry of the register map is a register's location and the word it reads as. -/
theorem regWord_of_mem_registerMap {p : Nat × Word} (h : p ∈ s.registerMap) : p.1 < 0x18 ∧ s.regWord (regAt p.1) = some p.2 := by
  revert p
  simp [State.registerMap, State.regWord, regAt, State.side, verWord_eq]

/-- Outside phase BUSY a register reads as its content. -/
theorem find_of_mem_registerMap (hp : s.phase ≠ .busy) {p : Nat × Word} (h : p ∈ s.registerMap) :
    s.find (BitVec.ofNat 17 p.1).toNat = .word p.2 := by
  obtain ⟨hlt, hreg⟩ := regWord_of_mem_registerMap h
  rw [BitVec.toNat_ofNat, Nat.mod_eq_of_lt (by omega), find_of_not_busy s _ hp, placeAt_reg hlt, State.readPlace, hreg]

/-! ## The bits of `STATUS` -/

/-- The bits of `STATUS` (R33). -/
theorem getLsbD_statusWord (s : State) (k : Nat) :
    s.statusWord.getLsbD k
      = match k with
        | 0 => decide (s.phase = .busy)
        | 1 => s.done
        | 2 => decide (s.phase = .fault)
        | 3 => s.herr
        | _ => false := by
  simp only [State.statusWord, State.busyFlag, State.errFlag, BitVec.getLsbD_append]
  match k with
  | 0 | 1 | 2 | 3 => simp [beq_eq_decide]
  | k + 4 => simp

end Sys2Proof.Machine

open Sys2Proof.Machine

/-- Settles O11: the steps of a write and of a read of location 0. -/
theorem cmdWriteStartsCommand : Obligations.CmdWriteStartsCommand := by
  intro s rest hm
  refine ⟨fun w hs => ⟨fun hp => ?_, fun hp => ?_⟩, fun hs => ?_⟩
  · exact ⟨_, step_write_idle hp hs, rfl⟩
  · exact ⟨_, step_write_not_idle hm hp hs, rfl⟩
  · exact ⟨_, step_read_illegal hm hs (find_cmd s), rfl, rfl⟩

/-- Settles O12: of the effects of a step only these four change the phase. -/
theorem phaseTransitions : Obligations.PhaseTransitions := by
  intro s t h hne
  rcases step_effect h with ⟨hr, c, rfl⟩ | ⟨hr, i, u, hu, rfl⟩ | he
  · exact .inr (.inr (.inl ⟨hr, rfl, rfl, rfl⟩))
  · obtain ⟨-, -, -, -, hscript, -⟩ := hu.keeps_common
    exact .inr (.inl ⟨hr, rfl, rfl, hscript⟩)
  · cases he with
    | reset rest hs => exact .inr (.inr (.inr ⟨rfl, rest, hs⟩))
    | accept hp w rest hs => exact .inl ⟨hp, rfl, w, rest, hs, rfl⟩
    | _ => exact absurd rfl hne

/-- Settles O20: the bits, the step of a read of location 1, and what each effect of a step does to the flags. -/
theorem statusRegister : Obligations.StatusRegister := by
  refine ⟨fun s => ?_, fun s rest hm hs => ⟨_, step_read_word hm hs (find_status s), rfl⟩, fun s t h hnr => ?_⟩
  · refine ⟨getLsbD_statusWord s 0, getLsbD_statusWord s 1, getLsbD_statusWord s 2, getLsbD_statusWord s 3, fun k hk => ?_⟩
    obtain ⟨k, rfl⟩ := Nat.exists_eq_add_of_le' hk
    exact getLsbD_statusWord s (k + 4)
  · rcases step_effect h with ⟨hr, c, rfl⟩ | ⟨hr, i, u, hu, rfl⟩ | he
    · exact ⟨id, fun _ => rfl, .inl⟩
    · obtain ⟨-, -, -, hherr, -⟩ := hu.keeps_common
      exact ⟨fun hh => hherr.trans hh, fun hp : s.phase = .fault => absurd (hr.1.symm.trans hp) (by decide), fun _ => .inl rfl⟩
    · cases he with
      | reset rest hs => exact absurd hs (hnr rest)
      | quiet _ _ _ _ _ hh => exact ⟨hh, id, .inl⟩
      | accept hp w rest hs =>
        exact ⟨id, fun hf : s.phase = .fault => absurd (hp.symm.trans hf) (by decide), fun _ => .inr ⟨hp, rfl, rfl⟩⟩
      | _ => exact ⟨id, id, .inl⟩

/-- Settles O22: outside phase BUSY each location of the register map finds its word. -/
theorem registerReads : Obligations.RegisterReads := by
  intro s rest hp p hmem hs
  exact ⟨_, step_read_word (hostMoves_of_not_busy hp) hs (find_of_mem_registerMap hp hmem), rfl⟩

/-- Settles O23: in phase IDLE the step of a write to a length register is `writePlace` of that register. -/
theorem lengthRegisterWrites : Obligations.LengthRegisterWrites := by
  intro s v rest hp
  refine ⟨fun hs => ?_, fun hs => ?_, fun hs => ⟨_, step_write_idle hp hs, rfl⟩⟩
  · exact ⟨if v.toNat ≤ 256 then { s with script := rest, busyFor := s.busyFor - 1, lenA := v.toNat }
        else { s with script := rest, busyFor := s.busyFor - 1, herr := true }, step_write_idle hp hs, by split <;> rfl⟩
  · exact ⟨if v.toNat ≤ 256 then { s with script := rest, busyFor := s.busyFor - 1, lenB := v.toNat }
        else { s with script := rest, busyFor := s.busyFor - 1, herr := true }, step_write_idle hp hs, by split <;> rfl⟩

end

section
/-! SUPPORT. The invariant of the machine over the writes of commands and the turns of the host (10_state.md R26 to R39). -/

namespace Sys2Proof.Machine

/-! ## The storage stays inside its windows -/

/-- A listed location is an entry of a buffer, or a cell of the `n` by `n` symbol with three bits (R26, R28, R29). -/
def CellFits (n : Nat) (c : Host.Cell) : Prop :=
  (baseA ≤ c.1 ∧ c.1 < baseC + 256) ∨ (baseMat ≤ c.1 ∧ matX c.1 < n ∧ matY c.1 < n ∧ c.2.toNat < 8)

/-- Every listed location fits. -/
def Fits (n : Nat) (m : Memory) : Prop := ∀ c ∈ m, CellFits n c

theorem storageInv_iff (s : State) : s.StorageInv ↔ Fits s.side s.mem := Iff.rfl

variable {m : Memory} {n : Nat}

theorem fits_write {loc : Nat} {b : Byte} (hm : Fits n m) (hc : CellFits n (loc, b)) :
    Fits n (Memory.write m loc b) := by
  intro c h
  unfold Memory.write at h
  split at h
  · exact hm c (List.mem_filter.1 h).1
  · rcases Memory.mem_insert h with rfl | h
    · exact hc
    · exact hm c h

theorem toNat_toByte_lt (c : Cell) : c.toByte.toNat < 8 := by
  obtain ⟨a, b, v⟩ := c
  cases a <;> cases b <;> cases v <;> decide

theorem fits_writeCell {x y : Nat} (c : Cell) (hn : n ≤ 177) (hx : x < n) (hy : y < n) (hm : Fits n m) :
    Fits n (writeCell m x y c) := by
  refine fits_write hm (.inr ⟨?_, ?_, ?_, toNat_toByte_lt c⟩)
  · simp only [matLoc]; omega
  · rwa [matX_matLoc x y (by omega)]
  · rwa [matY_matLoc x y (by omega)]

theorem fits_placeBits {w : Nat} (c : BitVec w) {cells : List BitCell} (hn : n ≤ 177) (hcells : ∀ p ∈ cells, p.x < n ∧ p.y < n)
    (hm : Fits n m) : Fits n (placeBits c cells m) := by
  unfold placeBits
  induction cells generalizing m with
  | nil => exact hm
  | cons p ps ih =>
    obtain ⟨hx, hy⟩ := hcells p (by simp)
    exact ih (fun q hq => hcells q (by simp [hq])) (fits_writeCell _ hn hx hy hm)

theorem skip6_le {k : Nat} (hk : k < 8) : skip6 k ≤ 8 := by unfold skip6; split <;> omega

/-- The format cells lie in every symbol (R212). -/
theorem fmtCells_lt (hn : 21 ≤ n) : ∀ p ∈ fmtCells n, p.x < n ∧ p.y < n := by
  intro p hp
  simp only [fmtCells, List.mem_append, List.mem_flatMap, List.mem_range, List.mem_cons, List.not_mem_nil, or_false] at hp
  rcases hp with ⟨k, hk, rfl | rfl⟩ | ⟨k, hk, rfl | rfl⟩
  all_goals have := skip6_le hk; simp only; omega

/-- The version cells lie in every symbol of version 7 or more (R215). -/
theorem verCells_lt (hn : 45 ≤ n) : ∀ p ∈ verCells n, p.x < n ∧ p.y < n := by
  intro p hp
  simp only [verCells, List.mem_flatMap, List.mem_cons, List.not_mem_nil, or_false] at hp
  rcases hp with ⟨k, -, rfl | rfl⟩
  all_goals simp only; omega

theorem fits_placeFormat (c : BitVec Config.fmtBits) (dm : Bool) (hn : 21 ≤ n) (hn' : n ≤ 177) (hm : Fits n m) :
    Fits n (placeFormat n c dm m) :=
  fits_writeCell _ hn' (by omega) (by omega) (fits_placeBits c hn' (fmtCells_lt hn) hm)

theorem fits_applyMask (k : BitVec 3) (hm : Fits n m) : Fits n (applyMask n k m) := by
  intro c hc
  obtain ⟨d, hd, rfl⟩ := List.mem_map.1 hc
  split
  · refine (hm d hd).imp id fun ⟨hl, hx, hy, hb⟩ => ⟨hl, hx, hy, ?_⟩
    rw [BitVec.toNat_xor]
    exact Nat.xor_lt_two_pow (n := 3) hb (by decide)
  · exact hm d hd

/-- With the matrix cleared the storage fits a symbol of any side. -/
theorem fits_clearMatrix (n' : Nat) (hm : Fits n m) : Fits n' (Memory.clearMatrix m) := by
  intro c hc
  obtain ⟨hc, hlt⟩ := List.mem_filter.1 hc
  exact (hm c hc).imp id fun ⟨hl, _⟩ => absurd (of_decide_eq_true hlt) (Nat.not_lt.2 hl)

theorem fits_replaceC {p : List Entry} (hp : p.length ≤ 256) (hm : Fits n m) :
    Fits n (Memory.replaceC m p) := by
  intro c hc
  rcases List.mem_append.1 hc with hc | hc
  · rcases List.mem_append.1 hc with hc | hc
    · exact hm c (List.mem_filter.1 hc).1
    · have hl := Memory.mem_place hc
      exact .inl (by simp only [baseA, baseC] at *; omega)
  · exact hm c (List.mem_filter.1 hc).1

/-! ## The writes of a command -/

variable {s t u : State} {i : Instr}

theorem side_ge_of_ver (h : s.ver.val ≠ 0) : 21 ≤ s.side := by
  unfold State.side sideOf; rw [if_neg h]; omega

theorem side_ge_of_ver_seven (h : 7 ≤ s.ver.val) : 45 ≤ s.side := by
  unfold State.side sideOf; rw [if_neg (by omega)]; omega

theorem Writes.keeps_wf (h : Writes s i u) (hB : s.lenB ≤ 256) (hm : Memory.wf s.mem) : Memory.wf u.mem := by
  cases h with
  | result _ _ => exact hm
  | score _ => exact hm
  | buffer _ p hp => exact Memory.wf_replaceC hm (hp hB)
  | version _ _ => exact Memory.wf_clearMatrix hm
  | mask k _ => exact Memory.wf_applyMask _ k hm
  | selection _ => exact Memory.wf_applyMask _ _ hm
  | format _ _ _ c dm => exact Memory.wf_placeFormat _ c dm hm
  | stamp _ =>
    rcases stampVersion_cases params s with e | ⟨-, c, e⟩ <;> rw [e]
    · exact hm
    · exact Memory.wf_placeVersion _ c hm

theorem Writes.keeps_storageInv (h : Writes s i u) (hB : s.lenB ≤ 256) (hm : s.StorageInv) : u.StorageInv := by
  have hn : s.side ≤ 177 := side_le s.ver
  rw [storageInv_iff] at hm ⊢
  cases h with
  | result _ _ => exact hm
  | score _ => exact hm
  | buffer _ p hp => exact fits_replaceC (hp hB) hm
  | version _ _ => exact fits_clearMatrix _ hm
  | mask k _ => exact fits_applyMask k hm
  | selection _ => exact fits_applyMask _ hm
  | format _ hv _ c dm => exact fits_placeFormat c dm (side_ge_of_ver hv) hn hm
  | stamp _ =>
    rcases stampVersion_cases params s with e | ⟨h7, c, e⟩ <;> rw [e]
    · exact hm
    · exact fits_placeBits c hn (verCells_lt (side_ge_of_ver_seven h7)) hm

/-- What leaves `LEN_C` and the entries of C as they were keeps C valued only below `LEN_C`. -/
theorem lengthInv_of_readC (hl : s.LengthInv) (hA : u.lenA ≤ 256) (hB : u.lenB ≤ 256) (hC : u.lenC = s.lenC)
    (hread : ∀ k < 256, Memory.read u.mem (baseC + k) = Memory.read s.mem (baseC + k)) : u.LengthInv := by
  obtain ⟨-, -, hC', hval⟩ := hl
  refine ⟨hA, hB, by rw [hC]; exact hC', fun k hk => ?_⟩
  rw [hread k hk, hC]
  exact hval k hk

theorem Writes.keeps_lengthInv (h : Writes s i u) (hl : s.LengthInv) : u.LengthInv := by
  obtain ⟨eA, eB, -⟩ := h.keeps_common
  have ⟨hA, hB, _, _⟩ := hl
  rw [← eA] at hA
  rw [← eB] at hB
  rcases h.storage_cases with ⟨em, eC⟩ | ⟨-, p, hp, rfl⟩ | ⟨-, eC, em⟩
  · exact lengthInv_of_readC hl hA hB eC fun k _ => by rw [em]
  · have hp := hp hB
    refine ⟨hA, hB, hp, fun k hk hsome => ?_⟩
    rw [State.setC_mem, Memory.read_replaceC _ _ _ hp, if_pos (by omega), Nat.add_sub_cancel_left] at hsome
    by_contra hle
    rw [List.getElem?_eq_none (Nat.le_of_not_lt hle)] at hsome
    cases hsome
  · exact lengthInv_of_readC hl hA hB eC fun k hk => em _ (by simp only [baseC, baseMat]; omega)

theorem totalInv_setScore (s : State) (p : Score) : (s.setScore p).TotalInv := by
  simp [State.TotalInv, Score.total, BitVec.ofNat_add]

theorem Writes.keeps_totalInv (h : Writes s i u) (ht : s.TotalInv) : u.TotalInv := by
  cases h with
  | score _ => exact totalInv_setScore _ _
  | selection _ => exact totalInv_setScore _ _
  | stamp _ => rcases stampVersion_cases params s with e | ⟨-, c, e⟩ <;> rw [e] <;> exact ht
  | _ => exact ht

/-! ## The ends of a command -/

/-- A command that completes leaves the fault registers as they are in phase BUSY, both 0. -/
theorem phaseInv_complete (h : Writes s i u) (hp : s.PhaseInv) (hbusy : s.phase = .busy) : u.complete.PhaseInv := by
  obtain ⟨-, -, -, -, -, -, -, hcode, hcmd⟩ := h.keeps_common
  obtain ⟨-, hzero, hcmd0, -⟩ := hp
  have hne : s.phase ≠ .fault := by rw [hbusy]; decide
  have hcode : u.errcode = 0 := hcode.trans (hzero.2 hne)
  have hcmd : u.errcmd = 0 := hcmd.trans (hcmd0 hne)
  simp [State.PhaseInv, hcode, hcmd]

theorem Cause.code_bounds (c : Cause) : c.code.toNat ≤ 8 ∧ c.code ≠ 0 := by cases c <;> decide

theorem phaseInv_faultEntry (c : Cause) (hp : s.PhaseInv) (hbusy : s.phase = .busy) : (s.faultEntry c).PhaseInv := by
  obtain ⟨hle, hne⟩ := c.code_bounds
  obtain ⟨-, -, -, -, hdone⟩ := hp
  have hdone : s.done = false := by
    rw [Bool.eq_false_iff]; intro hd; exact absurd (hbusy.symm.trans (hdone hd)) (by decide)
  exact ⟨hle, ⟨fun h => absurd h hne, fun h => absurd rfl h⟩, fun h => absurd rfl h, fun _ => rfl, fun h => by
    rw [State.faultEntry_done, hdone] at h; cases h⟩

theorem inv_faultEntry (c : Cause) (hi : s.Inv) (hbusy : s.phase = .busy) : (s.faultEntry c).Inv := by
  obtain ⟨hwf, hst, hl, hp, ht⟩ := hi
  exact ⟨hwf, hst, hl, phaseInv_faultEntry c hp hbusy, ht⟩

theorem inv_complete (h : Writes s i u) (hi : s.Inv) (hbusy : s.phase = .busy) : u.complete.Inv := by
  obtain ⟨hwf, hst, hl, hp, ht⟩ := hi
  have ⟨_, hB, _, _⟩ := hl
  exact ⟨h.keeps_wf hB hwf, h.keeps_storageInv hB hst, h.keeps_lengthInv hl, phaseInv_complete h hp hbusy, h.keeps_totalInv ht⟩

/-! ## The turns of the host -/

/-- Right after reset the invariant holds, whatever the host's pending actions, its last data and the next free value are. -/
theorem inv_reset (script : List HostOp) (rdata : Word) (draws : Nat) :
    State.Inv { State.reset with script := script, rdata := rdata, draws := draws } := by
  refine ⟨Memory.wf_nil, by simp [State.StorageInv, State.reset], ⟨Nat.zero_le _, Nat.zero_le _, Nat.zero_le _, fun k hk h => ?_⟩, by
    simp [State.PhaseInv, State.reset], by simp [State.TotalInv, State.reset]⟩
  have hnone : Memory.read State.reset.mem (baseC + k) = none :=
    if_neg (by simp only [baseC, baseMat]; omega)
  rw [hnone] at h; cases h

theorem inv_of_hostEffect (h : HostEffect s t) (hi : s.Inv) : t.Inv := by
  obtain ⟨hwf, hst, hl, hp, ht⟩ := hi
  have ⟨hA, hB, hC⟩ := hl
  cases h with
  | reset rest _ => exact inv_reset rest s.rdata s.draws
  | quiet _ _ _ _ _ _ => exact ⟨hwf, hst, hl, hp, ht⟩
  | accept hidle w rest _ _ _ =>
    obtain ⟨hle, hzero, hcmd0, -, -⟩ := hp
    have hne : s.phase ≠ .fault := by rw [hidle]; decide
    refine ⟨hwf, hst, hl, ⟨hle, ?_, fun _ => hcmd0 hne, ?_, ?_⟩, ht⟩
    · simp [hzero.2 hne]
    · simp
    · simp
  | lengthA _ len hlen _ _ => exact ⟨hwf, hst, ⟨hlen, hB, hC⟩, hp, ht⟩
  | lengthB _ len hlen _ _ => exact ⟨hwf, hst, ⟨hA, hlen, hC⟩, hp, ht⟩
  | entry _ loc hlo hhi b _ _ =>
    refine ⟨Memory.wf_write loc b hwf, fits_write hst (.inl ⟨hlo, Nat.lt_add_right 256 hhi⟩), ?_, hp, ht⟩
    exact lengthInv_of_readC hl hA hB rfl fun k _ => (Memory.read_write _ _ _ _).trans (if_neg (by omega))
  | cell _ x y hx hy c _ _ =>
    refine ⟨Memory.wf_writeCell x y c hwf, fits_writeCell c (side_le s.ver) hx hy hst, ?_, hp, ht⟩
    exact lengthInv_of_readC hl hA hB rfl fun k _ => read_writeCell_of_lt _ x y c (by simp only [baseC, baseMat]; omega)

/-! ## The selection -/

theorem selectionInv_reset : State.reset.SelectionInv := by decide

/-- `MASKSEL` records the penalties of all masks and the least mask with the lowest (R177, R181). -/
theorem selectionInv_applySelection (s : State) : s.applySelection.SelectionInv :=
  fun k => selectMask_least (side_le s.ver) s.mem k

theorem Writes.keeps_selectionInv (h : Writes s i u) (hs : s.SelectionInv) : u.SelectionInv := by
  cases h with
  | selection _ => exact selectionInv_applySelection s
  | stamp _ => rcases stampVersion_cases params s with e | ⟨-, c, e⟩ <;> rw [e] <;> exact hs
  | _ => exact hs

end Sys2Proof.Machine

open Sys2Proof.Machine

/-- Settles O18: the ends of a command and the turns of the host keep the invariant, each in its own lemma. -/
theorem stepKeepsInvariant : Obligations.StepKeepsInvariant := by
  intro s t hi h
  rcases step_effect h with ⟨hr, c, rfl⟩ | ⟨hr, i, u, hu, rfl⟩ | he
  · exact inv_faultEntry c hi hr.1
  · exact inv_complete hu hi hr.1
  · exact inv_of_hostEffect he hi

/-- Settles O19: only `MASKSEL` and reset write the selection, and both leave it least. -/
theorem stepKeepsSelection : Obligations.StepKeepsSelection := by
  intro s t hs h
  rcases step_effect h with ⟨-, c, rfl⟩ | ⟨-, i, u, hu, rfl⟩ | he
  · exact hs
  · exact hu.keeps_selectionInv hs
  · cases he with
    | reset _ _ => exact selectionInv_reset
    | _ => exact hs

/-- Settles O17: the state right after reset is the one a reset by the host leaves. -/
theorem resetMeetsInvariants : Obligations.ResetMeetsInvariants := ⟨inv_reset [] 0 0, selectionInv_reset⟩

/-- Settles O16: the values of R42, and no version means no valid location. -/
theorem resetValues : Obligations.ResetValues := by
  refine ⟨rfl, rfl, rfl, rfl, rfl, rfl, rfl, rfl, rfl, rfl, rfl, rfl, rfl, rfl, rfl, rfl, rfl, rfl, by decide, fun loc _ hv => ?_⟩
  exact hv.1 rfl

end

section
/-! SUPPORT. The operands of the commands and the tables (10_state.md R21, R22, R26, R27). -/

namespace Sys2Proof.Machine

/-- Entry `k` of the list held by a buffer is what the buffer's entry `k` holds (R26). -/
theorem getElem?_bufferList (s : State) (base : Nat) {len k : Nat} (hk : k < len) :
    (s.bufferList base len)[k]? = some (Memory.read s.mem (base + k)) := by
  simp [State.bufferList, hk]

/-! ## The tables against each other -/

/-- The printed LOG table undoes the printed EXP table (R22). -/
theorem gfLog_gfExp : ∀ k ≤ 254, gfLog (gfExp k) = some k := by decide +kernel

/-- The printed EXP table undoes the printed LOG table (R21). -/
theorem gfExp_gfLog {x : Byte} {k : Nat} (h : gfLog x = some k) : gfExp k = x := by
  have hall : ∀ x : Byte, (gfLog x).all (gfExp · == x) = true := by decide +kernel
  simpa [h] using hall x

/-- Every non-zero codeword has a logarithm (R22). -/
theorem exists_gfLog {x : Byte} (h : x ≠ 0) : ∃ k ≤ 254, gfLog x = some k ∧ gfExp k = x := by
  obtain ⟨k, hk⟩ := Option.ne_none_iff_exists'.1 fun hn => h ((gfLog_eq_none x).1 hn)
  exact ⟨k, gfLog_le hk, hk, gfExp_gfLog hk⟩

/-- The EXP table repeats after 255 entries (R21). -/
theorem gfExp_sub {k : Nat} (h : 255 ≤ k) : gfExp k = gfExp (k - 255) := by
  unfold gfExp; rw [← Nat.mod_eq_sub_mod h]

/-- No entry of the EXP table is 0 (R21). -/
theorem gfExp_ne_zero (k : Nat) : gfExp k ≠ 0 := by
  have hmod : gfExp k = gfExp (k % 255) := by unfold gfExp; rw [Nat.mod_mod]
  have hlog := gfLog_gfExp (k % 255) (by omega)
  intro h0
  rw [← hmod, h0] at hlog; cases hlog

/-- The printed EXP table follows its recurrence (R21). -/
theorem toNat_gfExp_succ : ∀ k ≤ 253, (gfExp (k + 1)).toNat = nextPower (gfExp k).toNat := by decide +kernel

/-- The recurrence by the size of the double: its carry bit is set from 256 on. -/
theorem nextPower_eq (v : Byte) : nextPower v.toNat = if 256 ≤ 2 * v.toNat then (2 * v.toNat) ^^^ 0x11D else 2 * v.toNat := by
  revert v; decide +kernel

end Sys2Proof.Machine

open Sys2Proof.Machine

/-- Settles O26: the length and the entries of the list a buffer holds. -/
theorem bufferOperands : Obligations.BufferOperands := fun s =>
  ⟨length_listA s, length_listB s, fun _ hk => getElem?_bufferList s baseA hk, fun _ hk => getElem?_bufferList s baseB hk⟩

/-- Settles O27: the recurrence is checked entry by entry; the LOG table gives an index to every codeword, and only one. -/
theorem expTable : Obligations.ExpTable := by
  refine ⟨rfl, fun k hk => ?_, toNat_gfExp_succ, fun k hk _ => gfExp_sub hk, fun k _ => gfExp_ne_zero k, fun x hx => ?_,
    fun i j hi hj h => ?_⟩
  · rw [← nextPower_eq, ← toNat_gfExp_succ k hk, BitVec.ofNat_toNat, BitVec.setWidth_eq]
  · obtain ⟨k, hk, -, hexp⟩ := exists_gfLog hx
    exact ⟨k, hk, hexp⟩
  · have hlog := gfLog_gfExp i hi
    rw [h, gfLog_gfExp j hj] at hlog
    exact (Option.some.inj hlog).symm

/-- Settles O28: each table undoes the other. -/
theorem logTable : Obligations.LogTable :=
  ⟨rfl, rfl, fun _ hx => exists_gfLog hx, gfLog_gfExp⟩

end

section
/-! SUPPORT. Which accesses of the host are illegal, by the place of their location, and the steps of an access (20_memory.md R60 to R69). -/

namespace Sys2Proof.Machine

variable {s : State} {loc : Nat}

/-! ## Every location has one place -/

/-- The second argument is the place of the first: one constructor for each row of the location map (R60). -/
inductive LocatedAt : Nat → Place → Prop
  | reg {loc : Nat} (h : loc < 0x18) : LocatedAt loc (.reg (regAt loc))
  | bufA {i : Nat} (h : i < 256) : LocatedAt (baseA + i) (.bufA i)
  | bufB {i : Nat} (h : i < 256) : LocatedAt (baseB + i) (.bufB i)
  | bufC {i : Nat} (h : i < 256) : LocatedAt (baseC + i) (.bufC i)
  | unmapped {loc : Nat} (h : UnmappedLoc loc) : LocatedAt loc .unmapped
  | cell {loc : Nat} (h : 0x10000 ≤ loc) : LocatedAt loc (.cell (matX loc) (matY loc))

/-- A location of the matrix window is that of its column and row (R64). -/
theorem matLoc_matX_matY (h : baseMat ≤ loc) : matLoc (matX loc) (matY loc) = loc := by
  simp only [matLoc, matX, matY]; omega

/-- The location map is total (R60). -/
theorem locatedAt_placeAt (loc : Nat) : LocatedAt loc (placeAt loc) := by
  rcases Nat.lt_or_ge loc 0x18 with h | h
  · rw [placeAt_reg h]; exact .reg h
  by_cases hu : UnmappedLoc loc
  · rw [placeAt_unmapped hu]; exact .unmapped hu
  rcases Nat.lt_or_ge loc 0x1100 with hA | hA
  · obtain ⟨i, rfl⟩ : ∃ i, loc = baseA + i := Nat.exists_eq_add_of_le (by simp only [baseA]; omega)
    have hi : i < 256 := by simp only [baseA] at hA; omega
    rw [placeAt_bufA hi]; exact .bufA hi
  rcases Nat.lt_or_ge loc 0x1200 with hB | hB
  · obtain ⟨i, rfl⟩ : ∃ i, loc = baseB + i := Nat.exists_eq_add_of_le (by simp only [baseB]; omega)
    have hi : i < 256 := by simp only [baseB] at hB; omega
    rw [placeAt_bufB hi]; exact .bufB hi
  rcases Nat.lt_or_ge loc 0x1300 with hC | hC
  · obtain ⟨i, rfl⟩ : ∃ i, loc = baseC + i := Nat.exists_eq_add_of_le (by simp only [baseC]; omega)
    have hi : i < 256 := by simp only [baseC] at hC; omega
    rw [placeAt_bufC hi]; exact .bufC hi
  · have hm : 0x10000 ≤ loc := by omega
    have hp := placeAt_cell (x := matX loc) (y := matY loc) (Nat.mod_lt _ (by decide))
    rw [matLoc_matX_matY hm] at hp
    rw [hp]; exact .cell hm

/-- Different registers stand at different locations (R31). -/
theorem regAt_inj {loc loc' : Nat} (h : loc < 0x18) (h' : loc' < 0x18) (e : regAt loc = regAt loc') : loc = loc' := by
  have hall : ∀ k k' : Fin 0x18, regAt k = regAt k' → k = k' := by decide
  exact Fin.mk.inj (hall ⟨loc, h⟩ ⟨loc', h'⟩ e)

/-- `STATUS` is location 1 alone (R31). -/
theorem placeAt_eq_status : placeAt loc = .reg .status ↔ loc = 1 := by
  refine ⟨fun h => ?_, fun h => by rw [h]; rfl⟩
  have hloc := locatedAt_placeAt loc
  rw [h] at hloc
  generalize hr : Reg.status = r at hloc
  cases hloc with
  | reg hlt => exact regAt_inj hlt (by decide) hr.symm

/-- The location of a cell is valid exactly when the cell lies in the symbol (R64). -/
theorem validCell_iff_validLoc (s : State) (loc : Nat) : s.validCell (matX loc) (matY loc) = true ↔ s.ValidLoc loc :=
  validCell_iff s _ _

/-! ## Illegal reads -/

/-- Only `CMD` has no content to read (R32). -/
theorem regWord_eq_none {r : Reg} : s.regWord r = none ↔ r = .cmd := by cases r <;> simp [State.regWord]

theorem readEntry_ne_illegal (s : State) (len i loc : Nat) : s.readEntry len i loc ≠ .illegal := by
  unfold State.readEntry
  split
  · split <;> simp
  · simp

/-- Outside phase BUSY the illegal reads are those of `CMD`, of an unmapped location and of a location that is no cell (R68). -/
theorem readPlace_eq_illegal_iff :
    s.readPlace (placeAt loc) = .illegal ↔ loc = 0 ∨ UnmappedLoc loc ∨ (0x10000 ≤ loc ∧ ¬ s.ValidLoc loc) := by
  have hloc := locatedAt_placeAt loc
  generalize placeAt loc = p at hloc
  cases hloc with
  | reg h =>
    have hcmd : s.readPlace (.reg (regAt loc)) = .illegal ↔ regAt loc = .cmd := by
      rw [← regWord_eq_none (s := s), State.readPlace]
      cases s.regWord (regAt loc) <;> simp
    have hzero : regAt loc = .cmd ↔ loc = 0 := ⟨fun e => regAt_inj h (by decide) e, fun e => by rw [e]; rfl⟩
    rw [hcmd, hzero]; omega
  | bufA h => exact iff_of_false (readEntry_ne_illegal s _ _ _) (by simp only [baseA]; omega)
  | bufB h => exact iff_of_false (readEntry_ne_illegal s _ _ _) (by simp only [baseB]; omega)
  | bufC h => exact iff_of_false (readEntry_ne_illegal s _ _ _) (by simp only [baseC]; omega)
  | unmapped h => exact iff_of_true rfl (.inr (.inl h))
  | cell h =>
    have hcell : s.readPlace (.cell (matX loc) (matY loc)) = .illegal ↔ ¬ s.ValidLoc loc := by
      rw [← validCell_iff_validLoc, State.readPlace]
      split <;> simp [*]
    rw [hcell]; omega

/-- A read finds nothing exactly when it is illegal (R68, R69). -/
theorem find_eq_illegal_iff : s.find loc = .illegal ↔ s.IllegalRead loc := by
  by_cases hp : s.phase = .busy
  · by_cases h1 : loc = 1
    · subst h1
      exact iff_of_false (by simp [find_status]) (by omega)
    · exact iff_of_true (if_pos ⟨hp, fun h => h1 (placeAt_eq_status.1 h)⟩) (.inl ⟨hp, h1⟩)
  · rw [find_of_not_busy s loc hp, readPlace_eq_illegal_iff, State.IllegalRead]
    simp [hp]

/-! ## Illegal writes -/

/-- Every register but `CMD`, `LEN_A` and `LEN_B` is read-only (R31, R68). -/
theorem writePlace_readOnly {v : Word} {r : Reg} (hcmd : r ≠ .cmd) (hA : r ≠ .lenA) (hB : r ≠ .lenB) :
    s.writePlace v (.reg r) = s.setHerr := by
  cases r with
  | cmd => exact absurd rfl hcmd
  | lenA => exact absurd rfl hA
  | lenB => exact absurd rfl hB
  | _ => rfl

/-- In phase IDLE a write is illegal and sets `HERR`, or it is legal and leaves `HERR` alone (R68). -/
theorem writePlace_legality (hp : s.phase = .idle) (loc : Nat) (v : Word) :
    (s.IllegalWrite loc v ∧ s.writePlace v (placeAt loc) = s.setHerr)
      ∨ (¬ s.IllegalWrite loc v ∧ (s.writePlace v (placeAt loc)).herr = s.herr) := by
  have hloc := locatedAt_placeAt loc
  simp only [State.IllegalWrite, hp, ne_eq, not_true_eq_false, false_or]
  generalize placeAt loc = p at hloc
  cases hloc with
  | reg h =>
    by_cases h0 : loc = 0
    · subst h0; exact .inr ⟨by omega, rfl⟩
    by_cases hlen : loc = 6 ∨ loc = 7
    · by_cases hv : v.toNat ≤ 256
      · refine .inr ⟨by omega, ?_⟩
        rcases hlen with rfl | rfl <;> simp [regAt, State.writePlace, Config.polyCap, hv]
      · refine .inl ⟨by omega, ?_⟩
        rcases hlen with rfl | rfl <;> simp [regAt, State.writePlace, Config.polyCap, hv]
    · refine .inl ⟨by omega, writePlace_readOnly ?_ ?_ ?_⟩
      · exact fun e => h0 (regAt_inj h (by decide) e)
      · exact fun e => hlen (.inl (regAt_inj h (by decide) e))
      · exact fun e => hlen (.inr (regAt_inj h (by decide) e))
  | bufA h => exact .inr ⟨by simp only [baseA]; omega, rfl⟩
  | bufB h => exact .inr ⟨by simp only [baseB]; omega, rfl⟩
  | bufC h => exact .inl ⟨by simp only [baseC]; omega, rfl⟩
  | unmapped h => exact .inl ⟨by omega, rfl⟩
  | cell h =>
    by_cases hv : s.validCell (matX loc) (matY loc) = true
    · have hl := (validCell_iff_validLoc s loc).1 hv
      exact .inr ⟨by omega, by rw [State.writePlace, if_pos hv]⟩
    · have hl := mt (validCell_iff_validLoc s loc).2 hv
      exact .inl ⟨by omega, if_neg hv⟩
/-! ## The steps of an access -/

/-- The step of a read, whatever it finds: `HERR` is set exactly when it is illegal (R67, R68). -/
theorem step_read {l : Loc} {rest : List HostOp} (hm : s.HostMoves) (hs : s.script = .read l :: rest) :
    ∃ rdata draws, step s = .next { s with script := rest, busyFor := s.busyFor - 1, rdata := rdata, draws := draws
                                           herr := s.herr || decide (s.IllegalRead l.toNat) } := by
  have hill : decide (State.find { s with script := rest, busyFor := s.busyFor - 1 } l.toNat = .illegal)
      = decide (s.IllegalRead l.toNat) := decide_eq_decide.2 find_eq_illegal_iff
  rw [step_of_hostMoves (blockMoves_of_hostMoves hm), hostTurn_read s hs, hostRead_eq, hill]
  exact ⟨_, _, rfl⟩

/-- The step of an illegal write drops it and sets `HERR` (R68, R69). -/
theorem step_write_illegal {l : Loc} {v : Word} {rest : List HostOp} (hm : s.HostMoves) (hs : s.script = .write l v :: rest)
    (hill : s.IllegalWrite l.toNat v) :
    step s = .next { s with script := rest, busyFor := s.busyFor - 1, herr := true } := by
  by_cases hp : s.phase = .idle
  · rw [step_write_idle hp hs]
    rcases writePlace_legality (s := { s with script := rest, busyFor := s.busyFor - 1 }) hp l.toNat v with ⟨-, e⟩ | ⟨hl, -⟩
    · rw [e]; rfl
    · exact absurd hill hl
  · exact step_write_not_idle hm hp hs

/-- The step of a legal write leaves `HERR` alone (R68). -/
theorem step_write_legal {l : Loc} {v : Word} {rest : List HostOp} (hs : s.script = .write l v :: rest)
    (hl : ¬ s.IllegalWrite l.toNat v) : ∃ t, step s = .next t ∧ t.herr = s.herr := by
  have hp : s.phase = .idle := by by_contra hp; exact hl (.inl hp)
  refine ⟨_, step_write_idle hp hs, ?_⟩
  rcases writePlace_legality (s := { s with script := rest, busyFor := s.busyFor - 1 }) hp l.toNat v with ⟨hill, -⟩ | ⟨-, e⟩
  · exact absurd hill hl
  · exact e

/-- The step of a read of an unwritten buffer entry returns an unspecified byte (R63). -/
theorem step_read_unwritten {l : Loc} {rest : List HostOp} {entry : Nat} (hm : s.HostMoves) (hs : s.script = .read l :: rest)
    (hf : s.find l.toNat = .unwritten entry) :
    step s = .next { s with script := rest, busyFor := s.busyFor - 1
                            rdata := (Config.freeByte s.draws entry).setWidth 32, draws := s.draws + 1 } := by
  have hf : State.find { s with script := rest, busyFor := s.busyFor - 1 } l.toNat = .unwritten entry := hf
  rw [step_of_hostMoves (blockMoves_of_hostMoves hm), hostTurn_read s hs, State.hostRead, hf]

/-- The step of a read at or beyond a buffer's length returns an unspecified word (R63). -/
theorem step_read_beyond {l : Loc} {rest : List HostOp} (hm : s.HostMoves) (hs : s.script = .read l :: rest)
    (hf : s.find l.toNat = .beyond) :
    step s = .next { s with script := rest, busyFor := s.busyFor - 1
                            rdata := Config.freeWord s.draws, draws := s.draws + 1 } := by
  have hf : State.find { s with script := rest, busyFor := s.busyFor - 1 } l.toNat = .beyond := hf
  rw [step_of_hostMoves (blockMoves_of_hostMoves hm), hostTurn_read s hs, State.hostRead, hf]

/-! ## The buffer windows -/

/-- In phase IDLE the step of a write to an entry of A or B stores bits 7:0 of the value (R63). -/
theorem step_write_entry {base k : Nat} {v : Word} {rest : List HostOp} (hp : s.phase = .idle) (hk : k < 256)
    (hb : base = baseA ∨ base = baseB) (hs : s.script = .write (BitVec.ofNat 17 (base + k)) v :: rest) :
    step s = .next { s with script := rest, busyFor := s.busyFor - 1
                            mem := Memory.write s.mem (base + k) (v.extractLsb' 0 8) } := by
  rcases hb with rfl | rfl
  · rw [step_write_idle hp hs, BitVec.toNat_ofNat, Nat.mod_eq_of_lt (by simp only [baseA]; omega), placeAt_bufA hk]; rfl
  · rw [step_write_idle hp hs, BitVec.toNat_ofNat, Nat.mod_eq_of_lt (by simp only [baseB]; omega), placeAt_bufB hk]; rfl

/-- Outside phase BUSY a read of a buffer location finds the entry, by the buffer's length (R63). -/
theorem find_buffer (hp : s.phase ≠ .busy) {k : Nat} (hk : k < 256) {p : Nat × Nat}
    (hmem : p ∈ [(baseA, s.lenA), (baseB, s.lenB), (baseC, s.lenC)]) :
    s.find (BitVec.ofNat 17 (p.1 + k)).toNat = s.readEntry p.2 k (p.1 + k) := by
  rw [find_of_not_busy s _ hp, BitVec.toNat_ofNat]
  simp only [List.mem_cons, List.not_mem_nil, or_false] at hmem
  rcases hmem with rfl | rfl | rfl
  · rw [Nat.mod_eq_of_lt (by simp only [baseA]; omega), placeAt_bufA hk]; rfl
  · rw [Nat.mod_eq_of_lt (by simp only [baseB]; omega), placeAt_bufB hk]; rfl
  · rw [Nat.mod_eq_of_lt (by simp only [baseC]; omega), placeAt_bufC hk]; rfl

theorem readEntry_of_some {len k loc : Nat} {b : Byte} (hk : k < len) (hr : Memory.read s.mem loc = some b) :
    s.readEntry len k loc = .word (b.setWidth 32) := by simp [State.readEntry, hk, hr]

theorem readEntry_of_none {len k loc : Nat} (hk : k < len) (hr : Memory.read s.mem loc = none) :
    s.readEntry len k loc = .unwritten loc := by simp [State.readEntry, hk, hr]

theorem readEntry_beyond {len k loc : Nat} (hk : len ≤ k) : s.readEntry len k loc = .beyond := if_neg (Nat.not_lt.2 hk)

/-! ## The matrix window -/

/-- The matrix window ends with the location space (R60). -/
theorem toNat_cellLoc {x y : Nat} (hx : x < 256) (hy : y < 256) : (BitVec.ofNat 17 (0x10000 + 256 * y + x)).toNat = matLoc x y := by
  rw [BitVec.toNat_ofNat, Nat.mod_eq_of_lt (by omega)]; rfl

/-- The word a cell reads as: its three bits, zero-extended (R28, R64). -/
theorem getLsbD_cellWord (c : Cell) (k : Nat) :
    (c.toByte.setWidth 32).getLsbD k
      = match k with
        | 0 => c.value
        | 1 => c.isCodeword
        | 2 => c.isSet
        | _ => false := by
  simp only [Cell.toByte, BitVec.getLsbD_setWidth, BitVec.getLsbD_append]
  match k with
  | 0 | 1 | 2 => simp
  | k + 3 => simp

/-- The location of a cell is valid exactly when there is a matrix and the cell lies in the symbol (R64). -/
theorem validLoc_matLoc {x y : Nat} (hx : x < 256) : s.ValidLoc (matLoc x y) ↔ s.ver ≠ 0 ∧ x < s.side ∧ y < s.side := by
  rw [← validCell_iff_validLoc, matX_matLoc x y hx, matY_matLoc x y hx, validCell_iff, Fin.val_ne_zero_iff]

/-- An access to a location that is no cell of the symbol is illegal (R64, R68). -/
theorem illegal_of_outside {x y : Nat} (hx : x < 256) (h : ¬ (s.ver ≠ 0 ∧ x < s.side ∧ y < s.side)) (v : Word) :
    s.IllegalRead (matLoc x y) ∧ s.IllegalWrite (matLoc x y) v := by
  have hm : 0x10000 ≤ matLoc x y := by simp only [matLoc, baseMat]; omega
  have hv : ¬ s.ValidLoc (matLoc x y) := mt (validLoc_matLoc hx).1 h
  exact ⟨.inr (.inr (.inr ⟨hm, hv⟩)), .inr (.inr (.inr (.inr (.inr ⟨hm, hv⟩))))⟩

theorem validCell_of_inside {x y : Nat} (hv : s.ver ≠ 0) (hx : x < s.side) (hy : y < s.side) : s.validCell x y = true :=
  (validCell_iff s x y).2 ⟨Fin.val_ne_zero_iff.2 hv, hx, hy⟩

/-- Outside phase BUSY a read of a cell of the symbol finds its three bits (R64). -/
theorem find_cell {x y : Nat} (hp : s.phase ≠ .busy) (hx : x < 256) (hc : s.validCell x y = true) :
    s.find (matLoc x y) = .word ((cellAt s.mem x y).toByte.setWidth 32) := by
  rw [find_of_not_busy s _ hp, placeAt_cell hx]; exact if_pos hc

/-- The cell of a written value is its bits 2:0 (R64). -/
theorem ofByte_extractLsb' (v : Word) : Cell.ofByte (v.extractLsb' 0 8) = ⟨v.getLsbD 2, v.getLsbD 1, v.getLsbD 0⟩ := by
  simp [Cell.ofByte]

/-- In phase IDLE the step of a write to a cell of the symbol stores bits 2:0 of the value (R64). -/
theorem step_write_cell {x y : Nat} {l : Loc} {v : Word} {rest : List HostOp} (hp : s.phase = .idle) (hx : x < 256)
    (hc : s.validCell x y = true) (hl : l.toNat = matLoc x y) (hs : s.script = .write l v :: rest) :
    step s = .next { s with script := rest, busyFor := s.busyFor - 1
                            mem := writeCell s.mem x y ⟨v.getLsbD 2, v.getLsbD 1, v.getLsbD 0⟩ } := by
  rw [step_write_idle hp hs, hl, placeAt_cell hx, ← ofByte_extractLsb']
  exact congrArg _ (if_pos hc)

end Sys2Proof.Machine

open Sys2Proof.Machine

/-- Settles O21: the place of a location tells whether an access to it is illegal, and the step of an access follows it. -/
theorem illegalAccessesSetHerr : Obligations.IllegalAccessesSetHerr := by
  obtain ⟨-, -, hsticky⟩ := statusRegister
  refine ⟨fun s t h hnr => (hsticky s t h hnr).1, fun s loc rest hm => ⟨fun v hs => ⟨fun hill => ?_, step_write_legal hs⟩, fun hs => ?_⟩⟩
  · exact ⟨_, step_write_illegal hm hs hill, rfl⟩
  · obtain ⟨rdata, draws, h⟩ := step_read hm hs
    exact ⟨_, h, rfl, rfl⟩

/-- Settles O24: the step of a write stores one entry, and a read finds the entry by the buffer's length. -/
theorem bufferWindows : Obligations.BufferWindows := by
  intro s i rest hi
  refine ⟨fun v hp => ⟨fun base hb hs => ?_, fun hs => ?_⟩, fun hp p hmem hs => ?_⟩
  · refine ⟨_, step_write_entry hp hi hb hs, ?_, fun loc hne => ?_, rfl⟩
    · exact (Memory.read_write _ _ _ _).trans (if_pos rfl)
    · exact (Memory.read_write _ _ _ _).trans (if_neg hne.symm)
  · refine ⟨_, step_write_illegal (hostMoves_of_idle hp) hs ?_, rfl⟩
    rw [BitVec.toNat_ofNat, Nat.mod_eq_of_lt (by simp only [baseC]; omega)]
    simp only [State.IllegalWrite, baseC]; omega
  · have hm := hostMoves_of_not_busy hp
    have hf := find_buffer hp hi hmem
    refine ⟨fun b hk hr => ?_, fun hk hr => ?_, fun hk => ?_⟩
    · exact ⟨_, step_read_word hm hs (hf.trans (readEntry_of_some hk hr)), rfl⟩
    · exact ⟨_, _, step_read_unwritten hm hs (hf.trans (readEntry_of_none hk hr)), rfl⟩
    · exact ⟨_, step_read_beyond hm hs (hf.trans (readEntry_beyond hk)), rfl⟩

/-- Settles O25: the location of a cell is valid by R64, and the cell written and read is the one at its coordinates. -/
theorem matrixWindow : Obligations.MatrixWindow := by
  intro s x y rest hx hy hm
  have hloc := toNat_cellLoc hx hy
  refine ⟨fun hs => ⟨fun hp hv hsx hsy => ?_, fun h => ?_⟩, fun v hs => ⟨fun hp hv hsx hsy => ?_, fun h => ?_⟩⟩
  · have hf := find_cell hp hx (validCell_of_inside hv hsx hsy)
    refine ⟨_, step_read_word hm hs (by rw [hloc]; exact hf), getLsbD_cellWord _ 0, getLsbD_cellWord _ 1, getLsbD_cellWord _ 2,
      fun k hk => ?_, rfl⟩
    obtain ⟨k, rfl⟩ := Nat.exists_eq_add_of_le' hk
    exact getLsbD_cellWord _ (k + 3)
  · obtain ⟨hill, -⟩ := illegal_of_outside hx h 0
    exact ⟨_, step_read_illegal hm hs (by rw [hloc]; exact find_eq_illegal_iff.2 hill), rfl⟩
  · refine ⟨_, step_write_cell hp hx (validCell_of_inside hv hsx hsy) hloc hs, ?_, fun loc hne => ?_, rfl⟩
    · exact (cellAt_writeCell _ _ hx hx).trans (if_pos ⟨rfl, rfl⟩)
    · exact (Memory.read_write _ _ _ _).trans (if_neg hne.symm)
  · obtain ⟨-, hill⟩ := illegal_of_outside hx h v
    exact ⟨_, step_write_illegal hm hs (by rw [hloc]; exact hill), rfl⟩

end

section
/-! SUPPORT. The words of the commands without operands (30_encoding.md R91 to R94), and the transition of `PMOD` (40_gf_poly.md R128). -/

namespace Sys2Proof

/-! ## Words of an opcode and a 24-bit field -/

theorem opcodeOf_append (op : BitVec 8) (r : BitVec 24) : opcodeOf (op ++ r) = op := BitVec.extractLsb'_append_eq_left

/-- A word with another opcode does not select a row whose mask covers the opcode (R93). -/
theorem selects_of_opcode_ne {op : BitVec 8} {mask pattern : Word} (r : BitVec 24) (hm : opcodeOf mask = 0xFF#8)
    (hne : op ≠ opcodeOf pattern) : selects (op ++ r) mask pattern = false := by
  rw [selects, beq_eq_false_iff_ne]
  rintro rfl
  have hop : opcodeOf ((op ++ r) &&& mask) = opcodeOf (op ++ r) &&& opcodeOf mask := BitVec.extractLsb'_and
  rw [hop, hm, opcodeOf_append] at hne
  exact hne BitVec.and_allOnes.symm

/-- A word with a non-zero field does not select a row whose mask covers the field and whose pattern has it 0 (R93). -/
theorem selects_of_field_ne_zero {op : BitVec 8} {pattern : Word} {r : BitVec 24} (hr : r ≠ 0)
    (hp : pattern.extractLsb' 0 24 = 0#24) : selects (op ++ r) 0xFFFFFFFF pattern = false := by
  rw [selects, beq_eq_false_iff_ne]
  rintro rfl
  have hone : (op ++ r) &&& (0xFFFFFFFF : Word) = op ++ r := BitVec.and_allOnes
  rw [hone, BitVec.extractLsb'_append_eq_right] at hp
  exact hr hp

/-- The opcodes of the commands without operands (R93). -/
def plainOpcodes : List (BitVec 8) := [0x14, 0x15, 0x32, 0x33, 0x41, 0x45]

/-- With the opcode of a command without operands every other bit is reserved (R91, R94). -/
theorem decode_plain_of_ne_zero {op : BitVec 8} (hop : op ∈ plainOpcodes) {r : BitVec 24} (hr : r ≠ 0) :
    decode (op ++ r) = .illegal .reservedBit := by
  have hassigned : assignedOpcodes.contains op = true := by revert op; decide
  simp only [plainOpcodes, List.mem_cons, List.not_mem_nil, or_false] at hop
  rcases hop with rfl | rfl | rfl | rfl | rfl | rfl <;>
    simp (disch := decide) only [decode, selects_of_opcode_ne, selects_of_field_ne_zero hr, opcodeOf_append, hassigned, reduceIte,
      Bool.false_eq_true]

/-- `PMOD` is the one command of its opcode (R93, R94). -/
theorem decode_pmod_append (r : BitVec 24) :
    decode (0x15#8 ++ r) = if r = 0 then .command .pmod else .illegal .reservedBit := by
  split
  · subst r; rfl
  · exact decode_plain_of_ne_zero (by decide) ‹_›

end Sys2Proof

namespace Sys2Proof.Machine

variable {s : State}

/-! ## `PMOD` -/

/-- The remainder `PMOD` writes (R128), on operands with unwritten entries (R275). -/
def State.remainder (s : State) : List Entry := openPolyMod (Config.freeByte s.draws) s.listA s.listB

/-- `PMOD` tests its divisor and then writes the remainder (R128). -/
theorem exec_pmod (s : State) :
    exec .pmod s = conclude [(decide (s.lenB = 0 ∨ s.entry baseB ≠ 1), .divisor)] (fun s => s.setC s.remainder) s := rfl

/-- `PMOD` by a monic divisor completes with the remainder in C (R128). -/
theorem exec_pmod_of_monic (hB : 1 ≤ s.lenB) (hm : s.entry baseB = 1) : exec .pmod s = .next (s.setC s.remainder).complete := by
  have hpass : ¬ (s.lenB = 0 ∨ s.entry baseB ≠ 1) := by rintro (h0 | hne); exacts [by omega, hne hm]
  rw [exec_pmod, conclude_of_none _ s (by rw [firstFailing_cons, decide_eq_false hpass]; rfl)]

/-- `PMOD` by an empty or non-monic divisor faults with DIVISOR (R128). -/
theorem exec_pmod_faults (h : s.lenB = 0 ∨ s.entry baseB ≠ 1) : exec .pmod s = .next (s.faultEntry .divisor) := by
  rw [exec_pmod, conclude_of_some _ s (by rw [firstFailing_cons, decide_eq_true h, if_pos rfl])]

/-- A written entry is the byte that was written (R128). -/
theorem entry_of_read {loc : Nat} {b : Byte} (h : Memory.read s.mem loc = some b) : s.entry loc = b := by
  rw [State.entry, h, Option.getD_some]

/-- The remainder is shorter than the divisor (R123, fact 5). -/
theorem length_remainder_lt (hB : 1 ≤ s.lenB) : s.remainder.length < s.lenB := by
  have h := length_openPolyMod_lt (Config.freeByte s.draws) s.listA (q := s.listB) (by rw [length_listB]; omega)
  rwa [length_listB] at h

/-- A dividend shorter than the divisor is its own remainder (R123). -/
theorem remainder_short (h : s.lenA < s.lenB) : s.remainder = s.listA :=
  openPolyMod_short _ (by rwa [length_listA, length_listB])

/-- Where a pass runs the remainder has no leading zero (R123). -/
theorem head_remainder (h : s.lenB ≤ s.lenA) : s.remainder[0]? ≠ some (some 0) := by
  rw [← List.head?_eq_getElem?]
  exact head_openPolyMod _ (by rwa [length_listA, length_listB])

/-- A divisor that is all written is monic where the test of `B[0]` passes (R128). -/
theorem head_of_listB {b : Poly} (hB : 1 ≤ s.lenB) (hm : s.entry baseB = 1) (h : s.listB = b.map some) : b.head? = some 1 := by
  have hread : some (Memory.read s.mem baseB) = b.head?.map some := by
    rw [List.head?_eq_getElem?, ← List.getElem?_map, ← h]; exact (getElem?_bufferList s baseB (k := 0) hB).symm
  cases hh : b.head? with
  | none => rw [hh] at hread; cases hread
  | some c =>
    rw [hh] at hread
    rw [← hm, entry_of_read (Option.some.inj hread)]

/-- On operands all written the remainder is `polyMod` (R123, R128). -/
theorem remainder_written {a b : Poly} (hB : 1 ≤ s.lenB) (hm : s.entry baseB = 1) (ha : s.listA = a.map some)
    (hb : s.listB = b.map some) : s.remainder = (polyMod a b).map some := by
  rw [State.remainder, ha, hb, openPolyMod_map_some _ _ (head_of_listB hB hm hb)]

/-- An entry of the remainder with a value has it, counted from the end, whatever the unwritten entries are (R275). -/
theorem remainder_value {a b : Poly} (h : s.lenB ≤ s.lenA) (ha : Fills s.listA a) (hb : Fills s.listB b) (hm : b.head? = some 1)
    {k : Nat} {v : Byte} (hk : s.remainder[k]? = some (some v)) :
    (List.replicate (s.lenB - 1 - (polyMod a b).length) 0 ++ polyMod a b)[s.lenB - 1 - s.remainder.length + k]? = some v := by
  obtain ⟨ds, rfl⟩ := List.head?_eq_some_iff.1 hm
  have hlen : s.lenB - 1 = ds.length := by
    rw [← length_listB, hb.length_eq, List.length_cons, Nat.add_sub_cancel]
  rw [hlen]
  exact openPolyMod_value _ ha hb (by rwa [length_listA, length_listB]) hk

/-- By a divisor of one entry nothing remains (R123). -/
theorem polyMod_one (p : Poly) : polyMod p [1] = [] :=
  List.length_eq_zero_iff.1 (Nat.lt_one_iff.1 (length_polyMod_lt p (divisor := [1]) rfl))

end Sys2Proof.Machine

open Sys2Proof Sys2Proof.Machine

/-- Settles O38: the remainder that `PMOD` writes to C, by the laws of `openPolyMod`. -/
theorem pmodRule : Obligations.PmodRule := by
  refine ⟨fun s h1 hB hm => ?_, fun s h => ?_, fun s b h => entry_of_read h, by decide +kernel, by decide +kernel, by decide +kernel,
    by decide +kernel, polyMod_one, decode_pmod_append⟩
  · have hlen := length_remainder_lt h1
    have hfit : s.remainder.length ≤ 256 := by omega
    have hentry : ∀ k, k < s.remainder.length → Memory.read (Memory.replaceC s.mem s.remainder) (baseC + k) = s.remainder[k]?.join :=
      fun k hk => Memory.read_replaceC_entry s.mem hfit hk
    refine ⟨_, exec_pmod_of_monic h1 hm, hlen, fun a b ha hb => ?_, fun hlt => ?_, fun hle k v hk hr a b ha hb hbm => ?_,
      fun hle h0 => ?_, fun loc hl => ?_, rfl⟩
    · have hrem := remainder_written h1 hm ha hb
      refine ⟨by simp [hrem], fun k hk => (hentry k hk).trans ?_⟩
      rw [hrem, List.getElem?_map]
      cases (polyMod a b)[k]? <;> rfl
    · have hrem := remainder_short hlt
      refine ⟨by simp [hrem, length_listA], fun k hk => (hentry k (by rwa [hrem, length_listA])).trans ?_⟩
      rw [hrem]
      exact congrArg Option.join (getElem?_bufferList s baseA hk)
    · have hr := (hentry k hk).symm.trans hr
      exact remainder_value hle ha hb hbm (Option.join_eq_some_iff.1 hr)
    · intro hr
      have hr := (hentry 0 (Nat.pos_of_ne_zero h0)).symm.trans hr
      exact head_remainder hle (Option.join_eq_some_iff.1 hr)
    · exact (Memory.read_replaceC _ _ _ hfit).trans (if_neg (by omega))
  · rw [exec_pmod_faults h]; exact faultsWith_faultEntry s .divisor

end

section
/-! SUPPORT. Decoding as a search through the rows of the opcode map (30_encoding.md R91 to R94). A row reads one candidate out of the word;
the row's mask fixes every bit of the word that is no operand of the candidate. -/

namespace Sys2Proof

open Laws.RowPattern (rowMask rowMatch)
open Machine (opcodeMap)

/-! ## The rows and their candidates -/

/-- What each row of the opcode map reads out of `w`, selected or not (R91, R93). -/
def candidates (w : Word) : List Instr :=
  [.gfmul (w.extractLsb' 0 8) (w.extractLsb' 8 8), .gfexp (w.extractLsb' 0 9), .gflog (w.extractLsb' 0 8), .pmul, .pmod,
    .genld (w.extractLsb' 0 7), .rsenc (w.extractLsb' 0 7), .minit (w.extractLsb' 0 6), .maskapply (maskField w), .score, .masksel,
    .fmtpack (ecField w) (maskField w), .fmtrsv, .fmtplace (ecField w) (maskField w), .verpack (w.extractLsb' 0 6), .verplace]

/-- The row of `i` selects `w` (R93). -/
abbrev RowSelects (w : Word) (i : Instr) : Prop := w &&& rowMask i = rowMatch i

/-- The name a word is refused by, if it is no command (R94). -/
def refusalOf (w : Word) : IllegalWord := if opcodeOf w ∈ assignedOpcodes then .reservedBit else .unassignedOpcode

/-- The row of `i` decodes `w` to `i` if it selects it, else the rows after it decide. -/
def tryRow (w : Word) (i : Instr) (later : Decoded) : Decoded :=
  if selects w (rowMask i) (rowMatch i) then .command i else later

theorem tryRow_of_selects {w : Word} {i : Instr} (h : RowSelects w i) (later : Decoded) : tryRow w i later = .command i :=
  if_pos (beq_iff_eq.2 h)

theorem tryRow_of_not_selects {w : Word} {i : Instr} (h : ¬ RowSelects w i) (later : Decoded) : tryRow w i later = later :=
  if_neg (mt beq_iff_eq.1 h)

/-- The decoder tries the rows in order (R93, R94). -/
theorem decode_eq_foldr (w : Word) : decode w = (candidates w).foldr (tryRow w) (.illegal (refusalOf w)) := by
  have hrefusal : Decoded.illegal (refusalOf w)
      = if assignedOpcodes.contains (opcodeOf w) then .illegal .reservedBit else .illegal .unassignedOpcode := by
    rw [refusalOf, apply_ite Decoded.illegal]; simp only [List.contains_iff_mem]
  rw [hrefusal]; rfl

/-- A search through rows ends at one that selects the word, or at none. -/
theorem foldr_tryRow_cases (w : Word) (refusal : Decoded) (l : List Instr) :
    (∃ i ∈ l, RowSelects w i ∧ l.foldr (tryRow w) refusal = .command i)
      ∨ ((∀ i ∈ l, ¬ RowSelects w i) ∧ l.foldr (tryRow w) refusal = refusal) := by
  induction l with
  | nil => exact .inr ⟨by simp, rfl⟩
  | cons i l ih =>
    by_cases hi : RowSelects w i
    · exact .inl ⟨i, List.mem_cons_self, hi, tryRow_of_selects hi _⟩
    · rw [List.foldr_cons, tryRow_of_not_selects hi]
      exact ih.imp (fun ⟨j, hj, h⟩ => ⟨j, List.mem_cons_of_mem i hj, h⟩) fun ⟨hl, h⟩ => ⟨List.forall_mem_cons.2 ⟨hi, hl⟩, h⟩

/-- What the decoder makes of a word: the candidate of a row that selects it, or a refusal if none does (R93, R94). -/
theorem decode_cases (w : Word) :
    (∃ i ∈ candidates w, RowSelects w i ∧ decode w = .command i)
      ∨ ((∀ i ∈ candidates w, ¬ RowSelects w i) ∧ decode w = .illegal (refusalOf w)) := by
  rw [decode_eq_foldr]; exact foldr_tryRow_cases w _ _

/-- The rows of the candidates are those of the opcode map (R93). -/
theorem map_row_candidates (w : Word) : (candidates w).map (fun i => (rowMask i, rowMatch i)) = opcodeMap := by
  simp only [candidates, List.map_cons, List.map_nil, rowMask, rowMatch, opcodeMap]

/-- The candidates' rows select a word as the opcode map does (R93). -/
theorem exists_candidate_iff (w : Word) : (∃ i ∈ candidates w, RowSelects w i) ↔ ∃ r ∈ opcodeMap, w &&& r.1 = r.2 := by
  rw [← map_row_candidates w]; simp only [List.mem_map, exists_exists_and_eq_and]

/-! ## Windows of a word that a mask fixes -/

/-- Where the mask is all ones a selected word has the bits of the pattern. -/
theorem window_of_and {n : ℕ} {w mask pattern : BitVec n} (h : w &&& mask = pattern) (start len : ℕ)
    (hm : mask.extractLsb' start len = BitVec.allOnes len) : w.extractLsb' start len = pattern.extractLsb' start len := by
  rw [← h, BitVec.extractLsb'_and, hm, BitVec.and_allOnes]

/-- A word selected by a mask that covers all but its low bits is those of the pattern followed by its own low bits. -/
theorem append_low_of_and {m n : ℕ} {w mask pattern : BitVec (m + n)} {high : BitVec m} (h : w &&& mask = pattern)
    (hm : mask.extractLsb' n m = BitVec.allOnes m) (hp : pattern.extractLsb' n m = high) : high ++ w.extractLsb' 0 n = w := by
  rw [← hp, ← window_of_and h n m hm, BitVec.extractLsb'_append_extractLsb'_eq_extractLsb' (by omega), BitVec.extractLsb'_eq_self]

/-! ## The two directions of the round trip -/

theorem ecLevelOf_toBits (ec : EcLevel) : ecLevelOf ec.toBits = ec := by cases ec <;> rfl

theorem toBits_ecLevelOf (b : BitVec 2) : (ecLevelOf b).toBits = b := by revert b; decide

/-- A word selected by the row of format AB is its opcode, a reserved byte and its two operands (R91). -/
theorem append_of_and_ab {w : Word} (h : w &&& 0xFFFF0000 = 0x10000000) :
    0x10#8 ++ 0#8 ++ w.extractLsb' 8 8 ++ w.extractLsb' 0 8 = w := by
  have hhigh : w.extractLsb' 16 16 = 0x10#8 ++ 0#8 := window_of_and h 16 16 rfl
  rw [← hhigh, BitVec.extractLsb'_append_extractLsb'_eq_extractLsb' (start₂ := 16) (start₁ := 8) rfl,
    BitVec.extractLsb'_append_extractLsb'_eq_extractLsb' (start₂ := 8) (start₁ := 0) rfl]
  exact BitVec.extractLsb'_eq_self

/-- A word selected by a row of format EM is its opcode, its level and its mask among reserved bits (R91). -/
theorem append_of_and_em {op : BitVec 8} {pattern w : Word} (h : w &&& 0xFFFFFCF8 = pattern)
    (hhigh : pattern.extractLsb' 10 22 = op ++ 0#14) (hmid : pattern.extractLsb' 3 5 = 0#5) :
    op ++ 0#14 ++ (ecField w).toBits ++ 0#5 ++ maskField w = w := by
  rw [ecField, maskField, toBits_ecLevelOf, ← hhigh, ← hmid, ← window_of_and h 10 22 rfl, ← window_of_and h 3 5 rfl,
    BitVec.extractLsb'_append_extractLsb'_eq_extractLsb' (start₂ := 10) (start₁ := 8) rfl,
    BitVec.extractLsb'_append_extractLsb'_eq_extractLsb' (start₂ := 8) (start₁ := 3) rfl,
    BitVec.extractLsb'_append_extractLsb'_eq_extractLsb' (start₂ := 3) (start₁ := 0) rfl]
  exact BitVec.extractLsb'_eq_self

/-- A candidate whose row selects the word is the command of that word: its operands are the bits that the mask leaves open (R91, R93). -/
theorem encode_of_candidate {w : Word} {i : Instr} (hi : i ∈ candidates w) (h : RowSelects w i) : encode i = w := by
  simp only [candidates, List.mem_cons, List.not_mem_nil, or_false] at hi
  rcases hi with rfl | rfl | rfl | rfl | rfl | rfl | rfl | rfl | rfl | rfl | rfl | rfl | rfl | rfl | rfl | rfl
  all_goals simp only [RowSelects, rowMask, rowMatch] at h
  -- The rows stand in the order of the opcode map; `m` counts the bits a row fixes and `n` those of its operand.
  · exact append_of_and_ab h
  · exact append_low_of_and (m := 23) (n := 9) h rfl rfl
  · exact append_low_of_and (m := 24) (n := 8) h rfl rfl
  · exact h.symm.trans BitVec.and_allOnes
  · exact h.symm.trans BitVec.and_allOnes
  · exact append_low_of_and (m := 25) (n := 7) h rfl rfl
  · exact append_low_of_and (m := 25) (n := 7) h rfl rfl
  · exact append_low_of_and (m := 26) (n := 6) h rfl rfl
  · exact append_low_of_and (m := 29) (n := 3) h rfl rfl
  · exact h.symm.trans BitVec.and_allOnes
  · exact h.symm.trans BitVec.and_allOnes
  · exact append_of_and_em h rfl rfl
  · exact h.symm.trans BitVec.and_allOnes
  · exact append_of_and_em h rfl rfl
  · exact append_low_of_and (m := 26) (n := 6) h rfl rfl
  · exact h.symm.trans BitVec.and_allOnes

/-- The window above the lowest field is the field before it. -/
theorem field_append {k m n : ℕ} (high : BitVec k) (x : BitVec m) (low : BitVec n) :
    (high ++ x ++ low).extractLsb' n m = x := by
  rw [BitVec.extractLsb'_append_eq_of_le (Nat.le_refl n), Nat.sub_self, BitVec.extractLsb'_append_eq_right]

/-- The window of the level in a word of format EM (R91). -/
theorem levelWindow_append (op : BitVec 8) (ec : EcLevel) (m : BitVec 3) :
    (op ++ 0#14 ++ ec.toBits ++ 0#5 ++ m).extractLsb' 8 2 = ec.toBits := by
  rw [BitVec.extractLsb'_append_eq_of_le (by decide)]
  exact field_append ..

/-- A command's own row reads its operands back out of its word (R91). -/
theorem mem_candidates_encode (i : Instr) : i ∈ candidates (encode i) := by
  cases i <;> simp only [candidates, encode, maskField, ecField, BitVec.extractLsb'_append_eq_right, field_append, levelWindow_append,
    ecLevelOf_toBits, List.mem_cons, true_or, or_true]

/-- The opcode of a selected word is that of the row (R90). -/
theorem opcodeOf_of_selects {w : Word} {i : Instr} (h : RowSelects w i) : opcodeOf w = opcodeOf (rowMatch i) :=
  window_of_and h 24 8 (by cases i <;> simp only [rowMask] <;> rfl)

/-- No two rows select one word, since their opcodes differ (R93). -/
theorem candidate_unique {w : Word} {i j : Instr} (hi : i ∈ candidates w) (hj : j ∈ candidates w) (h : RowSelects w i)
    (h' : RowSelects w j) : i = j := by
  have hnodup : ((candidates w).map fun i => opcodeOf (rowMatch i)).Nodup := by
    simp only [candidates, List.map_cons, List.map_nil, rowMatch]
    decide
  exact List.inj_on_of_nodup_map hnodup hi hj ((opcodeOf_of_selects h).symm.trans (opcodeOf_of_selects h'))

/-- The word of every command selects the command's row (R93). -/
theorem rowSelects_encode : ∀ i : Instr, RowSelects (encode i) i
  | .gfmul a b => Laws.RowPattern.gfmul a b
  | .gfexp idx => Laws.RowPattern.gfexp idx
  | .gflog x => Laws.RowPattern.gflog x
  | .pmul => Laws.RowPattern.pmul
  | .pmod => Laws.RowPattern.pmod
  | .genld d => Laws.RowPattern.genld d
  | .rsenc e => Laws.RowPattern.rsenc e
  | .minit v => Laws.RowPattern.minit v
  | .maskapply m => Laws.RowPattern.maskapply m
  | .score => Laws.RowPattern.score
  | .masksel => Laws.RowPattern.masksel
  | .fmtpack ec m => Laws.RowPattern.fmtpack ec m
  | .fmtrsv => Laws.RowPattern.fmtrsv
  | .fmtplace ec m => Laws.RowPattern.fmtplace ec m
  | .verpack v => Laws.RowPattern.verpack v
  | .verplace => Laws.RowPattern.verplace

/-- A word decodes to a command if and only if it is that command's word (R93). -/
theorem decode_eq_command_iff {w : Word} {i : Instr} : decode w = .command i ↔ encode i = w := by
  refine ⟨fun h => ?_, ?_⟩
  · obtain ⟨j, hj, hsel, hdec⟩ | ⟨-, hdec⟩ := decode_cases w
    · rw [← Decoded.command.inj (hdec.symm.trans h)]; exact encode_of_candidate hj hsel
    · rw [hdec] at h; cases h
  · rintro rfl
    obtain ⟨j, hj, hsel, hdec⟩ | ⟨hnone, -⟩ := decode_cases (encode i)
    · rw [hdec, candidate_unique hj (mem_candidates_encode i) hsel (rowSelects_encode i)]
    · exact absurd (rowSelects_encode i) (hnone i (mem_candidates_encode i))

/-- A word is a command's if and only if a row of the opcode map selects it (R93). -/
theorem exists_command_iff (w : Word) : (∃ i, decode w = .command i) ↔ ∃ r ∈ opcodeMap, w &&& r.1 = r.2 := by
  rw [← exists_candidate_iff]
  obtain ⟨i, hi, hsel, hdec⟩ | ⟨hnone, hdec⟩ := decode_cases w
  · exact ⟨fun _ => ⟨i, hi, hsel⟩, fun _ => ⟨i, hdec⟩⟩
  · refine ⟨fun ⟨i, h⟩ => ?_, fun ⟨i, hi, hsel⟩ => absurd hsel (hnone i hi)⟩
    rw [hdec] at h; cases h

/-- A word that is no command's is refused by name (R94). -/
theorem decode_of_no_command {w : Word} (h : ∀ i, decode w ≠ .command i) : decode w = .illegal (refusalOf w) := by
  obtain ⟨i, -, -, hdec⟩ | ⟨-, hdec⟩ := decode_cases w
  · exact absurd hdec (h i)
  · exact hdec

end Sys2Proof

namespace Sys2Proof.Machine

/-- A command with an operand outside its legal range faults with INVALID_INPUT (R92, R94). -/
theorem exec_of_not_wellFormed {i : Instr} (h : ¬ i.WellFormed) (s : State) : exec i s = .next (s.faultEntry .invalidInput) := by
  cases i with
  | genld d =>
    have hd : Config.genMax < d.toNat := Nat.lt_of_not_le fun hle => h (decide_eq_true hle)
    simp only [exec, execGenld]
    exact conclude_of_some _ s (by simp [hd])
  | rsenc e =>
    have he : Config.genMax < e.toNat := Nat.lt_of_not_le fun hle => h (decide_eq_true hle)
    simp only [exec, execRsenc]
    exact conclude_of_some _ s (by simp [he])
  | minit v =>
    have hv : ¬ (Config.verMin ≤ v.toNat ∧ v.toNat ≤ Config.verMax) := fun hle => h (decide_eq_true hle)
    simp only [exec, execMinit]
    exact conclude_of_some _ s (by simp; omega)
  | verpack v =>
    have hv : ¬ (7 ≤ v.toNat ∧ v.toNat ≤ 40) := fun hle => h (decide_eq_true hle)
    simp only [exec, execVerpack, verpackFor, (versionCode_eq_none params v.toNat).2 (by omega)]
  | _ => exact absurd rfl h

/-- In the block's turn the step runs the command in CMDREG (R242). -/
theorem step_of_commandRuns {s : State} (h : s.CommandRuns) : step s = runCommandBy exec s :=
  step_of_blockMoves ((State.blockMoves_iff s).2 h)

theorem runCommandBy_of_command {meaning : Instr → State → Answer} {s : State} {i : Instr}
    (h : decode s.cmdreg = .command i) : runCommandBy meaning s = meaning i s := by rw [runCommandBy, h]

theorem runCommandBy_of_illegal {meaning : Instr → State → Answer} {s : State} {why : IllegalWord}
    (h : decode s.cmdreg = .illegal why) : runCommandBy meaning s = .next (s.faultEntry .illegalCmd) := by rw [runCommandBy, h]

end Sys2Proof.Machine

open Sys2Proof Sys2Proof.Machine

/-- Settles O1: the word of a command decodes to it, as the one candidate its row selects. -/
theorem decodeOfEncode : Obligations.DecodeOfEncode := fun _ => decode_eq_command_iff.2 rfl

/-- Settles O2: the operands and the fixed bits of the selecting row are all the bits of the word. -/
theorem decodedWordIsItsEncoding : Obligations.DecodedWordIsItsEncoding := fun _ _ => decode_eq_command_iff.1

/-- Settles O3: the rows of the search are the opcode map, and a word that none of them selects is refused by its opcode. -/
theorem illegalWordsAreNamed : Obligations.IllegalWordsAreNamed := fun w =>
  ⟨exists_command_iff w, fun h => decode_of_no_command fun i hi => h i (decode_eq_command_iff.1 hi)⟩

/-- Settles O6: an illegal word has no meaning but the fault, and the four commands with a range test their operand first. -/
theorem illegalWordFaults : Obligations.IllegalWordFaults := by
  refine fun s => ⟨exists_command_iff s.cmdreg, fun hrun => ⟨fun hnone => ?_, fun i hi hwf => ?_⟩⟩
  · have hno : ∀ i, decode s.cmdreg ≠ .command i := fun i hi =>
      let ⟨r, hr, hsel⟩ := (exists_command_iff s.cmdreg).1 ⟨i, hi⟩
      hnone r hr hsel
    rw [step_of_commandRuns hrun, runCommandBy_of_illegal (decode_of_no_command hno)]
    exact faultsWith_faultEntry s .illegalCmd
  · rw [step_of_commandRuns hrun, runCommandBy_of_command hi, exec_of_not_wellFormed hwf]
    exact faultsWith_faultEntry s .invalidInput

/-- Settles O4: each sample word is the word of its command, by O1; the zero word has no assigned opcode. -/
theorem sampleWordsDecode : Obligations.SampleWordsDecode :=
  ⟨decodeOfEncode (.gfmul 2 128), decodeOfEncode (.gfexp 255), decodeOfEncode (.gflog 0x1D), decodeOfEncode .pmul,
    decodeOfEncode (.genld 7), decodeOfEncode (.rsenc 10), decodeOfEncode (.minit 7), decodeOfEncode (.maskapply 3),
    decodeOfEncode (.fmtplace .q 5), decodeOfEncode (.verpack 40), rfl⟩

end

section
/-! SUPPORT. Long division is linear in the dividend, so that a block followed by its EC codewords leaves no remainder (41_rs.md
R151, 30_encoding.md R97). -/

namespace Sys2Proof.Machine

@[simp] theorem gfAddLists_nil_left (p : Poly) : gfAddLists [] p = [] := List.zipWith_nil_left
@[simp] theorem gfAddLists_nil_right (p : Poly) : gfAddLists p [] = [] := List.zipWith_nil_right

theorem gfAddLists_cons (a b : Byte) (p q : Poly) : gfAddLists (a :: p) (b :: q) = (a ^^^ b) :: gfAddLists p q := rfl

theorem zeros_succ (n : ℕ) : zeros (n + 1) = 0#8 :: zeros n := rfl

/-- Adding zeros changes nothing (R121). -/
theorem gfAddLists_zeros (p : Poly) : gfAddLists p (zeros p.length) = p := by
  induction p with
  | nil => rfl
  | cons a p ih => rw [List.length_cons, zeros_succ, gfAddLists_cons, ih, BitVec.xor_zero]

theorem zeros_gfAddLists (p : Poly) : gfAddLists (zeros p.length) p = p := by
  induction p with
  | nil => rfl
  | cons a p ih => rw [List.length_cons, zeros_succ, gfAddLists_cons, ih, BitVec.zero_xor]

/-- Every polynomial is its own negative (R121). -/
theorem gfAddLists_self (p : Poly) : gfAddLists p p = zeros p.length := by
  rw [gfAddLists, List.zipWith_self]; simp [zeros]

theorem stripZeros_zeros (n : ℕ) : stripZeros (zeros n) = [] := by
  simp [stripZeros, zeros]

/-- A pass adds a multiple of the divisor to the remainder, and commutes with adding anything else (R123). -/
theorem addScaledBytes_add (c : Byte) (r p ds : Poly) :
    addScaledBytes c (gfAddLists r p) ds = gfAddLists (addScaledBytes c r ds) p := by
  induction r generalizing p ds with
  | nil => cases ds <;> simp [addScaledBytes]
  | cons a r ih =>
    cases p with
    | nil => cases ds <;> simp [addScaledBytes]
    | cons b p =>
      cases ds with
      | nil => simp [addScaledBytes]
      | cons d ds =>
        rw [gfAddLists_cons, addScaledBytes, addScaledBytes, gfAddLists_cons, ih,
          BitVec.xor_assoc, BitVec.xor_comm b, ← BitVec.xor_assoc]

/-- What is added to the dividend behind the entries the passes cancel is added to the remainder (R123). -/
theorem divideBytes_add (n : ℕ) (x p ds : Poly) :
    divideBytes n (gfAddLists x (zeros n ++ p)) ds = gfAddLists (divideBytes n x ds) p := by
  induction n generalizing x with
  | zero => rfl
  | succ n ih =>
    cases x with
    | nil => simp [divideBytes]
    | cons c x =>
      rw [zeros_succ, List.cons_append, gfAddLists_cons, BitVec.xor_zero, divideBytes, divideBytes, addScaledBytes_add, ih]

/-- A block followed by its EC codewords is the block followed by zeros, the codewords added behind it. -/
theorem append_eq_add (a p : Poly) : a ++ p = gfAddLists (a ++ zeros p.length) (zeros a.length ++ p) := by
  rw [gfAddLists, List.zipWith_append (by simp)]
  exact congrArg₂ (· ++ ·) (gfAddLists_zeros a).symm (zeros_gfAddLists p).symm

/-- An encoded block is divisible by its generator (R151, R97). -/
theorem polyMod_encoded {data : Poly} (h : data ≠ []) (e : ℕ) : polyMod (data ++ rsEncode data e) (gen e) = [] := by
  obtain ⟨ds, hg, hl⟩ := gen_eq_cons e
  have hdata := List.length_pos_iff.2 h
  have hec := length_rsEncode data e
  have hdiv : divideBytes data.length (data ++ rsEncode data e) ds = zeros e := by
    have henc : rsEncode data e = divideBytes data.length (data ++ zeros e) ds := by rw [rsEncode_eq_divide, hg, List.tail_cons]
    rw [append_eq_add, divideBytes_add, hec, ← henc, gfAddLists_self, hec]
  rw [hg, polyMod_eq_strip _ _ (by rw [List.length_append]; omega), List.length_append, hec, hl, Nat.add_sub_cancel, hdiv,
    stripZeros_zeros]

/-- Where the divisor is written, `B[0]` is its leading entry (R26). -/
theorem entry_baseB_of_listB {s : State} {b : Byte} {ds : Poly} (h : s.listB = (b :: ds).map some) :
    1 ≤ s.lenB ∧ s.entry baseB = b := by
  have hB : 1 ≤ s.lenB := by rw [← length_listB, h]; simp
  have hread := getElem?_bufferList s baseB hB
  rw [← State.listB, h] at hread
  exact ⟨hB, entry_of_read (Option.some.inj hread).symm⟩

end Sys2Proof.Machine

open Sys2Proof Sys2Proof.Machine

/-- Settles O43: `PMOD` writes `polyMod` of the encoded block by its generator, which is empty. -/
theorem rscheckAcceptsEncodedBlock : Obligations.RscheckAcceptsEncodedBlock := by
  intro s data e _ hdata hA hB
  obtain ⟨ds, hg, -⟩ := gen_eq_cons e
  obtain ⟨hlen, hmonic⟩ := entry_baseB_of_listB (hB.trans (by rw [hg]))
  have hrem : s.remainder = [] := by rw [remainder_written hlen hmonic hA hB, polyMod_encoded hdata, List.map_nil]
  exact ⟨_, exec_pmod_of_monic hlen hmonic, rfl, by rw [hrem]; rfl⟩
end

section
/-! SUPPORT. The product by logarithms is the product of the field (40_gf_poly.md R120, R121, R129): multiplication by `x` steps through
the EXP table and is additive, and the product by an entry of the table repeats it. -/

namespace Sys2Proof.Machine

/-! ## The powers of the generator -/

/-- An index counts modulo 255 (R21). -/
theorem gfExp_mod (k : ℕ) : gfExp (k % 255) = gfExp k := by
  unfold gfExp; rw [Nat.mod_mod]

/-- Multiplication by `x` leads from each entry of the EXP table to the next (R21). -/
theorem gfExp_succ (k : ℕ) : gfExp (k + 1) = timesX (gfExp k) := by
  have hperiod : ∀ r < 255, gfExp (r + 1) = timesX (gfExp r) := by
    intro r hr
    obtain rfl | hr : r = 254 ∨ r ≤ 253 := by omega
    · rfl
    · rw [timesX, ← toNat_gfExp_succ r hr, BitVec.ofNat_toNat, BitVec.setWidth_eq]
  have hmod := gfExp_mod (k % 255 + 1)
  rw [Nat.mod_add_mod, gfExp_mod] at hmod
  rw [hmod, hperiod _ (Nat.mod_lt k (by decide)), gfExp_mod]

/-- An index sum multiplies by `x` as often as its first part says (R21). -/
theorem gfExp_add (i j : ℕ) : gfExp (i + j) = timesX^[i] (gfExp j) := by
  induction i with
  | zero => rw [Nat.zero_add, Function.iterate_zero_apply]
  | succ i ih => rw [Nat.succ_add, gfExp_succ, ih, Function.iterate_succ_apply']

/-- A codeword is 0 or a power of the generator (R22). -/
theorem eq_zero_or_gfExp (x : Byte) : x = 0#8 ∨ ∃ k, x = gfExp k := by
  by_cases h : x = 0#8
  · exact .inl h
  · obtain ⟨k, -, -, hk⟩ := exists_gfLog h
    exact .inr ⟨k, hk.symm⟩

/-! ## The product by logarithms -/

theorem gfMul_of_logs {a b : Byte} {i j : ℕ} (hi : gfLog a = some i) (hj : gfLog b = some j) : gfMul a b = gfExp (i + j) := by
  rw [gfMul, hi, hj]

theorem gfLog_gfExp_mod (k : ℕ) : gfLog (gfExp k) = some (k % 255) := by
  rw [← gfExp_mod]; exact gfLog_gfExp _ (Nat.le_of_lt_succ (Nat.mod_lt k (by decide)))

/-- The product of two powers is the power of the index sum (R120). -/
theorem gfMul_gfExp (i j : ℕ) : gfMul (gfExp i) (gfExp j) = gfExp (i + j) := by
  rw [gfMul_of_logs (gfLog_gfExp_mod i) (gfLog_gfExp_mod j), ← gfExp_mod, ← Nat.add_mod, gfExp_mod]

/-- The index sum of a product is an index of the EXP table (R120). -/
theorem add_logs_le {a b : Byte} {i j : ℕ} (hi : gfLog a = some i) (hj : gfLog b = some j) : i + j ≤ 508 :=
  Nat.add_le_add (gfLog_le hi) (gfLog_le hj)

/-- The product of non-zero codewords is non-zero (R120). -/
theorem gfMul_ne_zero {a b : Byte} (ha : a ≠ 0) (hb : b ≠ 0) : gfMul a b ≠ 0 := by
  obtain ⟨i, -, hi, -⟩ := exists_gfLog ha
  obtain ⟨j, -, hj, -⟩ := exists_gfLog hb
  rw [gfMul_of_logs hi hj]
  exact gfExp_ne_zero _

theorem gfMul_comm (a b : Byte) : gfMul a b = gfMul b a := by
  obtain rfl | ⟨i, rfl⟩ := eq_zero_or_gfExp a
  · rw [gfMul_zero_left, gfMul_zero_right]
  obtain rfl | ⟨j, rfl⟩ := eq_zero_or_gfExp b
  · rw [gfMul_zero_left, gfMul_zero_right]
  rw [gfMul_gfExp, gfMul_gfExp, Nat.add_comm]

theorem gfMul_assoc (a b c : Byte) : gfMul a (gfMul b c) = gfMul (gfMul a b) c := by
  obtain rfl | ⟨i, rfl⟩ := eq_zero_or_gfExp a
  · simp only [gfMul_zero_left]
  obtain rfl | ⟨j, rfl⟩ := eq_zero_or_gfExp b
  · simp only [gfMul_zero_left, gfMul_zero_right]
  obtain rfl | ⟨k, rfl⟩ := eq_zero_or_gfExp c
  · simp only [gfMul_zero_right]
  simp only [gfMul_gfExp, Nat.add_assoc]

/-! ## Multiplication by `x` -/

/-- Multiplication by `x` shifts, and reduces by the field polynomial where the leading bit is set (R120). -/
theorem timesX_eq (a : Byte) : timesX a = a <<< 1 ^^^ if a.msb then 0x1D#8 else 0#8 := by
  revert a; decide +kernel

/-- Multiplication by `x` is additive (R121). -/
theorem timesX_xor (a b : Byte) : timesX (a ^^^ b) = timesX a ^^^ timesX b := by
  have hreduce : (if a.msb ^^ b.msb then 0x1D#8 else 0#8)
      = (if a.msb then 0x1D#8 else 0#8) ^^^ if b.msb then 0x1D#8 else 0#8 := by
    cases a.msb <;> cases b.msb <;> rfl
  rw [timesX_eq, timesX_eq, timesX_eq, BitVec.shiftLeft_xor_distrib, BitVec.msb_xor, hreduce]
  ac_rfl

theorem iterate_timesX_xor (i : ℕ) (a b : Byte) : timesX^[i] (a ^^^ b) = timesX^[i] a ^^^ timesX^[i] b := by
  induction i with
  | zero => rfl
  | succ i ih => simp only [Function.iterate_succ_apply', ih, timesX_xor]

theorem iterate_timesX_zero (i : ℕ) : timesX^[i] 0#8 = 0#8 := Function.iterate_fixed (by rfl) i

/-- The product by the power `i` of the generator multiplies `i` times by `x` (R120). -/
theorem gfExp_gfMul (i : ℕ) (x : Byte) : gfMul (gfExp i) x = timesX^[i] x := by
  obtain rfl | ⟨j, rfl⟩ := eq_zero_or_gfExp x
  · rw [gfMul_zero_right, iterate_timesX_zero]
  · rw [gfMul_gfExp, gfExp_add]

/-- The product distributes over the addition (R129). -/
theorem gfMul_xor (a b c : Byte) : gfMul a (b ^^^ c) = gfMul a b ^^^ gfMul a c := by
  obtain rfl | ⟨i, rfl⟩ := eq_zero_or_gfExp a
  · simp only [gfMul_zero_left, BitVec.xor_zero]
  · simp only [gfExp_gfMul, iterate_timesX_xor]

/-! ## The product of polynomials modulo `0x11D` -/

/-- The sum of a product's terms over the bits `l` of `b`, added to `sum` (R120). -/
def addTerms (a b : Byte) (l : List ℕ) (sum : Byte) : Byte :=
  l.foldl (fun sum k => if b.getLsbD k then sum ^^^ timesX^[k] a else sum) sum

theorem fieldProduct_eq (a b : Byte) : fieldProduct a b = addTerms a b (List.range 8) 0#8 := rfl

/-- Multiplying the first factor by `x` multiplies every term. -/
theorem addTerms_timesX (a b : Byte) (l : List ℕ) (sum : Byte) :
    addTerms (timesX a) b l (timesX sum) = timesX (addTerms a b l sum) := by
  induction l generalizing sum with
  | nil => rfl
  | cons k l ih =>
    have hterm : (if b.getLsbD k then timesX sum ^^^ timesX^[k] (timesX a) else timesX sum)
        = timesX (if b.getLsbD k then sum ^^^ timesX^[k] a else sum) := by
      rw [apply_ite timesX, timesX_xor, ← Function.iterate_succ_apply, Function.iterate_succ_apply']
    exact (congrArg (addTerms (timesX a) b l) hterm).trans (ih _)

theorem fieldProduct_timesX (a b : Byte) : fieldProduct (timesX a) b = timesX (fieldProduct a b) :=
  addTerms_timesX a b (List.range 8) 0#8

theorem fieldProduct_one (b : Byte) : fieldProduct 1#8 b = b := by revert b; decide +kernel

theorem fieldProduct_zero (b : Byte) : fieldProduct 0#8 b = 0#8 := by revert b; decide +kernel

/-- The product of the field by the power `i` of the generator multiplies `i` times by `x` (R120). -/
theorem fieldProduct_gfExp (i : ℕ) (b : Byte) : fieldProduct (gfExp i) b = timesX^[i] b := by
  induction i with
  | zero => exact fieldProduct_one b
  | succ i ih => rw [gfExp_succ, fieldProduct_timesX, ih, Function.iterate_succ_apply']

/-- The product by logarithms is the product of the field with polynomial `0x11D` (R120). -/
theorem gfMul_eq_fieldProduct (a b : Byte) : gfMul a b = fieldProduct a b := by
  obtain rfl | ⟨i, rfl⟩ := eq_zero_or_gfExp a
  · rw [gfMul_zero_left, fieldProduct_zero]
  · rw [gfExp_gfMul, fieldProduct_gfExp]

end Sys2Proof.Machine

open Sys2Proof.Machine

/-- Settles O29: the product by logarithms by its laws, and by a power of the generator both products repeat `timesX`. -/
theorem gfMulOfLogs : Obligations.GfMulOfLogs :=
  ⟨fun a => ⟨gfMul_zero_left a, gfMul_zero_right a⟩, fun i j _ _ => gfMul_gfExp i j,
    fun _ _ _ _ hi hj => ⟨gfMul_of_logs hi hj, add_logs_le hi hj⟩, fun _ _ => gfMul_ne_zero, gfMul_eq_fieldProduct⟩

/-- Settles O30: the index sum is associative and commutative, and multiplication by `x` is additive. -/
theorem gfFieldLaws : Obligations.GfFieldLaws :=
  ⟨fun x => ⟨gfMul_zero_left x, gfMul_one_left x⟩, gfMul_assoc, gfMul_comm, gfMul_xor, fun _ _ _ _ => add_logs_le⟩

end

section
/-! SUPPORT. The words of the commands with operands (30_encoding.md R91 to R94), and the transitions of `GFMUL`, `GFEXP` and `GFLOG`
(40_gf_poly.md R124 to R126). -/

namespace Sys2Proof

open Laws.RowPattern (rowMask rowMatch)

/-! ## The words of one opcode -/

/-- Each opcode has one candidate (R93). -/
theorem candidate_of_opcode {w : Word} {i j : Instr} (hi : i ∈ candidates w) (hj : j ∈ candidates w)
    (h : opcodeOf (rowMatch i) = opcodeOf (rowMatch j)) : i = j := by
  have hnodup : ((candidates w).map fun i => opcodeOf (rowMatch i)).Nodup := by
    simp only [candidates, List.map_cons, List.map_nil, rowMatch]
    decide
  exact List.inj_on_of_nodup_map hnodup hi hj h

theorem opcodeOf_rowMatch_assigned (i : Instr) : opcodeOf (rowMatch i) ∈ assignedOpcodes := by
  cases i <;> simp only [rowMatch] <;> decide

/-- A word with the opcode of its candidate `i` is the word of `i`, or a reserved bit of it is 1; `reservedClear` says that none is
(R93, R94). -/
theorem decode_of_opcode {w : Word} {i : Instr} {reservedClear : Prop} [Decidable reservedClear] (hi : i ∈ candidates w)
    (hop : opcodeOf w = opcodeOf (encode i)) (hw : encode i = w ↔ reservedClear) :
    decode w = if reservedClear then .command i else .illegal .reservedBit := by
  have hrow : opcodeOf w = opcodeOf (rowMatch i) := hop.trans (opcodeOf_of_selects (rowSelects_encode i))
  split
  · exact decode_eq_command_iff.2 (hw.2 ‹_›)
  · obtain ⟨j, hj, hsel, -⟩ | ⟨-, hdec⟩ := decode_cases w
    · obtain rfl : j = i := candidate_of_opcode hj hi ((opcodeOf_of_selects hsel).symm.trans hrow)
      exact absurd (hw.1 (encode_of_candidate hj hsel)) ‹_›
    · rw [hdec, refusalOf, hrow, if_pos (opcodeOf_rowMatch_assigned i)]

/-! ## The formats AB, I9 and I8 -/

/-- The window above two fields does not depend on the upper one. -/
theorem window_above_fields {k m n : ℕ} (high : BitVec k) (x y : BitVec m) (low : BitVec n) :
    (high ++ x ++ low).extractLsb' (n + m) k = (high ++ y ++ low).extractLsb' (n + m) k := by
  simp only [BitVec.extractLsb'_append_eq_of_le (Nat.le_add_right n m), Nat.add_sub_cancel_left, BitVec.extractLsb'_append_eq_left]

/-- Two words that differ in one field are equal if and only if the field is. -/
theorem field_inj {k m n : ℕ} (high : BitVec k) {x y : BitVec m} (low : BitVec n) : high ++ x ++ low = high ++ y ++ low ↔ x = y :=
  (BitVec.append_left_inj low).trans (BitVec.append_right_inj high)

/-- Bits 23:16 of `GFMUL` are reserved (R91, R124). -/
theorem decode_gfmul_append (r : BitVec 8) (a b : Byte) :
    decode (0x10#8 ++ r ++ b ++ a) = if r = 0 then .command (.gfmul a b) else .illegal .reservedBit := by
  refine decode_of_opcode ?_ ?_ ((BitVec.append_left_inj a).trans ((field_inj _ b).trans eq_comm))
  · simp only [candidates, BitVec.extractLsb'_append_eq_right, field_append, List.mem_cons, true_or]
  · simp only [opcodeOf, encode, BitVec.extractLsb'_append_eq_of_le (by decide : 8 ≤ 24)]
    exact window_above_fields 0x10#8 r 0#8 b

/-- Bits 23:9 of `GFEXP` are reserved (R91, R125). -/
theorem decode_gfexp_append (r : BitVec 15) (idx : BitVec 9) :
    decode (0x11#8 ++ r ++ idx) = if r = 0 then .command (.gfexp idx) else .illegal .reservedBit := by
  refine decode_of_opcode ?_ (window_above_fields 0x11#8 r 0#15 idx) ((field_inj _ idx).trans eq_comm)
  simp only [candidates, BitVec.extractLsb'_append_eq_right, List.mem_cons, true_or, or_true]

/-- Bits 23:8 of `GFLOG` are reserved (R91, R126). -/
theorem decode_gflog_append (r : BitVec 16) (x : Byte) :
    decode (0x12#8 ++ r ++ x) = if r = 0 then .command (.gflog x) else .illegal .reservedBit := by
  refine decode_of_opcode ?_ (window_above_fields 0x12#8 r 0#16 x) ((field_inj _ x).trans eq_comm)
  simp only [candidates, BitVec.extractLsb'_append_eq_right, List.mem_cons, true_or, or_true]

end Sys2Proof

namespace Sys2Proof.Machine

/-! ## `GFMUL`, `GFEXP` and `GFLOG` -/

theorem exec_gfmul (a b : Byte) (s : State) : exec (.gfmul a b) s = .next (s.setResult ((gfMul a b).setWidth 18)).complete := rfl

theorem exec_gfexp (idx : BitVec 9) (s : State) : exec (.gfexp idx) s = .next (s.setResult ((gfExp idx.toNat).setWidth 18)).complete :=
  rfl

theorem exec_gflog {x : Byte} {k : ℕ} (h : gfLog x = some k) (s : State) :
    exec (.gflog x) s = .next (s.setResult (BitVec.ofNat 18 k)).complete := by
  simp only [exec, execGflog, h]

theorem exec_gflog_zero (s : State) : exec (.gflog 0) s = .next (s.faultEntry .logZero) := rfl

end Sys2Proof.Machine

open Sys2Proof Sys2Proof.Machine

/-- Settles O31: `GFMUL` completes with the product in `RESULT`. -/
theorem gfmulRule : Obligations.GfmulRule :=
  ⟨fun a b s => ⟨_, exec_gfmul a b s, rfl⟩, fun b => ⟨gfMul_zero_left b, gfMul_zero_right b, gfMul_one_left b⟩, rfl, rfl,
    decode_gfmul_append⟩

/-- Settles O32: `GFEXP` completes with the entry of the EXP table in `RESULT`. -/
theorem gfexpRule : Obligations.GfexpRule :=
  ⟨fun idx s => ⟨_, exec_gfexp idx s, rfl⟩, rfl, decode_gfexp_append⟩

/-- Settles O33: `GFLOG` completes with the logarithm in `RESULT` where there is one. -/
theorem gflogRule : Obligations.GflogRule := by
  refine ⟨fun x s hx => ?_, fun s => ?_, rfl, decode_gflog_append⟩
  · obtain ⟨k, hk, hlog, hexp⟩ := exists_gfLog hx
    exact ⟨k, _, hk, hexp, exec_gflog hlog s, rfl⟩
  · rw [exec_gflog_zero]; exact faultsWith_faultEntry s .logZero

end

section
/-! SUPPORT. The product of polynomials as a convolution (40_gf_poly.md R122), and the transition of `PMUL` (R127). -/

namespace Sys2Proof.Machine

/-! ## Entries of a list, 0 beyond its end -/

theorem getD_append_zeros (p : Poly) (n k : ℕ) : (p ++ zeros n).getD k 0#8 = p.getD k 0#8 := by
  by_cases h : k < p.length
  · exact List.getD_append p _ _ k h
  · rw [List.getD_append_right p _ _ k (Nat.le_of_not_lt h), List.getD_eq_default p _ (Nat.le_of_not_lt h)]
    exact List.getElem?_getD_replicate_default_eq 0#8 n _

theorem getD_gfScale (c : Byte) (q : Poly) (k : ℕ) : (gfScale c q).getD k 0#8 = gfMul c (q.getD k 0#8) := by
  have hmap := List.getD_map q 0#8 (n := k) (gfMul · c)
  rwa [gfMul_zero_left, gfMul_comm] at hmap

/-- An entry of a sum is the sum of the entries (R121). -/
theorem getD_gfAddLists {p q : Poly} (h : p.length = q.length) (k : ℕ) :
    (gfAddLists p q).getD k 0#8 = p.getD k 0#8 ^^^ q.getD k 0#8 := by
  induction p generalizing q k with
  | nil =>
    obtain rfl := List.length_eq_zero_iff.1 h.symm
    rw [gfAddLists_nil_left, List.getD_nil, BitVec.xor_zero]
  | cons a p ih =>
    obtain ⟨b, q, rfl⟩ := List.exists_cons_of_length_eq_add_one h.symm
    cases k with
    | zero => rfl
    | succ k => exact ih (Nat.succ.inj h) k

/-! ## The convolution -/

/-- The XOR of the products `p[i] * q[k-i]` (R122). -/
def convolution (p q : Poly) (k : ℕ) : Byte :=
  (List.range (k + 1)).foldl (fun sum i => sum ^^^ gfMul (p.getD i 0#8) (q.getD (k - i) 0#8)) 0#8

theorem convolution_nil (q : Poly) (k : ℕ) : convolution [] q k = 0#8 :=
  List.foldl_fixed' (fun _ => by rw [List.getD_nil, gfMul_zero_left, BitVec.xor_zero]) _

/-- What is summed up before the terms of a sum is one more term of it (R121). -/
theorem foldl_xor (f : ℕ → Byte) (l : List ℕ) (init : Byte) :
    l.foldl (fun sum i => sum ^^^ f i) init = init ^^^ l.foldl (fun sum i => sum ^^^ f i) 0#8 := by
  have hassoc := List.foldl_assoc (op := fun x y : Byte => x ^^^ y) (l := l.map f) (a₁ := init) (a₂ := 0#8)
  simpa only [List.foldl_map, BitVec.xor_zero] using hassoc

/-- The leading entry of the first factor is in one term, the rest of it in the convolution one place before (R122). -/
theorem convolution_cons (a : Byte) (p q : Poly) (k : ℕ) :
    convolution (a :: p) q (k + 1) = gfMul a (q.getD (k + 1) 0#8) ^^^ convolution p q k := by
  have hstep : ∀ i, k + 1 - (i + 1) = k - i := fun i => Nat.add_sub_add_right k 1 i
  rw [convolution, List.range_succ_eq_map, List.foldl_cons, List.foldl_map, foldl_xor]
  simp only [List.getD_cons_zero, List.getD_cons_succ, Nat.sub_zero, hstep, BitVec.zero_xor]
  rfl

theorem convolution_cons_zero (a : Byte) (p q : Poly) : convolution (a :: p) q 0 = gfMul a (q.getD 0 0#8) := BitVec.zero_xor

theorem polyMul_cons (a : Byte) (p q : Poly) :
    polyMul (a :: p) q = gfAddLists (gfScale a q ++ zeros p.length) (0#8 :: polyMul p q) := rfl

/-- The product has `|p| + |q| - 1` entries also where the first factor is empty (R122). -/
theorem length_polyMul_left (p : Poly) {q : Poly} (hq : q ≠ []) : (polyMul p q).length = p.length + q.length - 1 := by
  cases p with
  | nil => rw [polyMul, length_zeros, List.length_nil, Nat.zero_add]
  | cons a p => exact length_polyMul (List.cons_ne_nil a p) hq

/-- The product is the convolution of its factors, at every place (R122). -/
theorem getD_polyMul (p : Poly) {q : Poly} (hq : q ≠ []) (k : ℕ) : (polyMul p q).getD k 0#8 = convolution p q k := by
  induction p generalizing k with
  | nil =>
    rw [convolution_nil, polyMul, ← List.nil_append (zeros _), getD_append_zeros, List.getD_nil]
  | cons a p ih =>
    have hlen : (gfScale a q ++ zeros p.length).length = (0#8 :: polyMul p q).length := by
      have := List.length_pos_iff.2 hq
      rw [List.length_append, length_gfScale, length_zeros, List.length_cons, length_polyMul_left p hq]; omega
    rw [polyMul_cons, getD_gfAddLists hlen, getD_append_zeros, getD_gfScale]
    cases k with
    | zero => rw [convolution_cons_zero]; exact BitVec.xor_zero
    | succ k => rw [convolution_cons, List.getD_cons_succ, ih]

/-! ## `PMUL` -/

variable {s : State}

/-- The product `PMUL` writes (R127), on operands with unwritten entries (R275). -/
def State.product (s : State) : List Entry := openPolyMul s.listA s.listB

/-- `PMUL` tests that no operand is empty and that the product fits, and then writes it (R127, R244). -/
theorem exec_pmul (s : State) :
    exec .pmul s = conclude [(decide (s.lenA = 0 ∨ s.lenB = 0), .length), (decide (256 < s.lenA + s.lenB - 1), .length)]
      (fun s => s.setC s.product) s := rfl

/-- `PMUL` on non-empty operands whose product fits completes with the product in C (R127). -/
theorem exec_pmul_of_fits (hA : 1 ≤ s.lenA) (hB : 1 ≤ s.lenB) (hcap : s.lenA + s.lenB - 1 ≤ 256) :
    exec .pmul s = .next (s.setC s.product).complete := by
  have hempty : ¬ (s.lenA = 0 ∨ s.lenB = 0) := by omega
  rw [exec_pmul, conclude_of_none _ s (by simp [hempty, hcap])]

/-- `PMUL` with an empty operand or too long a product faults with LENGTH (R127). -/
theorem exec_pmul_faults (h : s.lenA = 0 ∨ s.lenB = 0 ∨ 256 < s.lenA + s.lenB - 1) :
    exec .pmul s = .next (s.faultEntry .length) := by
  rw [exec_pmul]
  by_cases hempty : s.lenA = 0 ∨ s.lenB = 0
  · exact conclude_of_some _ s (by simp [hempty])
  · have hcap : 256 < s.lenA + s.lenB - 1 := by omega
    exact conclude_of_some _ s (by simp [hempty, hcap])

theorem length_product (hA : 1 ≤ s.lenA) (hB : 1 ≤ s.lenB) : s.product.length = s.lenA + s.lenB - 1 := by
  have ha : s.listA ≠ [] := by rw [← List.length_pos_iff, length_listA]; exact hA
  have hb : s.listB ≠ [] := by rw [← List.length_pos_iff, length_listB]; exact hB
  rw [State.product, length_openPolyMul ha hb, length_listA, length_listB]

/-- On operands all written the product is `polyMul` (R122, R127). -/
theorem product_written {a b : Poly} (ha : s.listA = a.map some) (hb : s.listB = b.map some) : s.product = (polyMul a b).map some := by
  rw [State.product, ha, hb, openPolyMul_map_some]

end Sys2Proof.Machine

namespace Sys2Proof

/-- `PMUL` is the one command of its opcode (R93, R94). -/
theorem decode_pmul_append (r : BitVec 24) :
    decode (0x14#8 ++ r) = if r = 0 then .command .pmul else .illegal .reservedBit := by
  split
  · subst r; rfl
  · exact decode_plain_of_ne_zero (by decide) ‹_›

end Sys2Proof

open Sys2Proof Sys2Proof.Machine

/-- Settles O34: the length of the product, and each entry as a convolution. -/
theorem polyMulIsConvolution : Obligations.PolyMulIsConvolution := by
  intro p q hp hq
  have hlen := length_polyMul hp hq
  refine ⟨hlen, fun k hk => ?_⟩
  have hk : k < (polyMul p q).length := hlen ▸ hk
  rw [List.getElem?_eq_getElem hk, ← List.getD_eq_getElem _ 0#8 hk, getD_polyMul p hq]
  rfl

/-- Settles O35: the product that `PMUL` writes to C, by the laws of `openPolyMul`. -/
theorem pmulRule : Obligations.PmulRule := by
  refine ⟨fun s hA hB hcap => ?_, fun s h => ?_, by decide +kernel, decode_pmul_append⟩
  · have hlen := length_product hA hB
    have hfit : s.product.length ≤ 256 := hlen.trans_le hcap
    have hentry : ∀ k, k < s.product.length → Memory.read (Memory.replaceC s.mem s.product) (baseC + k) = s.product[k]?.join :=
      fun k hk => Memory.read_replaceC_entry s.mem hfit hk
    refine ⟨_, exec_pmul_of_fits hA hB hcap, hlen, fun a b ha hb k hk => (hentry k hk).trans ?_, fun k v hk hr a b ha hb => ?_,
      fun loc hl => ?_, rfl⟩
    · rw [product_written ha hb, List.getElem?_map]
      cases (polyMul a b)[k]? <;> rfl
    · exact value_of_fills (fills_openPolyMul ha hb) (Option.join_eq_some_iff.1 ((hentry k hk).symm.trans hr))
    · exact (Memory.read_replaceC _ _ _ hfit).trans (if_neg (by omega))
  · rw [exec_pmul_faults h]; exact faultsWith_faultEntry s .length

end

section
/-! SUPPORT. The division of polynomials pass by pass, and the quotient it leaves behind (40_gf_poly.md R123, 00_scope.md R7). -/

namespace Sys2Proof.Machine

/-! ## One pass -/

/-- A dividend shorter than the divisor is its own remainder (R123). -/
theorem polyMod_short {dividend divisor : Poly} (h : dividend.length < divisor.length) : polyMod dividend divisor = dividend := by
  cases dividend with
  | nil => rfl
  | cons c r => exact if_pos h

/-- A pass adds the scaled divisor, padded with zeros to the length of the remainder (R123). -/
theorem addScaledBytes_eq_add (c : Byte) {r ds : Poly} (h : ds.length ≤ r.length) :
    addScaledBytes c r ds = gfAddLists r (gfScale c ds ++ zeros (r.length - ds.length)) := by
  induction r generalizing ds with
  | nil => obtain rfl := List.length_eq_zero_iff.1 (Nat.le_zero.1 h); rfl
  | cons a r ih =>
    cases ds with
    | nil => exact (gfAddLists_zeros (a :: r)).symm
    | cons d ds =>
      have hpad : (a :: r).length - (d :: ds).length = r.length - ds.length := Nat.add_sub_add_right ..
      rw [addScaledBytes, ih (Nat.le_of_succ_le_succ h), hpad]
      rfl

/-- A pass by a monic divisor cancels the head (R123, fact 1). -/
theorem gfAddLists_scaled_monic (c : Byte) {r ds : Poly} (h : ds.length ≤ r.length) :
    gfAddLists (c :: r) (gfScale c (1#8 :: ds) ++ zeros ((c :: r).length - (1#8 :: ds).length)) = 0#8 :: addScaledBytes c r ds := by
  have hpad : (c :: r).length - (1#8 :: ds).length = r.length - ds.length := Nat.add_sub_add_right ..
  rw [hpad, gfScale, List.map_cons, gfMul_one_left, List.cons_append, gfAddLists_cons, BitVec.xor_self, addScaledBytes_eq_add c h]
  rfl

theorem head_stripZeros (p : Poly) : (stripZeros p).head? ≠ some 0 := by
  intro h
  have hhead := List.head?_dropWhile_not (· == (0 : Byte)) p
  rw [← stripZeros, h] at hhead
  exact absurd hhead (by decide)

/-! ## The quotient -/

theorem gfAddLists_comm (p q : Poly) : gfAddLists p q = gfAddLists q p := List.zipWith_comm_of_comm BitVec.xor_comm

theorem gfAddLists_assoc (p q r : Poly) : gfAddLists (gfAddLists p q) r = gfAddLists p (gfAddLists q r) := by
  induction p generalizing q r with
  | nil => simp only [gfAddLists_nil_left]
  | cons a p ih =>
    cases q with
    | nil => simp only [gfAddLists_nil_left, gfAddLists_nil_right]
    | cons b q =>
      cases r with
      | nil => simp only [gfAddLists_nil_right]
      | cons c r => simp only [gfAddLists_cons, ih, BitVec.xor_assoc]

/-- A polynomial added twice is gone (R121). -/
theorem gfAddLists_add_cancel {p q : Poly} (h : q.length = p.length) : gfAddLists p (gfAddLists q p) = q := by
  rw [gfAddLists_comm q p, ← gfAddLists_assoc, gfAddLists_self, ← h, zeros_gfAddLists]

/-- The leading entry of a quotient is that of its product with a monic divisor (R122). -/
theorem polyMul_cons_monic (c : Byte) (q ds : Poly) :
    polyMul (c :: q) (1#8 :: ds) = c :: gfAddLists (gfScale c ds ++ zeros q.length) (polyMul q (1#8 :: ds)) := by
  rw [polyMul_cons, gfScale, List.map_cons, gfMul_one_left, List.cons_append, gfAddLists_cons, BitVec.xor_zero]
  rfl

/-- The heads that the passes cancel are the quotient: its product with the divisor, added to the remainder behind zeros, is the
dividend (R123, fact 5). -/
theorem exists_quotient (ds : Poly) (n : ℕ) (x : Poly) (h : x.length = n + ds.length) :
    ∃ quotient : Poly, quotient.length = n ∧ x = gfAddLists (polyMul quotient (1#8 :: ds)) (zeros n ++ divideBytes n x ds) := by
  induction n generalizing x with
  | zero =>
    refine ⟨[], rfl, ?_⟩
    show x = gfAddLists (zeros ds.length) x
    rw [← Nat.zero_add ds.length, ← h, zeros_gfAddLists]
  | succ n ih =>
    obtain ⟨c, r, rfl⟩ := List.exists_cons_of_length_eq_add_one (h.trans (Nat.succ_add n _))
    have hr : r.length = n + ds.length := by rw [List.length_cons] at h; omega
    have hscaled : (gfScale c ds ++ zeros n).length = n + ds.length := by
      rw [List.length_append, length_gfScale, length_zeros, Nat.add_comm]
    have hpass : addScaledBytes c r ds = gfAddLists r (gfScale c ds ++ zeros n) := by
      rw [addScaledBytes_eq_add c (by omega), hr, Nat.add_sub_cancel_right]
    have hlen : (addScaledBytes c r ds).length = n + ds.length := by rw [hpass, length_gfAddLists, hr, hscaled, Nat.min_self]
    obtain ⟨quotient, hq, hmul⟩ := ih _ hlen
    refine ⟨c :: quotient, by rw [List.length_cons, hq], ?_⟩
    have htail : gfAddLists (gfAddLists (gfScale c ds ++ zeros n) (polyMul quotient (1#8 :: ds)))
        (zeros n ++ divideBytes n (addScaledBytes c r ds) ds) = r := by
      rw [gfAddLists_assoc, ← hmul, hpass, gfAddLists_add_cancel (hr.trans hscaled.symm)]
    rw [polyMul_cons_monic, hq, divideBytes, zeros_succ, List.cons_append, gfAddLists_cons, BitVec.xor_zero, htail]

end Sys2Proof.Machine

open Sys2Proof.Machine

/-- Settles O36: a pass cancels the head, which the strip then removes; the passes that run leave a stripped remainder. -/
theorem polyModDividesStepwise : Obligations.PolyModDividesStepwise := by
  intro dividend divisor hmonic
  refine ⟨polyMod_short, fun hle => ?_, length_polyMod_lt dividend hmonic⟩
  obtain ⟨ds, rfl⟩ := List.head?_eq_some_iff.1 hmonic
  obtain ⟨c, r, rfl⟩ := List.exists_cons_of_length_pos (Nat.lt_of_lt_of_le (Nat.succ_pos _) hle)
  have hr : ds.length ≤ r.length := Nat.le_of_succ_le_succ hle
  constructor
  · have hstrip : stripZeros (gfAddLists (c :: r) (gfScale c (1#8 :: ds) ++ zeros ((c :: r).length - (1#8 :: ds).length)))
        = stripZeros (addScaledBytes c r ds) := by rw [gfAddLists_scaled_monic c hr]; rfl
    exact (polyMod_pass c r ds hr).trans (congrArg (polyMod · (1 :: ds)) hstrip.symm)
  · rw [polyMod_eq_strip (c :: r) ds hle]; exact head_stripZeros _

/-- Settles O37: the quotient of the long division, whose remainder is `polyMod` padded with zeros. -/
theorem polyModIsRemainder : Obligations.PolyModIsRemainder := by
  intro dividend divisor hmonic hle
  have hshort := length_polyMod_lt dividend hmonic
  obtain ⟨ds, rfl⟩ := List.head?_eq_some_iff.1 hmonic
  rw [List.length_cons] at hle hshort
  have hpad : zeros (dividend.length - (polyMod dividend (1 :: ds)).length) ++ polyMod dividend (1 :: ds)
      = zeros (dividend.length - ds.length) ++ divideBytes (dividend.length - ds.length) dividend ds := by
    rw [← pad_polyMod dividend ds hle, ← List.append_assoc, zeros, zeros, zeros, List.replicate_append_replicate]
    congr 2; omega
  obtain ⟨quotient, hlen, hmul⟩ := exists_quotient ds (dividend.length - ds.length) dividend (by omega)
  refine ⟨quotient, by rw [hlen, List.length_cons]; omega, ?_⟩
  rw [← hpad] at hmul
  exact hmul

end

section
/-! SUPPORT. The last entry of a product and of a generator polynomial, the EC codewords of a block of zeros (41_rs.md R150, R151), and the
transitions of `GENLD` and `RSENC` (R152, R153). -/

namespace Sys2Proof.Machine

/-! ## The last entry of a product -/

/-- The convolution at the sum of the last places of both factors has one term, the product of the entries there (R122). -/
theorem convolution_last {p q : Poly} {m n : ℕ} (hp : p.length ≤ m + 1) (hq : q.length ≤ n + 1) :
    convolution p q (m + n) = gfMul (p.getD m 0#8) (q.getD n 0#8) := by
  induction p generalizing m with
  | nil => rw [convolution_nil, List.getD_nil, gfMul_zero_left]
  | cons a p ih =>
    have hp : p.length ≤ m := Nat.le_of_succ_le_succ hp
    cases m with
    | zero =>
      obtain rfl := List.length_eq_zero_iff.1 (Nat.le_zero.1 hp)
      cases n with
      | zero => exact convolution_cons_zero a [] q
      | succ n => rw [Nat.zero_add, convolution_cons, convolution_nil, BitVec.xor_zero, List.getD_cons_zero]
    | succ m =>
      have hbeyond : q.getD (m + n + 1) 0#8 = 0#8 := List.getD_eq_default q _ (by omega)
      rw [Nat.add_right_comm, convolution_cons, hbeyond, gfMul_zero_right, BitVec.zero_xor, ih hp, List.getD_cons_succ]

/-- The last entry of `G_d` is the product of the powers `0 .. d-1` of the generator (R150). -/
theorem getD_gen_last (d : ℕ) : (gen d).getD d 0#8 = gfExp (d * (d - 1) / 2) := by
  induction d with
  | zero => rfl
  | succ d ih =>
    have hlast := convolution_last (q := [1, gfExp d]) (n := 1) (length_gen d).le (Nat.le_refl 2)
    rw [gen, getD_polyMul _ (List.cons_ne_nil _ _), hlast, ih, Nat.triangle_succ]
    exact gfMul_gfExp _ d

theorem getLast_gen (d : ℕ) : (gen d).getLast? = some (gfExp (d * (d - 1) / 2 % 255)) := by
  have hd : d < (gen d).length := by rw [length_gen]; exact Nat.lt_succ_self d
  rw [List.getLast?_eq_getElem?, length_gen, Nat.add_sub_cancel, List.getElem?_eq_getElem hd, ← List.getD_eq_getElem _ 0#8 hd,
    getD_gen_last, gfExp_mod]

/-! ## The EC codewords of zeros -/

/-- The passes leave zeros as they are (R123). -/
theorem divideBytes_zeros (n m : ℕ) (ds : Poly) : divideBytes n (zeros (n + m)) ds = zeros m := by
  induction n with
  | zero => rw [Nat.zero_add]; rfl
  | succ n ih => rw [Nat.succ_add, zeros_succ, divideBytes, addScaledBytes_zero, ih]

theorem rsEncode_zeros (k e : ℕ) : rsEncode (zeros k) e = zeros e := by
  have hblock : zeros k ++ zeros e = zeros (k + e) := List.replicate_append_replicate
  rw [rsEncode_eq_divide, hblock, length_zeros, divideBytes_zeros]

theorem rsEncode_zero (data : Poly) : rsEncode data 0 = [] := List.length_eq_zero_iff.1 (length_rsEncode data 0)

/-! ## A result in C -/

/-- Where a result all written is stored in C, its entries are read back (R27). -/
theorem Memory.read_replaceC_written (m : Memory) {a : Poly} (hfit : a.length ≤ 256) {k : ℕ} (hk : k < a.length) :
    Memory.read (Memory.replaceC m (a.map some)) (baseC + k) = a[k]? := by
  have hlen : (a.map some).length = a.length := List.length_map some
  rw [Memory.read_replaceC_entry m (hlen.trans_le hfit) (hk.trans_eq hlen.symm), List.getElem?_map, List.getElem?_eq_getElem hk]
  rfl

/-- A result in C changes no location outside the window of C (R27). -/
theorem Memory.read_replaceC_outside (m : Memory) {p : List Entry} (hfit : p.length ≤ 256) {loc : ℕ}
    (h : loc < baseC ∨ baseC + 256 ≤ loc) : Memory.read (Memory.replaceC m p) loc = Memory.read m loc :=
  (Memory.read_replaceC m p loc hfit).trans (if_neg (by omega))

/-! ## `GENLD` and `RSENC` -/

/-- `GENLD` tests its degree and then writes the generator polynomial (R152). -/
theorem exec_genld (d : BitVec 7) (s : State) :
    exec (.genld d) s = conclude [(decide (68 < d.toNat), .invalidInput)] (fun s => s.setC ((gen d.toNat).map some)) s := rfl

/-- `GENLD` of a degree the block has completes with the generator polynomial in C (R152). -/
theorem exec_genld_of_le {d : BitVec 7} (h : d.toNat ≤ 68) (s : State) :
    exec (.genld d) s = .next (s.setC ((gen d.toNat).map some)).complete :=
  (exec_genld d s).trans (conclude_of_none _ s (by simp [h]))

/-- `GENLD` of a larger degree faults with INVALID_INPUT (R152). -/
theorem exec_genld_faults {d : BitVec 7} (h : 69 ≤ d.toNat) (s : State) : exec (.genld d) s = .next (s.faultEntry .invalidInput) :=
  (exec_genld d s).trans (conclude_of_some _ s (if_pos (decide_eq_true h)))

/-- The EC codewords `RSENC` writes (R153), on a block with unwritten entries (R275). -/
def State.ecCodewords (s : State) (e : ℕ) : List Entry := openRsEncode s.listA e

/-- `RSENC` tests the number of EC codewords, then that they fit behind the block, and then writes them (R153, R244). -/
theorem exec_rsenc (e : BitVec 7) (s : State) :
    exec (.rsenc e) s = conclude [(decide (68 < e.toNat), .invalidInput), (decide (256 < s.lenA + e.toNat), .length)]
      (fun s => s.setC (s.ecCodewords e.toNat)) s := rfl

/-- `RSENC` on a block that fits with its EC codewords completes with them in C (R153). -/
theorem exec_rsenc_of_fits {e : BitVec 7} {s : State} (h : e.toNat ≤ 68) (hfit : s.lenA + e.toNat ≤ 256) :
    exec (.rsenc e) s = .next (s.setC (s.ecCodewords e.toNat)).complete :=
  (exec_rsenc e s).trans (conclude_of_none _ s (by simp [Nat.not_lt.2 h, hfit]))

/-- `RSENC` of too many EC codewords faults with INVALID_INPUT, whatever the block (R153). -/
theorem exec_rsenc_faults_invalid {e : BitVec 7} (h : 69 ≤ e.toNat) (s : State) :
    exec (.rsenc e) s = .next (s.faultEntry .invalidInput) :=
  (exec_rsenc e s).trans (conclude_of_some _ s (if_pos (decide_eq_true h)))

/-- `RSENC` on too long a block faults with LENGTH (R153). -/
theorem exec_rsenc_faults_length {e : BitVec 7} {s : State} (h : e.toNat ≤ 68) (hlong : 256 < s.lenA + e.toNat) :
    exec (.rsenc e) s = .next (s.faultEntry .length) :=
  (exec_rsenc e s).trans (conclude_of_some _ s (by simp [Nat.not_lt.2 h, hlong]))

end Sys2Proof.Machine

namespace Sys2Proof

/-- Bits 23:7 of `GENLD` are reserved (R91, R152). -/
theorem decode_genld_append (r : BitVec 17) (d : BitVec 7) :
    decode (0x20#8 ++ r ++ d) = if r = 0 then .command (.genld d) else .illegal .reservedBit := by
  refine decode_of_opcode ?_ (window_above_fields 0x20#8 r 0#17 d) ((field_inj _ d).trans eq_comm)
  simp only [candidates, BitVec.extractLsb'_append_eq_right, List.mem_cons, true_or, or_true]

/-- Bits 23:7 of `RSENC` are reserved (R91, R153). -/
theorem decode_rsenc_append (r : BitVec 17) (e : BitVec 7) :
    decode (0x21#8 ++ r ++ e) = if r = 0 then .command (.rsenc e) else .illegal .reservedBit := by
  refine decode_of_opcode ?_ (window_above_fields 0x21#8 r 0#17 e) ((field_inj _ e).trans eq_comm)
  simp only [candidates, BitVec.extractLsb'_append_eq_right, List.mem_cons, true_or, or_true]

end Sys2Proof

open Sys2Proof Sys2Proof.Machine

/-- Settles O39: the recurrence, and the last entry as the product of the last entries of its factors. -/
theorem generatorPolynomials : Obligations.GeneratorPolynomials := by
  refine ⟨rfl, fun d hd => ?_, fun d => ⟨length_gen d, head_gen d, fun _ => getLast_gen d⟩, by decide +kernel, by decide +kernel,
    by decide +kernel, by decide +kernel, by decide +kernel, by decide +kernel⟩
  obtain ⟨d, rfl⟩ := Nat.exists_eq_add_one.2 hd
  rfl

/-- Settles O40: the generator polynomial that `GENLD` writes to C is read back entry by entry. -/
theorem genldRule : Obligations.GenldRule := by
  refine ⟨fun d s h => ?_, fun d s h => ?_, decode_genld_append⟩
  · have hfit : (gen d.toNat).length ≤ 256 := by rw [length_gen]; omega
    have hlen : ((gen d.toNat).map some).length = (gen d.toNat).length := List.length_map some
    exact ⟨_, exec_genld_of_le h s, hlen.trans (length_gen _),
      fun k hk => Memory.read_replaceC_written s.mem hfit (hk.trans_eq hlen),
      fun loc hl => Memory.read_replaceC_outside s.mem (hlen.trans_le hfit) hl, rfl⟩
  · rw [exec_genld_faults h]; exact faultsWith_faultEntry s .invalidInput

/-- Settles O41: the EC codewords by their definition, and the encoded block is divisible by its generator. -/
theorem rsEncodeDivisible : Obligations.RsEncodeDivisible :=
  fun data e _ => ⟨rfl, length_rsEncode data e, fun h => polyMod_encoded h e⟩

/-- Settles O42: the EC codewords that `RSENC` writes to C, by the laws of `openRsEncode`. -/
theorem rsencRule : Obligations.RsencRule := by
  refine ⟨fun e s h hcap => ?_, fun e s h => ?_, fun e s h hlong => ?_, by decide +kernel, by decide +kernel, by decide +kernel,
    fun k e _ => rsEncode_zeros k e, rsEncode_zero, decode_rsenc_append⟩
  · have hlen : (s.ecCodewords e.toNat).length = e.toNat := length_openRsEncode _ _
    have hfit : (s.ecCodewords e.toNat).length ≤ 256 := by omega
    refine ⟨_, exec_rsenc_of_fits h hcap, hlen, fun a ha k hk => ?_, fun k v hk hr a ha => ?_,
      fun loc hl => Memory.read_replaceC_outside s.mem hfit hl, rfl⟩
    · have hec : s.ecCodewords e.toNat = (rsEncode a e.toNat).map some := by rw [State.ecCodewords, ha, openRsEncode_map_some]
      have hall := length_rsEncode a e.toNat
      have hread := Memory.read_replaceC_written s.mem (a := rsEncode a e.toNat) (k := k) (by omega) (by rw [hall, ← hlen]; exact hk)
      rwa [← hec] at hread
    · have hentry := Memory.read_replaceC_entry s.mem hfit hk
      exact value_of_fills (fills_openRsEncode ha e.toNat) (Option.join_eq_some_iff.1 (hentry.symm.trans hr))
  · rw [exec_rsenc_faults_invalid h]; exact faultsWith_faultEntry s .invalidInput
  · rw [exec_rsenc_faults_length h hlong]; exact faultsWith_faultEntry s .length

end

section
/-! SUPPORT. What a command does to a set cell of the symbol: it leaves it, inverts the colour of a codeword cell, or writes a functional
cell again (42_matrix_mask.md R171, 43_format_version.md R221). -/

namespace Sys2Proof.Machine

variable {s u : State} {i : Instr} {x y : ℕ}

theorem cellAt_eq_of_read_eq {m m' : Memory} (h : Memory.read m (matLoc x y) = Memory.read m' (matLoc x y)) :
    cellAt m x y = cellAt m' x y := by rw [cellAt, cellAt, h]

/-! ## The placers -/

/-- A cell after a code is placed: as before, or a target and functional (R213, R215). -/
theorem cellAt_placeBits_cases {w : ℕ} (c : BitVec w) (hx : x < 256) {cells : List BitCell} (hcells : ∀ p ∈ cells, p.x < 256)
    (m : Memory) :
    cellAt (placeBits c cells m) x y = cellAt m x y
      ∨ (∃ p ∈ cells, p.x = x ∧ p.y = y) ∧ ∃ dark, cellAt (placeBits c cells m) x y = .functional dark := by
  induction cells generalizing m with
  | nil => exact .inl rfl
  | cons p cells ih =>
    obtain ⟨hp, hcells⟩ := List.forall_mem_cons.1 hcells
    rcases ih hcells (writeCell m p.x p.y (.functional (sbit c p.bit))) with hrest | ⟨⟨q, hq, hqxy⟩, hdark⟩
    · rw [cellAt_writeCell m _ hp hx] at hrest
      by_cases hxy : p.x = x ∧ p.y = y
      · exact .inr ⟨⟨p, List.mem_cons_self, hxy⟩, _, hrest.trans (if_pos hxy)⟩
      · exact .inl (hrest.trans (if_neg hxy))
    · exact .inr ⟨⟨q, List.mem_cons_of_mem p hq, hqxy⟩, hdark⟩

/-- A cell after the format information is placed: as before, or a target and functional; the dark module is a target (R212, R213). -/
theorem cellAt_placeFormat_cases {n : ℕ} (hn : 21 ≤ n) (hn' : n ≤ 177) (c : BitVec Config.fmtBits) (dm : Bool) (hx : x < 256)
    (m : Memory) :
    cellAt (placeFormat n c dm m) x y = cellAt m x y
      ∨ (∃ p ∈ fmtCells n, p.x = x ∧ p.y = y) ∧ ∃ dark, cellAt (placeFormat n c dm m) x y = .functional dark := by
  rw [placeFormat, cellAt_writeCell _ _ (by decide) hx]
  by_cases hdark : 8 = x ∧ n - 8 = y
  · have hmem : (⟨7, 8, n - 1 - 7⟩ : BitCell) ∈ fmtCells n :=
      List.mem_append_left _ (List.mem_flatMap.2 ⟨7, by decide, by simp⟩)
    exact .inr ⟨⟨_, hmem, hdark.1, (by omega : n - 1 - 7 = n - 8).trans hdark.2⟩, dm, if_pos hdark⟩
  · rw [if_neg hdark]
    exact cellAt_placeBits_cases c hx (fun p hp => by have := (fmtCells_lt hn p hp).1; omega) m

/-- Where a placer meets no conflict a set target is no codeword cell (R221). -/
theorem isCodeword_of_target {targets : List BitCell} (hc : s.hasConflict targets = false) (hset : (cellAt s.mem x y).isSet = true)
    (ht : ∃ p ∈ targets, p.x = x ∧ p.y = y) : (cellAt s.mem x y).isCodeword = false := by
  obtain ⟨p, hp, rfl, rfl⟩ := ht
  rw [hasConflict_eq, decide_eq_false_iff_not] at hc
  exact Bool.eq_false_iff.2 fun hcw => hc ⟨p, hp, hset, hcw⟩

/-! ## The change of a set cell -/

/-- How command `i`, not `MINIT`, may change a set cell from `c` to `d`: one constructor for each kind of change (R171, R221). -/
inductive CellChange (c : Cell) : Instr → Cell → Prop
  | kept (i : Instr) : CellChange c i c
  | masked {i : Instr} (hi : i = .masksel ∨ ∃ m, i = .maskapply m) (hcw : c.isCodeword = true) (dark : Bool) :
      CellChange c i { c with value := dark }
  | placed {i : Instr} (hi : i = .fmtrsv ∨ (∃ ec m, i = .fmtplace ec m) ∨ i = .verplace) (hcw : c.isCodeword = false) (dark : Bool) :
      CellChange c i (.functional dark)

/-- A mask changes at most the colour of codeword cells (R171). -/
theorem cellChange_applyMask {n : ℕ} {m : Memory} (hi : i = .masksel ∨ ∃ k, i = .maskapply k) (hn : n ≤ 177) (hx : x < n) (hy : y < n)
    (k : BitVec 3) : CellChange (cellAt m x y) i (cellAt (applyMask n k m) x y) := by
  rw [cellAt_applyMask m k (by omega) hx hy]
  cases hcw : (cellAt m x y).isCodeword with
  | true => exact .masked hi hcw _
  | false => simpa using CellChange.kept i

/-- A placed set cell was functional before, since the placer met no conflict (R221). -/
theorem cellChange_of_placed {m : Memory} {targets : List BitCell} (hi : i = .fmtrsv ∨ (∃ ec k, i = .fmtplace ec k) ∨ i = .verplace)
    (hc : s.hasConflict targets = false) (hset : (cellAt s.mem x y).isSet = true)
    (h : cellAt m x y = cellAt s.mem x y ∨ (∃ p ∈ targets, p.x = x ∧ p.y = y) ∧ ∃ dark, cellAt m x y = .functional dark) :
    CellChange (cellAt s.mem x y) i (cellAt m x y) := by
  rcases h with h | ⟨ht, dark, h⟩ <;> rw [h]
  · exact .kept i
  · exact .placed hi (isCodeword_of_target hc hset ht) dark

/-- The writes of every command but `MINIT` change a set cell only as its kind allows. -/
theorem Writes.cellChange (h : Writes s i u) (hB : s.lenB ≤ 256) (hi : ∀ v, i ≠ .minit v) (hx : x < s.side) (hy : y < s.side)
    (hset : (cellAt s.mem x y).isSet = true) : CellChange (cellAt s.mem x y) i (cellAt u.mem x y) := by
  have hn : s.side ≤ 177 := side_le s.ver
  cases h with
  | result _ _ => exact .kept i
  | score _ => exact .kept _
  | buffer _ p hp =>
    rw [State.setC_mem, cellAt_eq_of_read_eq (Memory.read_replaceC_outside s.mem (hp hB)
      (by simp only [matLoc, baseMat, baseC]; omega))]
    exact .kept i
  | version w _ => exact absurd rfl (hi w)
  | mask k _ => exact cellChange_applyMask (.inr ⟨k, rfl⟩) hn hx hy k
  | selection _ => exact cellChange_applyMask (.inl rfl) hn hx hy _
  | format hplacer hv hc c dm =>
    exact cellChange_of_placed (hplacer.imp_right .inl) hc hset
      (cellAt_placeFormat_cases (side_ge_of_ver hv) hn c dm (by omega) s.mem)
  | stamp hc =>
    rcases stampVersion_cases params s with e | ⟨h7, c, e⟩ <;> rw [e]
    · exact .kept _
    · have htargets : versionTargets s.ver = verCells s.side := if_pos h7
      rw [htargets] at hc
      exact cellChange_of_placed (.inr (.inr rfl)) hc hset (cellAt_placeBits_cases c (by omega)
        (fun p hp => by have := (verCells_lt (side_ge_of_ver_seven h7) p hp).1; omega) s.mem)

end Sys2Proof.Machine

open Sys2Proof Sys2Proof.Machine

/-- Settles O60: a fault changes no cell, and every change of a set cell by the writes of a command is one of `CellChange`. -/
theorem cellKindsAreKept : Obligations.CellKindsAreKept := by
  intro i s t x y hB hi hx hy hset h
  have hchange : CellChange (cellAt s.mem x y) i (cellAt t.mem x y) := by
    rcases exec_cases h with ⟨c, rfl⟩ | ⟨u, hu, rfl⟩
    · exact .kept i
    · exact hu.cellChange hB hi hx hy hset
  generalize cellAt t.mem x y = d at hchange ⊢
  cases hchange with
  | kept => exact ⟨hset, rfl, fun _ _ _ => rfl, fun _ _ _ _ => rfl⟩
  | masked hmask hcw dark =>
    refine ⟨hset, rfl, fun _ happly hsel => ?_, fun hfun => absurd (hfun.symm.trans hcw) (by decide)⟩
    rcases hmask with hi | ⟨k, hi⟩
    · exact absurd hi hsel
    · exact absurd hi (happly k)
  | placed hplacer hfun dark =>
    refine ⟨rfl, hfun.symm, fun hcw => absurd (hfun.symm.trans hcw) (by decide), fun _ hrsv hplace hver => ?_⟩
    rcases hplacer with hi | ⟨ec, k, hi⟩ | hi
    · exact absurd hi hrsv
    · exact absurd hi (hplace ec k)
    · exact absurd hi hver

end

section
/-! SUPPORT. A mask as a map over the listed cells: what it toggles, that it is an involution and that masks commute (42_matrix_mask.md
R170, R171). -/

namespace Sys2Proof.Machine

variable {n : ℕ}

/-- A listed cell with mask `k` applied (R171). -/
def toggled (n : ℕ) (k : BitVec 3) (c : Host.Cell) : Host.Cell := if maskToggles n k c then (c.1, c.2 ^^^ 1) else c

theorem applyMask_eq_map (n : ℕ) (k : BitVec 3) (m : Memory) : applyMask n k m = m.map (toggled n k) := rfl

theorem isCodeword_ofByte_xor_one (b : Byte) : (Cell.ofByte (b ^^^ 1)).isCodeword = (Cell.ofByte b).isCodeword := by
  simp [Cell.ofByte]

/-- Whether a mask toggles a cell does not depend on the cell's colour (R171). -/
theorem maskToggles_toggled (k l : BitVec 3) (c : Host.Cell) : maskToggles n k (toggled n l c) = maskToggles n k c := by
  unfold toggled
  split
  · simp only [maskToggles, isCodeword_ofByte_xor_one]
  · rfl

theorem toggled_toggled (k : BitVec 3) (c : Host.Cell) : toggled n k (toggled n k c) = c := by
  rw [toggled, maskToggles_toggled, toggled]
  split
  · rw [BitVec.xor_assoc, BitVec.xor_self, BitVec.xor_zero]
  · rfl

theorem toggled_comm (k l : BitVec 3) (c : Host.Cell) : toggled n k (toggled n l c) = toggled n l (toggled n k c) := by
  rw [toggled, maskToggles_toggled, toggled.eq_1 n l (toggled n k c), maskToggles_toggled, toggled, toggled]
  cases maskToggles n k c <;> cases maskToggles n l c <;> rfl

/-- R171: applied twice a mask is not applied at all. -/
theorem applyMask_applyMask (k : BitVec 3) (m : Memory) : applyMask n k (applyMask n k m) = m := by
  have hid : toggled n k ∘ toggled n k = id := funext (toggled_toggled k)
  rw [applyMask_eq_map, applyMask_eq_map, List.map_map, hid, List.map_id]

/-- R171: masks commute. -/
theorem applyMask_comm (k l : BitVec 3) (m : Memory) :
    applyMask n k (applyMask n l m) = applyMask n l (applyMask n k m) := by
  have hcomm : toggled n k ∘ toggled n l = toggled n l ∘ toggled n k := funext (toggled_comm k l)
  simp only [applyMask_eq_map, List.map_map, hcomm]

/-- What a mask toggles is a codeword cell of the symbol (R171). -/
theorem codeword_of_maskToggles {k : BitVec 3} {c : Host.Cell} (h : maskToggles n k c = true) :
    baseMat ≤ c.1 ∧ matX c.1 < n ∧ matY c.1 < n ∧ (Cell.ofByte c.2).isCodeword = true := by
  simp only [maskToggles, Bool.and_eq_true, decide_eq_true_eq] at h
  obtain ⟨⟨⟨⟨hmat, hx⟩, hy⟩, hcw⟩, -⟩ := h
  exact ⟨hmat, hx, hy, hcw⟩

/-- A location that is not toggled reads as before. -/
theorem read_applyMask_of_not_toggled {k : BitVec 3} {m : Memory} {loc : ℕ}
    (h : ∀ b, Memory.read m loc = some b → maskToggles n k (loc, b) ≠ true) :
    Memory.read (applyMask n k m) loc = Memory.read m loc := by
  rw [Memory.read_applyMask]
  cases hb : Memory.read m loc with
  | none => rfl
  | some b => rw [Option.map_some, maskedByte, if_neg (h b hb)]

/-- R171: a mask changes no location but those of the symbol. -/
theorem read_applyMask_outside (k : BitVec 3) (m : Memory) {loc : ℕ} (h : ∀ x y, x < n → y < n → loc ≠ matLoc x y) :
    Memory.read (applyMask n k m) loc = Memory.read m loc :=
  read_applyMask_of_not_toggled fun _ _ ht => by
    obtain ⟨hmat, hx, hy, -⟩ := codeword_of_maskToggles ht
    exact h _ _ hx hy (matLoc_matX_matY hmat).symm

end Sys2Proof.Machine

open Sys2Proof Sys2Proof.Machine

/-- Settles O44: each arm of `maskPred` tests a number for 0. -/
theorem maskPredicates : Obligations.MaskPredicates := fun _ _ =>
  ⟨beq_iff_eq, beq_iff_eq, beq_iff_eq, beq_iff_eq, beq_iff_eq, beq_iff_eq, beq_iff_eq, beq_iff_eq⟩

/-- Settles O45: what a mask does to a cell and to a location outside the symbol, and the laws of the map it is. -/
theorem maskTogglesCodewordCells : Obligations.MaskTogglesCodewordCells := fun m _ k hn =>
  ⟨fun _ _ hx hy => cellAt_applyMask m k (Nat.le_trans hn (by decide)) hx hy, fun _ h => read_applyMask_outside k m h,
    applyMask_applyMask k m, fun l => applyMask_comm k l m⟩

end

section
/-! SUPPORT. The four penalty components by coordinates (42_matrix_mask.md R172 to R175): the lines of a symbol, a line as its maximal runs,
rows as their adjacent pairs, a line as its windows. -/

namespace Sys2Proof.Machine

/-! ## Adjacency -/

/-- The rows and columns of a symbol given by its colours (R172). -/
theorem symbolLines_grid (n : ℕ) (f : ℕ → ℕ → Bool) : symbolLines n (grid n f) = gridLines n f := by
  refine congrArg (grid n f ++ ·) (List.map_congr_left fun x hx => ?_)
  have hx : x < n := List.mem_range.1 hx
  rw [grid, List.map_map]
  refine List.map_congr_left fun y _ => ?_
  simp [hx]

/-- The rest of a line, cut into runs with `run` cells of one colour just seen, scores as `runsScore` says; `run` and `runs` are what the
cutting loop carries, the latest first. -/
theorem sum_runScore_loop (line : List Bool) (colour : Bool) (run : List Bool) (runs : List (List Bool)) :
    ((List.splitBy.loop (· == ·) line colour run runs).map fun r => runScore r.length).sum
      = (runs.map fun r => runScore r.length).sum + runsScore colour (run.length + 1) line := by
  induction line generalizing colour run runs with
  | nil => simp [List.splitBy.loop, runsScore, Nat.add_comm]
  | cons c line ih =>
    by_cases hc : c = colour
    · subst hc
      simp [List.splitBy.loop, runsScore, ih]
    · have hne : (colour == c) = false := beq_eq_false_iff_ne.2 (Ne.symm hc)
      simp [List.splitBy.loop, runsScore, ih, hc, hne]
      omega

/-- R172: a line scores the sum over its maximal runs. -/
theorem lineAdj_eq_sum_runs (line : List Bool) :
    lineAdj line = ((line.splitBy (· == ·)).map fun run => runScore run.length).sum := by
  cases line with
  | nil => rfl
  | cons c line => exact ((sum_runScore_loop line c [] []).trans (Nat.zero_add _)).symm

/-! ## Blocks -/

/-- The blocks of two rows, one for each pair of adjacent columns (R173). -/
theorem blocksOfRows_map_range (n : ℕ) (upper lower : ℕ → Bool) :
    blocksOfRows ((List.range n).map upper) ((List.range n).map lower) = ((List.range (n - 1)).map fun x =>
      if upper x = upper (x + 1) ∧ upper x = lower x ∧ upper x = lower (x + 1) then 3 else 0).sum := by
  induction n generalizing upper lower with
  | zero => rfl
  | succ n ih =>
    cases n with
    | zero => rfl
    | succ n =>
      have hrest := ih (upper ∘ Nat.succ) (lower ∘ Nat.succ)
      simp only [List.range_succ_eq_map, List.map_cons, List.map_map, Nat.add_sub_cancel, List.sum_cons, blocksOfRows] at hrest ⊢
      exact congrArg (_ + ·) hrest

/-- The block score of rows, one summand for each pair of adjacent rows (R173). -/
theorem penBlkOf_map_range (n : ℕ) (row : ℕ → List Bool) :
    penBlkOf ((List.range n).map row) = ((List.range (n - 1)).map fun y => blocksOfRows (row y) (row (y + 1))).sum := by
  induction n generalizing row with
  | zero => rfl
  | succ n ih =>
    cases n with
    | zero => rfl
    | succ n =>
      have hrest := ih (row ∘ Nat.succ)
      simp only [List.range_succ_eq_map, List.map_cons, List.map_map, Nat.add_sub_cancel, List.sum_cons, penBlkOf] at hrest ⊢
      exact congrArg (_ + ·) hrest

/-! ## Finder-like windows -/

/-- The window of a line from cell `k` on (R174). -/
def window (line : List Bool) (k : ℕ) : List Bool := (List.range 11).map fun j => line.getD (k + j) false

/-- What the window of a line from cell `k` on scores (R174). -/
def windowScore (line : List Bool) (k : ℕ) : ℕ :=
  if window line k = finderPattern ∨ window line k = finderReverse then Config.finderScore else 0

theorem window_zero {line : List Bool} (h : 11 ≤ line.length) : window line 0 = line.take 11 := by
  refine List.ext_getElem (by simp [window, h]) fun j hj _ => ?_
  have hj : j < 11 := by simpa [window] using hj
  simp [window, List.getElem?_eq_getElem (hj.trans_le h)]

theorem windowScore_cons_succ (c : Bool) (line : List Bool) (k : ℕ) : windowScore (c :: line) (k + 1) = windowScore line k := by
  have hwin : window (c :: line) (k + 1) = window line k :=
    List.map_congr_left fun j _ => by rw [Nat.add_right_comm]; rfl
  rw [windowScore, windowScore, hwin]

/-- Fewer than 11 cells are no pattern (R174). -/
theorem lineFind_of_short {line : List Bool} (h : line.length ≤ 10) : lineFind line = 0 := by
  have hle := lineFind_le line
  omega

/-- R174: a line scores the sum over its windows of 11 cells. -/
theorem lineFind_eq_sum_windows (line : List Bool) :
    lineFind line = ((List.range (line.length - 10)).map (windowScore line)).sum := by
  induction line with
  | nil => rfl
  | cons c line ih =>
    by_cases h : line.length < 10
    · rw [lineFind_of_short (line := c :: line) h, List.length_cons, Nat.sub_eq_zero_of_le (by omega)]; rfl
    · have hlen : (c :: line).length - 10 = (line.length - 10) + 1 := by rw [List.length_cons]; omega
      have htail : windowScore (c :: line) ∘ Nat.succ = windowScore line := funext (windowScore_cons_succ c line)
      rw [hlen, List.range_succ_eq_map, List.map_cons, List.map_map, List.sum_cons, htail, ← ih, lineFind, windowScore,
        window_zero (by rw [List.length_cons]; omega)]

/-! ## Proportion -/

theorem sum_count_true (l : List ℕ) (colour : ℕ → Bool) :
    (l.map colour).count true = (l.map fun x => if colour x then 1 else 0).sum := by
  induction l with
  | nil => rfl
  | cons x l ih => rw [List.map_cons, List.count_cons, ih, List.map_cons, List.sum_cons, Nat.add_comm]; simp

/-- The side of every symbol is odd, so its number of cells is (R175). -/
theorem odd_cells {v : Fin 41} (hv : v ≠ 0) : (sideOf v * sideOf v) % 2 = 1 := by
  have hne : v.val ≠ 0 := fun h => hv (Fin.ext h)
  have hside : sideOf v % 2 = 1 := by rw [sideOf, if_neg hne]; omega
  rw [Nat.mul_mod, hside]

/-- The deviation `|2 * dark - total|` in natural numbers (R175). -/
def deviation (total dark : ℕ) : ℕ := (2 * dark - total) + (total - 2 * dark)

/-- The deviation is the number of cells exactly where all cells have one colour (R175). -/
theorem deviation_eq_iff {total dark : ℕ} (h : dark ≤ total) : deviation total dark = total ↔ dark = 0 ∨ dark = total := by
  unfold deviation; omega

theorem deviation_le {total dark : ℕ} (h : dark ≤ total) : deviation total dark ≤ total := by unfold deviation; omega

theorem deviation_pos {total : ℕ} (h : total % 2 = 1) (dark : ℕ) : 1 ≤ deviation total dark := by unfold deviation; omega

theorem penPropOf_eq (n dark : ℕ) : penPropOf n dark = 10 * (10 * deviation (n * n) dark / (n * n)) := by
  have habs : ((2 * dark : Int) - (n * n : ℕ)).natAbs = deviation (n * n) dark := by unfold deviation; omega
  rw [penPropOf, habs]; rfl

end Sys2Proof.Machine

open Sys2Proof Sys2Proof.Machine

/-- Settles O46: the lines of the symbol are those of its colours, and each scores the sum over its runs. -/
theorem adjacencyScoresRuns : Obligations.AdjacencyScoresRuns := fun n f => by
  rw [penAdjOf, symbolLines_grid, funext lineAdj_eq_sum_runs]
  rfl

/-- Settles O47: one summand for each pair of adjacent rows, and in it one for each pair of adjacent columns. -/
theorem blocksScorePositions : Obligations.BlocksScorePositions := fun n f => by
  rw [grid, penBlkOf_map_range]
  simp only [blocksOfRows_map_range]

/-- Settles O48: every line has `n` cells, and scores the sum over its windows. -/
theorem finderScoresWindows : Obligations.FinderScoresWindows := fun n f => by
  rw [penFindOf, symbolLines_grid]
  refine congrArg List.sum (List.map_congr_left fun line hline => ?_)
  rw [← symbolLines_grid] at hline
  rw [lineFind_eq_sum_windows, length_of_mem_symbolLines hline]
  rfl

/-- Settles O49: the popcount row by row; the number of whole twentieths is the quotient of ten deviations by the number of cells, which is
odd, so the deviation is at least 1, and 10 is reached only by the largest one. -/
theorem proportionIsExact : Obligations.ProportionIsExact := by
  refine ⟨fun n f => ?_, fun v dark hv hdark => ?_⟩
  · rw [popcount, grid, List.map_map]
    exact congrArg List.sum (List.map_congr_left fun y _ => sum_count_true _ _)
  · have hodd := odd_cells hv
    rw [penPropOf_eq]
    generalize sideOf v * sideOf v = total at hodd hdark ⊢
    have hpos : 0 < total := by omega
    have hle : 10 * deviation total dark / total * total ≤ 10 * deviation total dark := Nat.div_mul_le_self _ _
    have hmax : 10 * deviation total dark / total = 10 ↔ deviation total dark = total := by
      refine ⟨fun h => ?_, fun h => by rw [h, Nat.mul_div_cancel _ hpos]⟩
      rw [h] at hle
      exact Nat.le_antisymm (deviation_le hdark) (by omega)
    exact ⟨_, Nat.div_le_of_le_mul (by have := deviation_le hdark; omega), rfl, hle,
      (Nat.div_lt_iff_lt_mul hpos).1 (Nat.lt_succ_self _), hmax.trans (deviation_eq_iff hdark), deviation_pos hodd dark⟩

end

section
/-! SUPPORT. The words and the transitions of the matrix and mask commands (30_encoding.md R91 to R94, 42_matrix_mask.md R176 to R181). -/

namespace Sys2Proof

/-- Bits 23:6 of `MINIT` are reserved (R91, R178). -/
theorem decode_minit_append (r : BitVec 18) (v : BitVec 6) :
    decode (0x30#8 ++ r ++ v) = if r = 0 then .command (.minit v) else .illegal .reservedBit := by
  refine decode_of_opcode ?_ (window_above_fields 0x30#8 r 0#18 v) ((field_inj _ v).trans eq_comm)
  simp only [candidates, BitVec.extractLsb'_append_eq_right, List.mem_cons, true_or, or_true]

/-- Bits 23:3 of `MASKAPPLY` are reserved (R91, R179). -/
theorem decode_maskapply_append (r : BitVec 21) (k : BitVec 3) :
    decode (0x31#8 ++ r ++ k) = if r = 0 then .command (.maskapply k) else .illegal .reservedBit := by
  refine decode_of_opcode ?_ (window_above_fields 0x31#8 r 0#21 k) ((field_inj _ k).trans eq_comm)
  simp only [candidates, maskField, BitVec.extractLsb'_append_eq_right, List.mem_cons, true_or, or_true]

/-- A command without operands is the one command of its opcode (R93, R94). -/
theorem decode_plain_append {op : BitVec 8} {i : Instr} (hop : op ∈ plainOpcodes) (hzero : decode (op ++ 0#24) = .command i)
    (r : BitVec 24) : decode (op ++ r) = if r = 0 then .command i else .illegal .reservedBit := by
  split
  · subst r; exact hzero
  · exact decode_plain_of_ne_zero hop ‹_›

theorem decode_score_append (r : BitVec 24) : decode (0x32#8 ++ r) = if r = 0 then .command .score else .illegal .reservedBit :=
  decode_plain_append (by decide) rfl r

theorem decode_masksel_append (r : BitVec 24) : decode (0x33#8 ++ r) = if r = 0 then .command .masksel else .illegal .reservedBit :=
  decode_plain_append (by decide) rfl r

end Sys2Proof

namespace Sys2Proof.Machine

variable {s : State} {x y : ℕ}

/-! ## `MINIT` -/

/-- `MINIT` tests the version, then sets it and clears the matrix (R178). -/
theorem exec_minit (v : BitVec 6) (s : State) :
    exec (.minit v) s = conclude [(decide (v.toNat < Config.verMin ∨ Config.verMax < v.toNat), .invalidInput)]
      (fun s => (s.setVer (Fin.ofNat 41 v.toNat)).setMem (Memory.clearMatrix s.mem)) s := rfl

/-- `MINIT` of a version the block has completes with that version and every cell unset (R178). -/
theorem exec_minit_of_range {v : BitVec 6} (h1 : 1 ≤ v.toNat) (h40 : v.toNat ≤ 40) (s : State) :
    exec (.minit v) s = .next ((s.setVer (Fin.ofNat 41 v.toNat)).setMem (Memory.clearMatrix s.mem)).complete := by
  have hpass : ¬ (v.toNat < Config.verMin ∨ Config.verMax < v.toNat) := by simp only [Config.verMin, Config.verMax]; omega
  rw [exec_minit, conclude_of_none _ s (by rw [firstFailing_cons, decide_eq_false hpass]; rfl)]

/-- `MINIT` of any other version faults with INVALID_INPUT (R178). -/
theorem exec_minit_faults {v : BitVec 6} (h : v.toNat = 0 ∨ 41 ≤ v.toNat) (s : State) :
    exec (.minit v) s = .next (s.faultEntry .invalidInput) :=
  exec_of_not_wellFormed (fun hwf => by have := of_decide_eq_true hwf; simp only [Config.verMin, Config.verMax] at this; omega) s

theorem sideOf_of_ne_zero {v : Fin 41} (h : v.val ≠ 0) : sideOf v = 21 + 4 * (v.val - 1) := if_neg h

theorem cellAt_clearMatrix (m : Memory) (x y : ℕ) : cellAt (Memory.clearMatrix m) x y = ⟨false, false, false⟩ := by
  rw [cellAt, Memory.read_clearMatrix, if_pos (by simp only [matLoc, baseMat]; omega)]; rfl

/-! ## The preconditions of the mask and score commands -/

/-- Their preconditions fail as R179 says: NO_MATRIX, then UNSET_CELL. -/
theorem firstFailing_maskChecks (s : State) : firstFailing (maskChecks s) = maskCause s := by
  simp only [maskChecks, firstFailing_cons, firstFailing_nil, State.hasNoMatrix, hasUnsetCell_eq, maskCause, decide_eq_true_eq,
    Bool.not_eq_true', decide_eq_false_iff_not, ite_not]

theorem maskCause_of_allSet (hv : s.ver ≠ 0) (hset : s.AllSet) : maskCause s = none := by
  rw [maskCause, if_neg (Fin.val_ne_zero_iff.2 hv), if_pos hset]

theorem maskCause_of_no_matrix (hv : s.ver = 0) : maskCause s = some .noMatrix := by rw [maskCause, if_pos (by rw [hv]; rfl)]

theorem maskCause_of_unset (hv : s.ver ≠ 0) (hset : ¬ s.AllSet) : maskCause s = some .unsetCell := by
  rw [maskCause, if_neg (Fin.val_ne_zero_iff.2 hv), if_neg hset]

section
variable {answer : Answer} {effect : State → State} (h : answer = conclude (maskChecks s) effect s)
include h

/-- On a symbol with every cell set the command completes (R179 to R181). -/
theorem completes_of_allSet (hv : s.ver ≠ 0) (hset : s.AllSet) : answer = .next (effect s).complete :=
  h.trans (conclude_of_none effect s ((firstFailing_maskChecks s).trans (maskCause_of_allSet hv hset)))

/-- Without a matrix the command faults with NO_MATRIX (R179 to R181). -/
theorem faultsWith_of_no_matrix (hv : s.ver = 0) : FaultsWith answer s 6 := by
  rw [h, conclude_of_some effect s ((firstFailing_maskChecks s).trans (maskCause_of_no_matrix hv))]
  exact faultsWith_faultEntry s .noMatrix

/-- With an unset cell the command faults with UNSET_CELL (R179 to R181). -/
theorem faultsWith_of_unset (hv : s.ver ≠ 0) (hset : ¬ s.AllSet) : FaultsWith answer s 7 := by
  rw [h, conclude_of_some effect s ((firstFailing_maskChecks s).trans (maskCause_of_unset hv hset))]
  exact faultsWith_faultEntry s .unsetCell

end

theorem exec_maskapply (k : BitVec 3) (s : State) :
    exec (.maskapply k) s = conclude (maskChecks s) (fun s => s.setMem (applyMask s.side k s.mem)) s := rfl

theorem exec_score (s : State) : exec .score s = conclude (maskChecks s) (fun s => s.setScore (penaltyOf s.side s.mem)) s := rfl

theorem exec_masksel (s : State) : exec .masksel s = conclude (maskChecks s) State.applySelection s := rfl

/-! ## The masked symbol -/

theorem side_le_177 (s : State) : s.side ≤ 177 := side_le s.ver

/-- A cell of a set symbol with a mask applied (R171). -/
theorem cellAt_masked (hset : s.AllSet) (k : BitVec 3) (hx : x < s.side) (hy : y < s.side) :
    cellAt (applyMask s.side k s.mem) x y = ⟨true, (cellAt s.mem x y).isCodeword, s.maskedColour k x y⟩ := by
  rw [cellAt_applyMask s.mem k (Nat.le_trans (side_le_177 s) (by decide)) hx hy]
  exact congrArg (fun isSet => (⟨isSet, _, _⟩ : Cell)) (hset x hx y hy)

/-- The cells of a masked symbol are set (R171). -/
theorem allSet_masked (hset : s.AllSet) (k : BitVec 3) : (s.setMem (applyMask s.side k s.mem)).complete.AllSet :=
  fun _ hx _ hy => congrArg Cell.isSet (cellAt_masked hset k hx hy)

/-- Where the symbol has no codeword cell a mask toggles no location (R179). -/
theorem not_maskToggles_of_no_codeword {n : ℕ} {m : Memory} (h : ∀ x y, x < n → y < n → (cellAt m x y).isCodeword = false) {loc : ℕ}
    {b : Byte} (hb : Memory.read m loc = some b) (k : BitVec 3) : maskToggles n k (loc, b) ≠ true := fun ht => by
  obtain ⟨hmat, hx, hy, hcw⟩ := codeword_of_maskToggles ht
  have hcell : cellAt m (matX loc) (matY loc) = Cell.ofByte b := by rw [cellAt, matLoc_matX_matY hmat, hb]; rfl
  rw [← hcell, h _ _ hx hy] at hcw
  cases hcw

/-- In canonical form every listed cell is what its location reads. -/
theorem Memory.read_of_mem {m : Memory} (hwf : Memory.wf m) {c : Host.Cell} (hc : c ∈ m) : Memory.read m c.1 = some c.2 := by
  obtain ⟨hsorted, -⟩ := hwf
  induction m with
  | nil => cases hc
  | cons d m ih =>
    obtain ⟨hd, hsorted⟩ := List.pairwise_cons.1 hsorted
    rw [Memory.read_cons]
    rcases List.mem_cons.1 hc with rfl | hc
    · exact if_pos rfl
    · rw [if_neg (Nat.ne_of_lt (hd c hc)), ih hc hsorted]

/-- Storage in canonical form is unchanged by a mask where the symbol has no codeword cell (R179). -/
theorem applyMask_of_no_codeword {n : ℕ} {m : Memory} (h : ∀ x y, x < n → y < n → (cellAt m x y).isCodeword = false)
    (hwf : Memory.wf m) (k : BitVec 3) : applyMask n k m = m := by
  have hkeep : ∀ c ∈ m, toggled n k c = c := fun c hc => if_neg (not_maskToggles_of_no_codeword h (Memory.read_of_mem hwf hc) k)
  rw [applyMask_eq_map, List.map_congr_left hkeep, List.map_id']

theorem grid_congr {n : ℕ} {f g : ℕ → ℕ → Bool} (h : ∀ x < n, ∀ y < n, f x y = g x y) : grid n f = grid n g :=
  List.map_congr_left fun y hy => List.map_congr_left fun x hx => h x (List.mem_range.1 hx) y (List.mem_range.1 hy)

/-- The score of the storage is the score of the colours of its cells (R176). -/
theorem penaltyOf_eq {n : ℕ} (hn : n ≤ 256) (m : Memory) : penaltyOf n m = scoreOf n (grid n fun x y => (cellAt m x y).value) := by
  rw [penaltyOf, colours_eq_grid m n hn]

/-- The score of a masked symbol is the score of the masked colours (R171, R177). -/
theorem penaltyOf_applyMask (s : State) (k : BitVec 3) :
    penaltyOf s.side (applyMask s.side k s.mem) = scoreOf s.side (grid s.side (s.maskedColour k)) := by
  have hn : s.side ≤ 256 := Nat.le_trans (side_le_177 s) (by decide)
  rw [penaltyOf_eq hn]
  exact congrArg (scoreOf s.side) (grid_congr fun x hx y hy => congrArg Cell.value (cellAt_applyMask s.mem k hn hx hy))

/-! ## The trials of `MASKSEL` -/

/-- The score of the symbol under mask `k` (R176, R177). -/
def State.trialScore (s : State) (k : BitVec 3) : Score := scoreOf s.side (grid s.side (s.maskedColour k))

/-- `MPEN[k]` holds the total penalty of the symbol under mask `k` (R181). -/
theorem trialWords_get (s : State) (k : Fin 8) :
    (trialWords s.side s.mem)[k] = BitVec.ofNat 32 (s.trialScore (BitVec.ofFin k)).total := by
  rw [State.trialScore, ← penaltyOf_applyMask]
  fin_cases k <;> rfl

/-- No part of the score of a symbol overflows its register (R41). -/
theorem trialScore_lt (s : State) (k : BitVec 3) :
    (s.trialScore k).dark < 2 ^ 32 ∧ (s.trialScore k).adj < 2 ^ 32 ∧ (s.trialScore k).blk < 2 ^ 32
      ∧ (s.trialScore k).find < 2 ^ 32 ∧ (s.trialScore k).prop < 2 ^ 32 ∧ (s.trialScore k).total < 2 ^ 32 := by
  have hn := side_le_177 s
  have hdark : (s.trialScore k).dark ≤ 177 * 177 := Nat.le_trans (popcount_grid_le s.side (s.maskedColour k)) (Nat.mul_le_mul hn hn)
  have htotal : (s.trialScore k).total < 2 ^ 22 := total_scoreOf_lt hn (s.maskedColour k)
  have hsum : (s.trialScore k).total
      = (s.trialScore k).adj + (s.trialScore k).blk + (s.trialScore k).find + (s.trialScore k).prop := rfl
  omega

theorem toNat_trialWords_get (s : State) (k : Fin 8) :
    (trialWords s.side s.mem)[k].toNat = (s.trialScore (BitVec.ofFin k)).total := by
  obtain ⟨-, -, -, -, -, hlt⟩ := trialScore_lt s (BitVec.ofFin k)
  rw [trialWords_get, BitVec.toNat_ofNat, Nat.mod_eq_of_lt hlt]

/-- The chosen mask is the least one of the lowest total penalty (R177). -/
theorem selectMask_lowest (s : State) (k : BitVec 3) :
    (s.trialScore (selectMask s.side s.mem)).total ≤ (s.trialScore k).total
      ∧ (k < selectMask s.side s.mem → (s.trialScore (selectMask s.side s.mem)).total < (s.trialScore k).total) := by
  have h := selectMask_least (side_le_177 s) s.mem k.toFin
  rwa [BitVec.le_def, BitVec.lt_def, toNat_trialWords_get, toNat_trialWords_get] at h

/-- `MASKSEL` leaves the score registers holding the score under the chosen mask (R181). -/
theorem applySelection_eq (s : State) :
    s.applySelection = ((s.setSelection (trialWords s.side s.mem) (selectMask s.side s.mem)).setMem
      (applyMask s.side (selectMask s.side s.mem) s.mem)).setScore (s.trialScore (selectMask s.side s.mem)) := by
  rw [State.trialScore, ← penaltyOf_applyMask]; rfl

end Sys2Proof.Machine

open Sys2Proof Sys2Proof.Machine

/-- Settles O51: what `MINIT` writes, and that its range test is the one precondition. -/
theorem minitRule : Obligations.MinitRule := by
  refine ⟨fun v s h1 h40 => ?_, fun v s h => ?_, decode_minit_append⟩
  · have hver : (Fin.ofNat 41 v.toNat).val = v.toNat := Nat.mod_eq_of_lt (by omega)
    refine ⟨_, exec_minit_of_range h1 h40 s, hver, ?_, fun x y _ _ => cellAt_clearMatrix s.mem x y,
      fun loc hl => (Memory.read_clearMatrix s.mem loc).trans (if_neg (Nat.not_le.2 hl)), rfl⟩
    have hside := sideOf_of_ne_zero (v := Fin.ofNat 41 v.toNat) (by omega)
    rwa [hver] at hside
  · rw [exec_minit_faults h]; exact faultsWith_faultEntry s .invalidInput

/-- Settles O52: `MASKAPPLY` completes with the mask applied, by what a mask does to a cell and to a location. -/
theorem maskapplyRule : Obligations.MaskapplyRule := by
  refine ⟨fun k s hv hset => ?_, fun k s hv => faultsWith_of_no_matrix (exec_maskapply k s) hv,
    fun k s hv hset => faultsWith_of_unset (exec_maskapply k s) hv hset, decode_maskapply_append⟩
  refine ⟨_, completes_of_allSet (exec_maskapply k s) hv hset, fun x y hx hy => cellAt_masked hset k hx hy,
    fun loc h => read_applyMask_outside k s.mem h, rfl, ⟨_, completes_of_allSet (exec_maskapply k _) hv (allSet_masked hset k), ?_⟩,
    fun h => ⟨fun loc => ?_, fun hwf => applyMask_of_no_codeword h hwf k⟩, fun hver hcells hk => ?_⟩
  · exact applyMask_applyMask k s.mem
  · exact read_applyMask_of_not_toggled fun b hb => not_maskToggles_of_no_codeword h hb k
  · subst hk
    have hside : s.side = 21 := by rw [State.side, hver]; rfl
    have hcolour : ∀ x < 21, ∀ y < 21, (cellAt (applyMask s.side 0 s.mem) x y).value = maskPred 0 x y := fun x hx y hy => by
      rw [cellAt_applyMask s.mem 0 (by omega) (by omega) (by omega), hcells x y hx hy]; simp
    refine ⟨fun x y hx hy => ?_, ?_⟩
    · exact (Bool.eq_iff_iff.1 (hcolour x hx y hy)).trans beq_iff_eq
    · rw [colours_eq_grid _ _ (by decide)]
      exact (congrArg popcount (grid_congr hcolour)).trans (by decide +kernel)

/-- Settles O53: `SCORE` completes with the score of the colours. -/
theorem scoreRule : Obligations.ScoreRule := by
  refine ⟨fun s hv hset => ⟨_, completes_of_allSet (exec_score s) hv hset, ?_⟩, by decide +kernel, by decide +kernel,
    by decide +kernel, by decide +kernel, fun s hv => faultsWith_of_no_matrix (exec_score s) hv,
    fun s hv hset => faultsWith_of_unset (exec_score s) hv hset, decode_score_append⟩
  rw [penaltyOf_eq (Nat.le_trans (side_le_177 s) (by decide))]
  rfl

/-- Settles O54: `MASKSEL` completes with the trial penalties, the least best mask applied and its score. -/
theorem maskselRule : Obligations.MaskselRule := by
  refine ⟨fun s hv hset => ?_, by decide +kernel, fun s hv => faultsWith_of_no_matrix (exec_masksel s) hv,
    fun s hv hset => faultsWith_of_unset (exec_masksel s) hv hset, decode_masksel_append⟩
  have hexec := completes_of_allSet (exec_masksel s) hv hset
  rw [applySelection_eq] at hexec
  obtain ⟨hdark, hadj, hblk, hfind, hprop, -⟩ := trialScore_lt s (selectMask s.side s.mem)
  exact ⟨_, hexec, toNat_trialWords_get s, selectMask_lowest s, fun x y hx hy => cellAt_masked hset _ hx hy,
    fun loc h => read_applyMask_outside _ s.mem h, Nat.mod_eq_of_lt hdark, Nat.mod_eq_of_lt hadj, Nat.mod_eq_of_lt hblk,
    Nat.mod_eq_of_lt hfind, Nat.mod_eq_of_lt hprop, (trialWords_get s _).symm, rfl⟩

end

section
/-! SUPPORT. The words and the transitions of the format and version commands (30_encoding.md R91 to R94, 43_format_version.md R216 to
R220): a placement map names each cell for one bit, so a placed cell holds that bit (R212 to R215). -/

namespace Sys2Proof

/-! ## The words of formats I6 and EM -/

theorem append_eq_append_iff {m n : ℕ} {x x' : BitVec m} {y y' : BitVec n} : x ++ y = x' ++ y' ↔ x = x' ∧ y = y' := by
  refine ⟨fun h => ?_, fun ⟨hx, hy⟩ => hx ▸ hy ▸ rfl⟩
  have hhigh := congrArg (BitVec.extractLsb' n m) h
  rw [BitVec.extractLsb'_append_eq_left, BitVec.extractLsb'_append_eq_left] at hhigh
  subst hhigh
  exact ⟨rfl, (BitVec.append_right_inj x).1 h⟩

/-- The level in a word of format EM, whatever its reserved bits are (R91). -/
theorem ecField_append (op : BitVec 8) (hi : BitVec 14) (ec : EcLevel) (lo : BitVec 5) (m : BitVec 3) :
    ecField (op ++ hi ++ ec.toBits ++ lo ++ m) = ec := by
  have hwindow : (op ++ hi ++ ec.toBits ++ lo ++ m).extractLsb' 8 2 = ec.toBits := by
    rw [BitVec.extractLsb'_append_eq_of_le (by decide)]
    exact field_append ..
  rw [ecField, hwindow, ecLevelOf_toBits]

/-- The opcode of a word of format EM (R91). -/
theorem opcodeOf_append_em (op : BitVec 8) (hi : BitVec 14) (ec : EcLevel) (lo : BitVec 5) (m : BitVec 3) :
    opcodeOf (op ++ hi ++ ec.toBits ++ lo ++ m) = op := by
  simp only [opcodeOf, BitVec.extractLsb'_append_eq_of_le (by decide : 3 ≤ 24), BitVec.extractLsb'_append_eq_of_le (by decide : 5 ≤ 21),
    BitVec.extractLsb'_append_eq_of_le (by decide : 2 ≤ 16)]
  exact BitVec.extractLsb'_append_eq_left

/-- Bits 23:10 and 7:3 of a command of format EM are reserved (R91, R94). -/
theorem decode_em_append {op : BitVec 8} {ec : EcLevel} {m : BitVec 3} {i : Instr} (hi : BitVec 14) (lo : BitVec 5)
    (hword : encode i = op ++ 0#14 ++ ec.toBits ++ 0#5 ++ m) (hmem : i ∈ candidates (op ++ hi ++ ec.toBits ++ lo ++ m)) :
    decode (op ++ hi ++ ec.toBits ++ lo ++ m) = if hi = 0 ∧ lo = 0 then .command i else .illegal .reservedBit := by
  refine decode_of_opcode hmem ?_ ?_
  · rw [hword, opcodeOf_append_em, opcodeOf_append_em]
  · rw [hword, BitVec.append_left_inj, append_eq_append_iff, field_inj]
    exact and_congr eq_comm eq_comm

theorem decode_fmtpack_append (hi : BitVec 14) (ec : EcLevel) (lo : BitVec 5) (m : BitVec 3) :
    decode (0x40#8 ++ hi ++ ec.toBits ++ lo ++ m) = if hi = 0 ∧ lo = 0 then .command (.fmtpack ec m) else .illegal .reservedBit :=
  decode_em_append hi lo rfl <| by
    simp only [candidates, ecField_append, maskField, BitVec.extractLsb'_append_eq_right, List.mem_cons, true_or, or_true]

theorem decode_fmtplace_append (hi : BitVec 14) (ec : EcLevel) (lo : BitVec 5) (m : BitVec 3) :
    decode (0x42#8 ++ hi ++ ec.toBits ++ lo ++ m) = if hi = 0 ∧ lo = 0 then .command (.fmtplace ec m) else .illegal .reservedBit :=
  decode_em_append hi lo rfl <| by
    simp only [candidates, ecField_append, maskField, BitVec.extractLsb'_append_eq_right, List.mem_cons, true_or, or_true]

/-- Bits 23:6 of `VERPACK` are reserved (R91, R219). -/
theorem decode_verpack_append (r : BitVec 18) (v : BitVec 6) :
    decode (0x44#8 ++ r ++ v) = if r = 0 then .command (.verpack v) else .illegal .reservedBit := by
  refine decode_of_opcode ?_ (window_above_fields 0x44#8 r 0#18 v) ((field_inj _ v).trans eq_comm)
  simp only [candidates, BitVec.extractLsb'_append_eq_right, List.mem_cons, true_or, or_true]

theorem decode_fmtrsv_append (r : BitVec 24) : decode (0x41#8 ++ r) = if r = 0 then .command .fmtrsv else .illegal .reservedBit :=
  decode_plain_append (by decide) rfl r

theorem decode_verplace_append (r : BitVec 24) : decode (0x45#8 ++ r) = if r = 0 then .command .verplace else .illegal .reservedBit :=
  decode_plain_append (by decide) rfl r

end Sys2Proof

namespace Sys2Proof.Machine

variable {s : State} {m : Memory} {n : ℕ}

/-! ## The codes -/

/-- The format code stands in its level's rows at the mask's place (R211). -/
theorem formatCode_entry (p : Config.Params) (ec : EcLevel) (k : BitVec 3) :
    p.formatInformation[levelRow ec + k.toNat]? = some (formatCode p ec k) := by
  have hindex : (formatIndex ec k).toNat = levelRow ec + k.toNat := by
    revert k; cases ec <;> decide
  rw [← hindex]
  exact Vector.getElem?_eq_getElem (formatIndex ec k).isLt

/-- Every version from 7 to 40 has a code (R214). -/
theorem versionCode_entry (p : Config.Params) {v : ℕ} (h7 : 7 ≤ v) (h40 : v ≤ 40) :
    ∃ c, p.versionInformation[v - 7]? = some c ∧ versionCode p v = some c := by
  have hentry : p.versionInformation[v - 7]? = some p.versionInformation[v - 7] := Vector.getElem?_eq_getElem (by omega)
  exact ⟨_, hentry, (if_pos h7).trans hentry⟩

/-! ## `FMTPACK` and `VERPACK` -/

theorem execFor_fmtpack (p : Config.Params) (ec : EcLevel) (k : BitVec 3) (s : State) :
    execFor p (.fmtpack ec k) s = .next (s.setResult ((formatCode p ec k).setWidth 18)).complete := rfl

/-- `VERPACK` of a version from 7 to 40 completes with its code (R219). -/
theorem execFor_verpack_of_range (p : Config.Params) {v : BitVec 6} (h7 : 7 ≤ v.toNat) (h40 : v.toNat ≤ 40) (s : State) :
    ∃ c, p.versionInformation[v.toNat - 7]? = some c ∧ execFor p (.verpack v) s = .next (s.setResult c).complete := by
  obtain ⟨c, hentry, hcode⟩ := versionCode_entry p h7 h40
  exact ⟨c, hentry, by simp only [execFor, verpackFor, hcode]⟩

/-- `VERPACK` of a version without a code faults with INVALID_INPUT (R219). -/
theorem exec_verpack_faults {v : BitVec 6} (h : v.toNat ≤ 6 ∨ 41 ≤ v.toNat) (s : State) :
    exec (.verpack v) s = .next (s.faultEntry .invalidInput) :=
  exec_of_not_wellFormed (fun hwf => by have := of_decide_eq_true hwf; simp only [Config.verInfoMin, Config.verMax] at this; omega) s

/-! ## The preconditions of the placers -/

/-- Their preconditions fail as R221 says: NO_MATRIX, then CELL_CONFLICT. -/
theorem firstFailing_placerChecks (s : State) (targets : List BitCell) : firstFailing (placerChecks s targets) = placerCause s targets := by
  simp only [placerChecks, firstFailing_cons, firstFailing_nil, State.hasNoMatrix, hasConflict_eq, placerCause, decide_eq_true_eq]

section
variable {answer : Answer} {effect : State → State} {targets : List BitCell} (h : answer = conclude (placerChecks s targets) effect s)
include h

/-- With a matrix and no codeword cell among its targets a placer completes (R217, R218, R220). -/
theorem completes_of_no_conflict (hv : s.ver ≠ 0) (hc : ¬ s.Conflict targets) : answer = .next (effect s).complete := by
  refine h.trans (conclude_of_none effect s ?_)
  rw [firstFailing_placerChecks, placerCause, if_neg (Fin.val_ne_zero_iff.2 hv), if_neg hc]

/-- Without a matrix a placer faults with NO_MATRIX (R217, R218, R220). -/
theorem placer_faultsWith_of_no_matrix (hv : s.ver = 0) : FaultsWith answer s 6 := by
  have hcause : placerCause s targets = some .noMatrix := if_pos (congrArg Fin.val hv)
  rw [h, conclude_of_some effect s ((firstFailing_placerChecks s targets).trans hcause)]
  exact faultsWith_faultEntry s .noMatrix

/-- With a codeword cell among its targets a placer faults with CELL_CONFLICT (R221). -/
theorem faultsWith_of_conflict (hv : s.ver ≠ 0) (hc : s.Conflict targets) : FaultsWith answer s 8 := by
  have hcause : placerCause s targets = some .cellConflict := by
    rw [placerCause, if_neg (Fin.val_ne_zero_iff.2 hv), if_pos hc]
  rw [h, conclude_of_some effect s ((firstFailing_placerChecks s targets).trans hcause)]
  exact faultsWith_faultEntry s .cellConflict

end

theorem execFor_fmtrsv (p : Config.Params) (s : State) : execFor p .fmtrsv s
    = conclude (placerChecks s (fmtCells s.side)) (fun s => s.setMem (placeFormat s.side 0 p.rsvDark s.mem)) s := rfl

theorem execFor_fmtplace (p : Config.Params) (ec : EcLevel) (k : BitVec 3) (s : State) : execFor p (.fmtplace ec k) s
    = conclude (placerChecks s (fmtCells s.side)) (fun s => s.setMem (placeFormat s.side (formatCode p ec k) true s.mem)) s := rfl

theorem execFor_verplace (p : Config.Params) (s : State) :
    execFor p .verplace s = conclude (placerChecks s (versionTargets s.ver)) (State.stampVersion p) s := rfl

/-! ## Placed bits -/

/-- Where the coordinates of a cell settle its bit, a target holds the bit it is mapped to (R213, R215). -/
theorem cellAt_placeBits_of_mem {w : ℕ} (c : BitVec w) {cells : List BitCell} {bitAt : ℕ → ℕ → ℕ}
    (hbit : ∀ p ∈ cells, p.bit = bitAt p.x p.y) (hx : ∀ p ∈ cells, p.x < 256) (m : Memory) {i x y : ℕ}
    (hp : ⟨i, x, y⟩ ∈ cells) : cellAt (placeBits c cells m) x y = .functional (sbit c i) := by
  have hi : i = bitAt x y := hbit _ hp
  refine cellAt_placeBits c (sbit c i) (hx _ hp) cells m hx (fun q hq hqx hqy => ?_) (.inl ⟨_, hp, rfl, rfl⟩)
  rw [hbit q hq, hqx, hqy, hi]

/-! ## The format information -/

/-- The bit that the format map gives the cell `(x, y)` of the symbol of side `n` (R212). -/
def fmtBitAt (n x y : ℕ) : ℕ :=
  if y = 8 then if x < 6 then x else if x ≤ 8 then x - 1 else 15 + x - n
  else if y < 6 then 14 - y else if y ≤ 8 then 15 - y else n - 1 - y

/-- The four cells of each pair of bits of the format map (R212). -/
theorem mem_fmtCells {p : BitCell} : p ∈ fmtCells n ↔
    ∃ i < 8, p = ⟨i, skip6 i, 8⟩ ∨ p = ⟨i, 8, n - 1 - i⟩ ∨ p = ⟨14 - i, 8, skip6 i⟩ ∨ p = ⟨14 - i, n - 1 - i, 8⟩ := by
  simp only [fmtCells, List.mem_append, List.mem_flatMap, List.mem_range, List.mem_cons, List.not_mem_nil, or_false, ← exists_or,
    ← and_or_left, or_assoc]

/-- No two pairs of the format map give one cell different bits: only `(8, 8)` is named twice, both times for bit 7 (R212). -/
theorem bit_of_mem_fmtCells (hn : 21 ≤ n) : ∀ p ∈ fmtCells n, p.bit = fmtBitAt n p.x p.y := by
  intro p hp
  obtain ⟨i, hi, rfl | rfl | rfl | rfl⟩ := mem_fmtCells.1 hp
  all_goals simp only [fmtBitAt, skip6]; split_ifs <;> omega

/-- The dark module is a target, for bit 7 (R212). -/
theorem darkModule_mem_fmtCells (n : ℕ) : ⟨7, 8, n - 8⟩ ∈ fmtCells n :=
  mem_fmtCells.2 ⟨7, by decide, .inr (.inl (congrArg (BitCell.mk 7 8) (by omega)))⟩

theorem cellAt_placeFormat_darkModule (n : ℕ) (c : BitVec Config.fmtBits) (dm : Bool) (m : Memory) :
    cellAt (placeFormat n c dm m) 8 (n - 8) = .functional dm := by
  rw [placeFormat, cellAt_writeCell _ _ (by decide) (by decide), if_pos ⟨rfl, rfl⟩]

/-- A target other than the dark module holds its bit (R213). -/
theorem cellAt_placeFormat_of_mem (hn : 21 ≤ n) (hn' : n ≤ 177) (c : BitVec Config.fmtBits) (dm : Bool) (m : Memory)
    {i x y : ℕ} (hp : ⟨i, x, y⟩ ∈ fmtCells n) (hdark : ¬ (8 = x ∧ n - 8 = y)) :
    cellAt (placeFormat n c dm m) x y = .functional (sbit c i) := by
  have hx : ∀ p ∈ fmtCells n, p.x < 256 := fun q hq => by have := (fmtCells_lt hn q hq).1; omega
  rw [placeFormat, cellAt_writeCell _ _ (by decide) (hx _ hp), if_neg hdark]
  exact cellAt_placeBits_of_mem c (bit_of_mem_fmtCells hn) hx m hp

theorem sbit_formatCode (c : BitVec Config.fmtBits) (i : ℕ) : sbit c i = c.getLsbD (14 - i) := rfl

theorem sbit_formatCode_reverse (c : BitVec Config.fmtBits) {i : ℕ} (hi : i < 8) : sbit c (14 - i) = c.getLsbD i := by
  rw [sbit_formatCode, Nat.sub_sub_self (by omega)]

/-- The cells of bits `i` and `14 - i` after the format information is placed (R212, R213). -/
theorem cellAt_placeFormat (hn : 21 ≤ n) (hn' : n ≤ 177) (c : BitVec Config.fmtBits) (dm : Bool) (m : Memory) {i : ℕ} (hi : i < 8) :
    cellAt (placeFormat n c dm m) (skip6 i) 8 = .functional (c.getLsbD (14 - i))
      ∧ cellAt (placeFormat n c dm m) 8 (skip6 i) = .functional (c.getLsbD i)
      ∧ cellAt (placeFormat n c dm m) (n - 1 - i) 8 = .functional (c.getLsbD i)
      ∧ (i < 7 → cellAt (placeFormat n c dm m) 8 (n - 1 - i) = .functional (c.getLsbD (14 - i))) := by
  have hskip := skip6_le hi
  have hplaced {i x y : ℕ} := cellAt_placeFormat_of_mem hn hn' c dm m (i := i) (x := x) (y := y)
  rw [← sbit_formatCode c i, ← sbit_formatCode_reverse c hi]
  exact ⟨hplaced (mem_fmtCells.2 ⟨i, hi, .inl rfl⟩) (by omega),
    hplaced (mem_fmtCells.2 ⟨i, hi, .inr (.inr (.inl rfl))⟩) (by omega),
    hplaced (mem_fmtCells.2 ⟨i, hi, .inr (.inr (.inr rfl))⟩) (by omega),
    fun h7 => hplaced (mem_fmtCells.2 ⟨i, hi, .inr (.inl rfl)⟩) (by omega)⟩

/-- Placing the format information leaves every location alone that is no target (R213). -/
theorem read_placeFormat_of_not_target (c : BitVec Config.fmtBits) (dm : Bool) (m : Memory) {loc : ℕ}
    (h : ∀ p ∈ fmtCells n, loc ≠ matLoc p.x p.y) : Memory.read (placeFormat n c dm m) loc = Memory.read m loc := by
  rw [placeFormat, writeCell, Memory.read_write, if_neg (h _ (darkModule_mem_fmtCells n)).symm]
  exact read_placeBits_of_not_target c _ m h

/-! ## The version information -/

/-- The bit that the version map gives the cell `(x, y)` of the symbol of side `n` (R215). -/
def verBitAt (n x y : ℕ) : ℕ := if y < 6 then 3 * (5 - y) + (n - 9 - x) else 3 * (5 - x) + (n - 9 - y)

/-- The two cells of each bit of the version map (R215). -/
theorem mem_verCells {p : BitCell} :
    p ∈ verCells n ↔ ∃ i < 18, p = ⟨i, n - 9 - i % 3, 5 - i / 3⟩ ∨ p = ⟨i, 5 - i / 3, n - 9 - i % 3⟩ := by
  simp only [verCells, List.mem_flatMap, List.mem_range, List.mem_cons, List.not_mem_nil, or_false]

/-- The version map names each cell for one bit (R215). -/
theorem bit_of_mem_verCells (hn : 45 ≤ n) : ∀ p ∈ verCells n, p.bit = verBitAt n p.x p.y := by
  intro p hp
  obtain ⟨i, hi, rfl | rfl⟩ := mem_verCells.1 hp
  all_goals simp only [verBitAt]; split_ifs <;> omega

theorem sbit_versionCode (c : BitVec Config.verInfoBits) (i : ℕ) : sbit c i = c.getLsbD (17 - i) := rfl

/-- The cells of bit `i` after the version information is placed (R215). -/
theorem cellAt_placeVersion (hn : 45 ≤ n) (hn' : n ≤ 177) (c : BitVec Config.verInfoBits) (m : Memory) {i : ℕ} (hi : i < 18) :
    cellAt (placeVersion n c m) (n - 9 - i % 3) (5 - i / 3) = .functional (c.getLsbD (17 - i))
      ∧ cellAt (placeVersion n c m) (5 - i / 3) (n - 9 - i % 3) = .functional (c.getLsbD (17 - i)) := by
  have hx : ∀ p ∈ verCells n, p.x < 256 := fun p hp => by have := (verCells_lt hn p hp).1; omega
  have hplaced {x y : ℕ} := cellAt_placeBits_of_mem c (bit_of_mem_verCells hn) hx m (i := i) (x := x) (y := y)
  rw [← sbit_versionCode c i]
  exact ⟨hplaced (mem_verCells.2 ⟨i, hi, .inl rfl⟩), hplaced (mem_verCells.2 ⟨i, hi, .inr rfl⟩)⟩

theorem versionTargets_of_ge_seven {v : Fin 41} (h : 7 ≤ v.val) : versionTargets v = verCells (sideOf v) := if_pos h

theorem versionTargets_of_le_six {v : Fin 41} (h : v.val ≤ 6) : versionTargets v = [] := if_neg (Nat.not_le.2 (Nat.lt_succ_of_le h))

theorem stampVersion_of_code {p : Config.Params} {c : BitVec 18} (h : versionCode p s.ver.val = some c) :
    State.stampVersion p s = s.setMem (placeVersion s.side c s.mem) := by rw [State.stampVersion, h]

theorem stampVersion_of_le_six {p : Config.Params} (h : s.ver.val ≤ 6) : State.stampVersion p s = s := by
  rw [State.stampVersion, (versionCode_eq_none p _).2 (.inl (Nat.lt_succ_of_le h))]

/-- `VERPLACE` at version 7 or above with no conflict completes with the code of the version placed (R220). -/
theorem execFor_verplace_of_ge_seven (p : Config.Params) (h7 : 7 ≤ s.ver.val) (hc : ¬ s.Conflict (verCells s.side)) :
    ∃ c, p.versionInformation[s.ver.val - 7]? = some c
      ∧ execFor p .verplace s = .next (s.setMem (placeVersion s.side c s.mem)).complete := by
  obtain ⟨c, hentry, hcode⟩ := versionCode_entry p h7 (by omega)
  have hv : s.ver ≠ 0 := Fin.val_ne_zero_iff.1 (by omega)
  rw [State.side, ← versionTargets_of_ge_seven h7] at hc
  refine ⟨c, hentry, ?_⟩
  rw [completes_of_no_conflict (execFor_verplace p s) hv hc, stampVersion_of_code hcode]

end Sys2Proof.Machine

open Sys2Proof Sys2Proof.Machine

/-- Settles O55: `FMTPACK` has no precondition and its table index is the one of R211. -/
theorem fmtpackRule : Obligations.FmtpackRule :=
  ⟨fun ec k s => ⟨_, formatCode_entry params ec k, _, execFor_fmtpack params ec k s, rfl⟩,
    fun p ec k s => ⟨_, _, formatCode_entry p ec k, execFor_fmtpack p ec k s, rfl⟩, rfl, decode_fmtpack_append⟩

/-- Settles O56: the placement of the all-zero code, by the laws of `placeFormat`. -/
theorem fmtrsvRule : Obligations.FmtrsvRule := by
  refine ⟨fun s hv hc => ?_, fun p s hv hc => ⟨_, completes_of_no_conflict (execFor_fmtrsv p s) hv hc, rfl⟩,
    fun s hv => placer_faultsWith_of_no_matrix (execFor_fmtrsv params s) hv,
    fun s hv hc => faultsWith_of_conflict (execFor_fmtrsv params s) hv hc, decode_fmtrsv_append⟩
  refine ⟨_, completes_of_no_conflict (execFor_fmtrsv params s) hv hc, fun i hi => ?_, cellAt_placeFormat_darkModule ..,
    fun loc h => read_placeFormat_of_not_target _ _ s.mem h, rfl⟩
  have hcells := cellAt_placeFormat (side_ge_of_ver (Fin.val_ne_zero_iff.2 hv)) (side_le_177 s) 0 params.rsvDark s.mem hi
  have hzero : ∀ k, (0 : BitVec Config.fmtBits).getLsbD k = false := fun _ => BitVec.getLsbD_zero
  simp only [hzero] at hcells
  exact hcells

/-- Settles O57: the placement of the format code with a dark dark module, by the laws of `placeFormat`. -/
theorem fmtplaceRule : Obligations.FmtplaceRule := by
  refine ⟨fun ec k s hv hc => ?_,
    fun p ec k s hv hc => ⟨_, _, formatCode_entry p ec k, completes_of_no_conflict (execFor_fmtplace p ec k s) hv hc, rfl⟩,
    fun ec k s hv => placer_faultsWith_of_no_matrix (execFor_fmtplace params ec k s) hv,
    fun ec k s hv hc => faultsWith_of_conflict (execFor_fmtplace params ec k s) hv hc, decode_fmtplace_append⟩
  exact ⟨_, _, formatCode_entry params ec k, completes_of_no_conflict (execFor_fmtplace params ec k s) hv hc,
    fun i hi => cellAt_placeFormat (side_ge_of_ver (Fin.val_ne_zero_iff.2 hv)) (side_le_177 s) _ true s.mem hi,
    cellAt_placeFormat_darkModule .., fun loc h => read_placeFormat_of_not_target _ _ s.mem h, rfl⟩

/-- Settles O58: a version has a code if and only if it is in `7 .. 40`. -/
theorem verpackRule : Obligations.VerpackRule := by
  refine ⟨fun v s h7 h40 => ?_, fun p v s h7 h40 => ?_, rfl, fun v s h => ?_, decode_verpack_append⟩
  · obtain ⟨c, hentry, hexec⟩ := execFor_verpack_of_range params h7 h40 s
    exact ⟨c, _, hentry, hexec, rfl⟩
  · obtain ⟨c, hentry, hexec⟩ := execFor_verpack_of_range p h7 h40 s
    exact ⟨c, _, hentry, hexec, rfl⟩
  · rw [exec_verpack_faults h]; exact faultsWith_faultEntry s .invalidInput

/-- Settles O59: the placement of the version code by the laws of `placeBits`, and below version 7 no targets and no code. -/
theorem verplaceRule : Obligations.VerplaceRule := by
  refine ⟨fun s h7 hc => ?_, fun p s h7 hc => ?_, fun s hv h6 => ⟨s.complete, ?_, rfl⟩,
    fun s hv => placer_faultsWith_of_no_matrix (execFor_verplace params s) hv, fun s h7 hc => ?_, decode_verplace_append⟩
  · obtain ⟨c, hentry, hexec⟩ := execFor_verplace_of_ge_seven params h7 hc
    exact ⟨c, _, hentry, hexec, fun i hi => cellAt_placeVersion (side_ge_of_ver_seven h7) (side_le_177 s) c s.mem hi,
      fun loc h => read_placeBits_of_not_target c _ s.mem h, rfl⟩
  · obtain ⟨c, hentry, hexec⟩ := execFor_verplace_of_ge_seven p h7 hc
    exact ⟨c, _, hentry, hexec, rfl⟩
  · have hc : ¬ s.Conflict (versionTargets s.ver) := by rw [versionTargets_of_le_six h6]; rintro ⟨p, hp, -⟩; cases hp
    have hexec := completes_of_no_conflict (execFor_verplace params s) hv hc
    rwa [stampVersion_of_le_six h6] at hexec
  · rw [State.side, ← versionTargets_of_ge_seven h7] at hc
    exact faultsWith_of_conflict (execFor_verplace params s) (Fin.val_ne_zero_iff.1 (by omega)) hc

end

section
/-! SUPPORT. How a command ends: by the first cause that applies (60_exceptions.md R240 to R244), and so always in a next state. -/

namespace Sys2Proof.Machine

variable {s : State} {i : Instr}

/-- The answer is the end of a command from `s` that meets `cause`: the fault entry of that cause, or a completion where there is none. -/
def EndsBy (cause : Option Cause) (s : State) (answer : Answer) : Prop :=
  ∃ u : State, answer = .next (cause.elim u.complete s.faultEntry)

/-! ## The end of each command -/

theorem firstFailing_decide (p : Prop) [Decidable p] (c : Cause) (rest : List (Bool × Cause)) :
    firstFailing ((decide p, c) :: rest) = if p then some c else firstFailing rest := by
  simp only [firstFailing_cons, decide_eq_true_eq]

theorem endsBy_of_conclude {answer : Answer} {checks : List (Bool × Cause)} {effect : State → State} {cause : Option Cause}
    (hanswer : answer = conclude checks effect s) (hcause : firstFailing checks = cause) : EndsBy cause s answer := by
  subst hanswer hcause
  cases hfail : firstFailing checks with
  | none => exact ⟨effect s, conclude_of_none effect s hfail⟩
  | some c => exact ⟨s, conclude_of_some effect s hfail⟩

theorem gflog_endsBy (x : Byte) (s : State) : EndsBy (causeOf (.gflog x) s) s (exec (.gflog x) s) := by
  by_cases hx : x = 0
  · subst hx
    exact ⟨s, exec_gflog_zero s⟩
  · obtain ⟨k, -, hlog, -⟩ := exists_gfLog hx
    rw [causeOf, if_neg hx]
    exact ⟨_, exec_gflog hlog s⟩

theorem verpack_endsBy (v : BitVec 6) (s : State) : EndsBy (causeOf (.verpack v) s) s (exec (.verpack v) s) := by
  by_cases hv : v.toNat < 7 ∨ 40 < v.toNat
  · rw [causeOf, if_pos hv]
    exact ⟨s, exec_verpack_faults (by omega) s⟩
  · obtain ⟨c, -, hexec⟩ := execFor_verpack_of_range params (v := v) (by omega) (by omega) s
    rw [causeOf, if_neg hv, ← execFor_params]
    exact ⟨_, hexec⟩

/-- Every command ends by the first cause that applies (R240, R244): its preconditions, in the order it tests them, fail as `causeOf`
says. -/
theorem exec_endsBy (i : Instr) (s : State) : EndsBy (causeOf i s) s (exec i s) := by
  cases i with
  | gfmul a b => exact ⟨_, exec_gfmul a b s⟩
  | gfexp idx => exact ⟨_, exec_gfexp idx s⟩
  | gflog x => exact gflog_endsBy x s
  | pmul => exact endsBy_of_conclude (exec_pmul s) (by simp only [firstFailing_decide, firstFailing_nil, causeOf, ite_or])
  | pmod => exact endsBy_of_conclude (exec_pmod s) (firstFailing_decide ..)
  | genld d => exact endsBy_of_conclude (exec_genld d s) (firstFailing_decide ..)
  | rsenc e => exact endsBy_of_conclude (exec_rsenc e s) (by simp only [firstFailing_decide, firstFailing_nil, causeOf])
  | minit v =>
    refine endsBy_of_conclude (exec_minit v s) ?_
    simp only [firstFailing_decide, firstFailing_nil, causeOf, Config.verMin, Config.verMax, Nat.lt_one_iff]
  | maskapply m => exact endsBy_of_conclude (exec_maskapply m s) (firstFailing_maskChecks s)
  | score => exact endsBy_of_conclude (exec_score s) (firstFailing_maskChecks s)
  | masksel => exact endsBy_of_conclude (exec_masksel s) (firstFailing_maskChecks s)
  | fmtpack ec m => exact ⟨_, execFor_fmtpack params ec m s⟩
  | fmtrsv => exact endsBy_of_conclude (execFor_fmtrsv params s) (firstFailing_placerChecks s _)
  | fmtplace ec m => exact endsBy_of_conclude (execFor_fmtplace params ec m s) (firstFailing_placerChecks s _)
  | verpack v => exact verpack_endsBy v s
  | verplace => exact endsBy_of_conclude (execFor_verplace params s) (firstFailing_placerChecks s _)

/-! ## What follows for `exec` and `step` -/

theorem exec_of_cause {c : Cause} (h : causeOf i s = some c) : exec i s = .next (s.faultEntry c) := by
  obtain ⟨_, hend⟩ := exec_endsBy i s
  rw [hend, h, Option.elim_some]

/-- With no cause a command makes its writes and completes (R240). -/
theorem exec_of_no_cause (h : causeOf i s = none) : ∃ u, Writes s i u ∧ exec i s = .next u.complete := by
  obtain ⟨u, hend⟩ := exec_endsBy i s
  rw [h, Option.elim_none] at hend
  rcases exec_cases hend with ⟨c, hfault⟩ | ⟨u', hwrites, hdone⟩
  · exact absurd (congrArg State.phase hfault) Phase.noConfusion
  · exact ⟨u', hwrites, hend.trans (congrArg _ hdone)⟩

theorem step_of_command (hrun : s.CommandRuns) (h : decode s.cmdreg = .command i) : step s = exec i s :=
  (step_of_commandRuns hrun).trans (runCommandBy_of_command h)

theorem step_of_illegal {why : IllegalWord} (hrun : s.CommandRuns) (h : decode s.cmdreg = .illegal why) :
    step s = .next (s.faultEntry .illegalCmd) :=
  (step_of_commandRuns hrun).trans (runCommandBy_of_illegal h)

end Sys2Proof.Machine

open Sys2Proof Sys2Proof.Machine

/-- Settles O8: each command ends by the first cause that applies, and the writes of one that completes leave the fault registers and
`HERR` alone. -/
theorem faultCausesInOrder : Obligations.FaultCausesInOrder := by
  refine ⟨fun s hrun hno => ?_, fun i s => ⟨fun c hc => ?_, fun hnone => ?_⟩, rfl⟩
  · rw [step_of_illegal hrun (decode_of_no_command hno)]
    exact faultsWith_faultEntry s .illegalCmd
  · rw [exec_of_cause hc]
    exact faultsWith_faultEntry s c
  · obtain ⟨u, hwrites, hexec⟩ := exec_of_no_cause hnone
    obtain ⟨-, -, -, hherr, -, -, -, hcode, hcmd⟩ := hwrites.keeps_common
    exact ⟨_, hexec, rfl, rfl, hherr, hcode, hcmd⟩

/-- Settles O7: a command ends in a next state, an illegal word in a fault entry, and a turn of the host in the state it leads to. -/
theorem stepAlwaysAnswersNext : Obligations.StepAlwaysAnswersNext := by
  intro s
  cases hturn : s.blockMoves with
  | false => exact ⟨_, step_of_hostMoves hturn⟩
  | true =>
    have hrun : s.CommandRuns := s.blockMoves_iff.1 hturn
    cases hword : decode s.cmdreg with
    | command i =>
      obtain ⟨_, hend⟩ := exec_endsBy i s
      exact ⟨_, (step_of_command hrun hword).trans hend⟩
    | illegal why => exact ⟨_, step_of_illegal hrun hword⟩

/-- Settles O13: no command runs in phase FAULT, and of the turns of the host only a reset or a quiet one is possible there. -/
theorem faultLeftOnlyByReset : Obligations.FaultLeftOnlyByReset := by
  intro s t hfault h
  have hrun : ¬ s.CommandRuns := fun ⟨hbusy, _⟩ => absurd (hfault.symm.trans hbusy) (by decide)
  have hidle : s.phase ≠ .idle := by rw [hfault]; decide
  rcases step_effect h with ⟨hturn, -⟩ | ⟨hturn, -⟩ | heffect
  · exact absurd hturn hrun
  · exact absurd hturn hrun
  · cases heffect with
    | reset rest hs => exact .inl ⟨rest, hs, rfl⟩
    | quiet => exact .inr rfl
    | _ => exact absurd ‹s.phase = .idle› hidle

/-- Settles O5: in the block's turn `CMDREG` is decoded, and a command's meaning is `exec`. -/
theorem stepRunsDecodedCommand : Obligations.StepRunsDecodedCommand := fun _ _ => step_of_command

end

section
/-! SUPPORT. Noninterference of the leftovers (70_reset_and_hazards.md R280): the storage outside C, what a command reads there and what
it makes of it, for two states that agree on the operands. -/

namespace Sys2Proof.Machine

/-- The two storages agree outside C, as those of states with the same operands do. -/
def SameStorage (m m' : Memory) : Prop :=
  ∀ loc, loc < baseC ∨ baseC + 256 ≤ loc → Memory.read m loc = Memory.read m' loc

/-! ## What is read from storages that agree outside C -/

variable {m m' : Memory}

section
variable (h : SameStorage m m')
include h

theorem SameStorage.cellAt_eq (x y : ℕ) : cellAt m x y = cellAt m' x y :=
  cellAt_eq_of_read_eq (h _ (.inr (by simp only [matLoc, baseMat, baseC]; omega)))

theorem SameStorage.symbol_eq {n : ℕ} (hn : n ≤ 177) : symbol m n = symbol m' n :=
  List.map_congr_left fun y _ => by simp only [symbolRow_eq _ _ _ (hn.trans (by decide)), h.cellAt_eq]

theorem SameStorage.penaltyOf_eq {n : ℕ} (hn : n ≤ 177) : penaltyOf n m = penaltyOf n m' := by
  simp only [penaltyOf, colours, h.symbol_eq hn]

/-! ## The writes of the matrix on storages that agree outside C -/

theorem SameStorage.clearMatrix : SameStorage (Memory.clearMatrix m) (Memory.clearMatrix m') := fun loc hl => by
  rw [Memory.read_clearMatrix, Memory.read_clearMatrix, h loc hl]

theorem SameStorage.applyMask (n : ℕ) (k : BitVec 3) : SameStorage (applyMask n k m) (applyMask n k m') := fun loc hl => by
  rw [Memory.read_applyMask, Memory.read_applyMask, h loc hl]

theorem SameStorage.writeCell (x y : ℕ) (c : Cell) : SameStorage (writeCell m x y c) (writeCell m' x y c) := fun loc hl => by
  rw [Machine.writeCell, Machine.writeCell, Memory.read_write, Memory.read_write, h loc hl]

end

theorem SameStorage.placeBits {w : ℕ} (c : BitVec w) (cells : List BitCell) (h : SameStorage m m') :
    SameStorage (placeBits c cells m) (placeBits c cells m') := by
  induction cells generalizing m m' with
  | nil => exact h
  | cons p cells ih => exact ih (h.writeCell p.x p.y _)

section
variable (h : SameStorage m m')
include h

theorem SameStorage.placeFormat (n : ℕ) (c : BitVec Config.fmtBits) (dm : Bool) :
    SameStorage (placeFormat n c dm m) (placeFormat n c dm m') := (h.placeBits c _).writeCell _ _ _

/-! ## The trials of `MASKSEL` -/

theorem SameStorage.trialPenalty_eq {n : ℕ} (hn : n ≤ 177) (k : BitVec 3) : trialPenalty n m k = trialPenalty n m' k :=
  congrArg Score.total ((h.applyMask n k).penaltyOf_eq hn)

theorem SameStorage.trialPenalties_eq {n : ℕ} (hn : n ≤ 177) : trialPenalties n m = trialPenalties n m' := by
  simp only [trialPenalties, h.trialPenalty_eq hn]

/-- Word by word, since the kernel is slow to compare the two vectors as terms. -/
theorem SameStorage.trialWords_eq {n : ℕ} (hn : n ≤ 177) : trialWords n m = trialWords n m' :=
  Vector.ext fun k hk => BitVec.eq_of_toNat_eq (by
    have hword := toNat_trialWords hn m ⟨k, hk⟩
    have hword' := toNat_trialWords hn m' ⟨k, hk⟩
    simp only [h.trialPenalties_eq hn] at hword
    exact hword.trans hword'.symm)

theorem SameStorage.selectMask_eq {n : ℕ} (hn : n ≤ 177) : selectMask n m = selectMask n m' := by
  rw [selectMask, selectMask, h.trialPenalties_eq hn]

end

/-! ## What a command reads of states that agree on the operands -/

section
variable {s s' : State} (h : SameOperands s s')
include h

theorem SameOperands.storage : SameStorage s.mem s'.mem := by
  obtain ⟨-, -, -, -, -, hmem⟩ := h
  exact hmem

theorem SameOperands.side_eq : s.side = s'.side := by
  obtain ⟨-, hver, -⟩ := h
  rw [State.side, State.side, hver]

theorem SameOperands.entry_eq {loc : ℕ} (hl : loc < baseC) : s.entry loc = s'.entry loc := by
  obtain ⟨-, -, -, -, hdraws, hmem⟩ := h
  rw [State.entry, State.entry, hmem loc (.inl hl), hdraws]

theorem SameOperands.bufferList_eq {base len : ℕ} (hfit : base + len ≤ baseC) : s.bufferList base len = s'.bufferList base len :=
  List.map_congr_left fun k hk => h.storage _ (.inl (by have := List.mem_range.1 hk; omega))

theorem SameOperands.listA_eq (hA : s.lenA ≤ 256) : s.listA = s'.listA := by
  obtain ⟨-, -, hlen, -⟩ := id h
  rw [State.listA, State.listA, ← hlen, h.bufferList_eq (by simp only [baseA, baseC]; omega)]

theorem SameOperands.listB_eq (hB : s.lenB ≤ 256) : s.listB = s'.listB := by
  obtain ⟨-, -, -, hlen, -⟩ := id h
  rw [State.listB, State.listB, ← hlen, h.bufferList_eq (by simp only [baseB, baseC]; omega)]

theorem SameOperands.maskChecks_eq : maskChecks s = maskChecks s' := by
  obtain ⟨-, hver, -⟩ := id h
  simp only [maskChecks, State.hasNoMatrix, State.hasUnsetCell, hver, h.side_eq, h.storage.symbol_eq (side_le_177 s')]

theorem SameOperands.placerChecks_eq (targets : List BitCell) : placerChecks s targets = placerChecks s' targets := by
  obtain ⟨-, hver, -⟩ := id h
  simp only [placerChecks, State.hasNoMatrix, State.hasConflict, hver, h.storage.cellAt_eq]

end

/-! ## The ends of a command from two states -/

/-- The states `u` and `u'` agree on the operands and on all results that command `i` writes. For a result that `i` does not write there
is nothing to show, so that field is filled in where it is left out. -/
structure SameResults (i : Instr) (u u' : State) : Prop where
  operands : SameOperands u u'
  result : writesResult i = true → u.result = u'.result := by nofun
  bufferC : writesC i = true → u.lenC = u'.lenC
      ∧ ∀ loc, baseC ≤ loc → loc < baseC + u.lenC → Memory.read u.mem loc = Memory.read u'.mem loc := by nofun
  score : writesScore i = true → u.dark = u'.dark ∧ u.penAdj = u'.penAdj ∧ u.penBlk = u'.penBlk ∧ u.penFind = u'.penFind
      ∧ u.penProp = u'.penProp ∧ u.penTotal = u'.penTotal := by nofun
  selection : writesSelection i = true → u.mpen = u'.mpen ∧ u.best = u'.best := by nofun

/-- The answers of command `i` from `s` and from `s'` are the same end: the same fault, or a completion with the same results. -/
inductive EndsAlike (i : Instr) (s s' : State) : Answer → Answer → Prop
  | fault (c : Cause) : EndsAlike i s s' (.next (s.faultEntry c)) (.next (s'.faultEntry c))
  | completion {u u' : State} (h : SameResults i u u') : EndsAlike i s s' (.next u.complete) (.next u'.complete)

variable {s s' : State} {i : Instr}

/-- A command that is one `conclude` ends alike where its preconditions are the same and its writes give the same results. -/
theorem endsAlike_of_conclude {checks : State → List (Bool × Cause)} {effect : State → State}
    (hexec : ∀ s, exec i s = conclude (checks s) effect s) (hchecks : checks s = checks s')
    (heffect : firstFailing (checks s) = none → SameResults i (effect s) (effect s')) :
    EndsAlike i s s' (exec i s) (exec i s') := by
  rw [hexec, hexec]
  cases hfail : firstFailing (checks s) with
  | none =>
    rw [conclude_of_none effect s hfail, conclude_of_none effect s' (hchecks ▸ hfail)]
    exact .completion (heffect hfail)
  | some c =>
    rw [conclude_of_some effect s hfail, conclude_of_some effect s' (hchecks ▸ hfail)]
    exact .fault c

/-! ## The writes of a command from states that agree on the operands -/

/-- C holds the list that was written, whatever it held before (R27). -/
theorem sameC_setC {p : List Entry} (hp : p.length ≤ 256) :
    (s.setC p).lenC = (s'.setC p).lenC ∧ ∀ loc, baseC ≤ loc → loc < baseC + (s.setC p).lenC →
      Memory.read (s.setC p).mem loc = Memory.read (s'.setC p).mem loc := by
  refine ⟨rfl, fun loc hlo hhi => ?_⟩
  rw [State.setC_lenC] at hhi
  simp only [State.setC_mem, Memory.read_replaceC _ _ _ hp, if_pos (show baseC ≤ loc ∧ loc < baseC + 256 by omega)]

section
variable (h : SameOperands s s')
include h

theorem sameOperands_setMem {m m' : Memory} (hm : SameStorage m m') : SameOperands (s.setMem m) (s'.setMem m') := by
  obtain ⟨hcmd, hver, hA, hB, hdraws, -⟩ := h
  exact ⟨hcmd, hver, hA, hB, hdraws, hm⟩

/-- A new content of C changes no operand. -/
theorem sameOperands_setC {p : List Entry} (hp : p.length ≤ 256) : SameOperands (s.setC p) (s'.setC p) := by
  obtain ⟨hcmd, hver, hA, hB, hdraws, hmem⟩ := h
  refine ⟨hcmd, hver, hA, hB, hdraws, fun loc hl => ?_⟩
  rw [State.setC_mem, State.setC_mem, Memory.read_replaceC_outside _ hp hl, Memory.read_replaceC_outside _ hp hl, hmem loc hl]

theorem sameOperands_stampVersion : SameOperands (State.stampVersion params s) (State.stampVersion params s') := by
  obtain ⟨-, hver, -⟩ := id h
  unfold State.stampVersion
  rw [← hver, ← h.side_eq]
  cases versionCode params s.ver.val with
  | none => exact h
  | some c => exact sameOperands_setMem h (h.storage.placeBits c _)

/-- `MASKSEL` writes the same penalties, the same choice and the same scores. -/
theorem sameResults_applySelection : SameResults .masksel s.applySelection s'.applySelection := by
  have hn := side_le_177 s'
  have hmasked := h.storage.applyMask s'.side (selectMask s'.side s'.mem)
  simp only [State.applySelection, h.side_eq, h.storage.trialWords_eq hn, h.storage.selectMask_eq hn, hmasked.penaltyOf_eq hn]
  obtain ⟨hcmd, hver, hA, hB, hdraws, -⟩ := h
  exact { operands := ⟨hcmd, hver, hA, hB, hdraws, hmasked⟩
          score := fun _ => ⟨rfl, rfl, rfl, rfl, rfl, rfl⟩
          selection := fun _ => ⟨rfl, rfl⟩ }

/-! ## Every command -/

theorem gflog_endsAlike (x : Byte) : EndsAlike (.gflog x) s s' (exec (.gflog x) s) (exec (.gflog x) s') := by
  by_cases hx : x = 0
  · subst hx
    exact .fault .logZero
  · obtain ⟨k, -, hlog, -⟩ := exists_gfLog hx
    rw [exec_gflog hlog, exec_gflog hlog]
    exact .completion { operands := h, result := fun _ => rfl }

/-- `PMUL` reads A, B and their lengths (R127). -/
theorem pmul_endsAlike (hA : s.lenA ≤ 256) (hB : s.lenB ≤ 256) : EndsAlike .pmul s s' (exec .pmul s) (exec .pmul s') := by
  obtain ⟨-, -, hlenA, hlenB, -⟩ := id h
  refine endsAlike_of_conclude exec_pmul (by simp only [hlenA, hlenB]) fun hpass => ?_
  have hpass := firstFailing_eq_none.1 hpass
  simp only [List.forall_mem_cons, decide_eq_false_iff_not] at hpass
  obtain ⟨hne, hcap, -⟩ := hpass
  have hfit : s.product.length ≤ 256 := length_pmul_le hne (Nat.le_of_not_lt hcap)
  have hprod : s'.product = s.product := by rw [State.product, State.product, h.listA_eq hA, h.listB_eq hB]
  rw [hprod]
  exact { operands := sameOperands_setC h hfit, bufferC := fun _ => sameC_setC hfit }

/-- `PMOD` reads A, B, their lengths and the free values (R128, log 12). -/
theorem pmod_endsAlike (hA : s.lenA ≤ 256) (hB : s.lenB ≤ 256) : EndsAlike .pmod s s' (exec .pmod s) (exec .pmod s') := by
  obtain ⟨-, -, -, hlenB, hdraws, -⟩ := id h
  refine endsAlike_of_conclude exec_pmod (by simp only [hlenB, h.entry_eq (show baseB < baseC by decide)]) fun hpass => ?_
  have hpass := firstFailing_eq_none.1 hpass
  simp only [List.forall_mem_cons, decide_eq_false_iff_not] at hpass
  have hfit : s.remainder.length ≤ 256 := length_pmod_le _ (fun h0 => hpass.1 (.inl h0)) hB
  have hrem : s'.remainder = s.remainder := by
    rw [State.remainder, State.remainder, h.listA_eq hA, h.listB_eq hB, hdraws]
  rw [hrem]
  exact { operands := sameOperands_setC h hfit, bufferC := fun _ => sameC_setC hfit }

theorem verpack_endsAlike (v : BitVec 6) : EndsAlike (.verpack v) s s' (exec (.verpack v) s) (exec (.verpack v) s') := by
  by_cases hv : v.toNat < 7 ∨ 40 < v.toNat
  · rw [exec_verpack_faults (by omega), exec_verpack_faults (by omega)]
    exact .fault .invalidInput
  · obtain ⟨c, hc⟩ := Option.ne_none_iff_exists'.1 (mt (versionCode_eq_none params v.toNat).1 hv)
    simp only [exec, execVerpack, verpackFor, hc]
    exact .completion { operands := h, result := fun _ => rfl }

/-- From two states that agree on the operands every command ends alike (R280). -/
theorem exec_endsAlike (i : Instr) (hA : s.lenA ≤ 256) (hB : s.lenB ≤ 256) : EndsAlike i s s' (exec i s) (exec i s') := by
  obtain ⟨hcmd, hver, hlenA, hlenB, hdraws, -⟩ := id h
  cases i with
  | gfmul a b => exact .completion { operands := h, result := fun _ => rfl }
  | gfexp idx => exact .completion { operands := h, result := fun _ => rfl }
  | gflog x => exact gflog_endsAlike h x
  | pmul => exact pmul_endsAlike h hA hB
  | pmod => exact pmod_endsAlike h hA hB
  | genld d =>
    refine endsAlike_of_conclude (exec_genld d) rfl fun _ => ?_
    have hfit : ((gen d.toNat).map some).length ≤ 256 := by rw [List.length_map, length_gen]; have := d.isLt; omega
    exact { operands := sameOperands_setC h hfit, bufferC := fun _ => sameC_setC hfit }
  | rsenc e =>
    refine endsAlike_of_conclude (exec_rsenc e) (by simp only [hlenA]) fun _ => ?_
    have hfit : (s.ecCodewords e.toNat).length ≤ 256 := by
      rw [State.ecCodewords, length_openRsEncode]; have := e.isLt; omega
    have hec : s'.ecCodewords e.toNat = s.ecCodewords e.toNat := by rw [State.ecCodewords, State.ecCodewords, h.listA_eq hA]
    rw [hec]
    exact { operands := sameOperands_setC h hfit, bufferC := fun _ => sameC_setC hfit }
  | minit v =>
    exact endsAlike_of_conclude (exec_minit v) rfl fun _ =>
      { operands := ⟨hcmd, rfl, hlenA, hlenB, hdraws, h.storage.clearMatrix⟩ }
  | maskapply k =>
    refine endsAlike_of_conclude (exec_maskapply k) h.maskChecks_eq fun _ => ?_
    rw [← h.side_eq]
    exact { operands := sameOperands_setMem h (h.storage.applyMask _ k) }
  | score =>
    refine endsAlike_of_conclude exec_score h.maskChecks_eq fun _ => ?_
    rw [← h.side_eq, h.storage.penaltyOf_eq (side_le_177 s)]
    exact { operands := h, score := fun _ => ⟨rfl, rfl, rfl, rfl, rfl, rfl⟩ }
  | masksel => exact endsAlike_of_conclude exec_masksel h.maskChecks_eq fun _ => sameResults_applySelection h
  | fmtpack ec k => exact .completion { operands := h, result := fun _ => rfl }
  | fmtrsv =>
    refine endsAlike_of_conclude (execFor_fmtrsv params) (h.side_eq ▸ h.placerChecks_eq _) fun _ => ?_
    rw [← h.side_eq]
    exact { operands := sameOperands_setMem h (h.storage.placeFormat _ _ _) }
  | fmtplace ec k =>
    refine endsAlike_of_conclude (execFor_fmtplace params ec k) (h.side_eq ▸ h.placerChecks_eq _) fun _ => ?_
    rw [← h.side_eq]
    exact { operands := sameOperands_setMem h (h.storage.placeFormat _ _ _) }
  | verpack v => exact verpack_endsAlike h v
  | verplace =>
    exact endsAlike_of_conclude (execFor_verplace params) (hver ▸ h.placerChecks_eq _) fun _ =>
      { operands := sameOperands_stampVersion h }

end

end Sys2Proof.Machine

open Sys2Proof Sys2Proof.Machine

/-- Settles O10: from two states that agree on the operands a command takes the same fault, or completes with the same results. -/
theorem resultsIgnoreLeftovers : Obligations.ResultsIgnoreLeftovers := by
  intro i s s' t t' hA hB h ht ht'
  have halike := exec_endsAlike h i hA hB
  rw [ht, ht'] at halike
  cases halike with
  | fault c =>
    obtain ⟨hcmd, hver, hlenA, hlenB, hdraws, hmem⟩ := h
    exact ⟨⟨hcmd, hver, hlenA, hlenB, congrArg (· + 1) hdraws, hmem⟩, rfl, fun _ => rfl, nofun⟩
  | completion hresults =>
    obtain ⟨⟨hcmd, hver, hlenA, hlenB, hdraws, hmem⟩, hresult, hC, hscore, hsel⟩ := hresults
    exact ⟨⟨hcmd, hver, hlenA, hlenB, congrArg (· + 1) hdraws, hmem⟩, rfl, nofun, fun _ => ⟨hresult, hC, hscore, hsel⟩⟩

end

section
/-! SUPPORT. How long a command stays BUSY (70_reset_and_hazards.md R278): a step ends the command, or takes one of the turns left to the
host. -/

namespace Sys2Proof.Machine

variable {s t : State}

/-- The transition of the command in CMDREG leaves phase BUSY: it faults or completes (R240, R241). -/
theorem phase_of_commandRuns (hrun : s.CommandRuns) (h : step s = .next t) : t.phase ≠ .busy := by
  rcases step_cases h with ⟨-, i, -, hexec⟩ | ⟨-, -, rfl⟩ | ⟨hhost, -⟩
  · rcases exec_cases hexec with ⟨c, rfl⟩ | ⟨u, -, rfl⟩ <;> nofun
  · nofun
  · exact absurd (hhost.symm.trans (s.blockMoves_iff.2 hrun)) (by decide)

theorem reaches_one (h : step s = .next t) : s.Reaches 1 t := (reaches_succ h 0).2 (reaches_zero.2 rfl)

theorem busyFor_hostRead (s : State) (loc : ℕ) : (s.hostRead loc).busyFor = s.busyFor := by rw [hostRead_eq]

/-- While the block is BUSY an action of the host uses up one turn, unless it is a reset (log 6). -/
theorem hostTurn_of_busy (hbusy : s.phase = .busy) (hs : s.script ≠ []) :
    s.hostTurn.phase = .idle ∨ s.hostTurn.busyFor = s.busyFor - 1 := by
  match hop : s.script with
  | [] => exact absurd hop hs
  | .read loc :: rest => rw [hostTurn_read s hop]; exact .inr (busyFor_hostRead _ _)
  | .write loc v :: rest =>
    rw [hostTurn_write s hop, hostWrite_of_not_idle _ _ _ (by simp [hbusy])]
    exact .inr rfl
  | .poll :: rest => rw [hostTurn_poll s hop]; exact .inr (busyFor_hostRead _ _)
  | .reset :: rest => rw [hostTurn_reset s hop]; exact .inl rfl

/-- A step from phase BUSY leaves the phase or leaves one turn less to the host. -/
theorem step_of_busy (hbusy : s.phase = .busy) :
    ∃ t, step s = .next t ∧ (t.phase ≠ .busy ∨ t.busyFor + 1 = s.busyFor) := by
  by_cases hrun : s.CommandRuns
  · obtain ⟨t, ht⟩ := stepAlwaysAnswersNext s
    exact ⟨t, ht, .inl (phase_of_commandRuns hrun ht)⟩
  · obtain ⟨hturns, hs⟩ := not_or.1 (not_and.1 hrun hbusy)
    refine ⟨_, step_of_hostMoves (blockMoves_of_hostMoves fun _ => ⟨hturns, hs⟩), ?_⟩
    rcases hostTurn_of_busy hbusy hs with hidle | hless
    · exact .inl (by rw [hidle]; decide)
    · exact .inr (by omega)

end Sys2Proof.Machine

open Sys2Proof.Machine

/-- Settles O14, by induction on the turns left to the host. -/
theorem busyEndsInFiniteTime : Obligations.BusyEndsInFiniteTime := by
  intro s hbusy
  induction hturns : s.busyFor generalizing s with
  | zero =>
    obtain ⟨t, hstep, hend | hless⟩ := step_of_busy hbusy
    · exact ⟨1, t, Nat.le_refl 1, reaches_one hstep, hend⟩
    · omega
  | succ n ih =>
    obtain ⟨t, hstep, hend | hless⟩ := step_of_busy hbusy
    · exact ⟨1, t, by omega, reaches_one hstep, hend⟩
    · by_cases hstill : t.phase = .busy
      · obtain ⟨k, u, hk, hreach, hleft⟩ := ih t hstill (by omega)
        exact ⟨k + 1, u, by omega, (reaches_succ hstep k).2 hreach, hleft⟩
      · exact ⟨1, t, by omega, reaches_one hstep, hstill⟩

/-- Settles O15: the turn of a pending reset; and in no other step does `ERR` or `HERR` fall (R33). -/
theorem resetInputRestoresResetState : Obligations.ResetInputRestoresResetState := by
  refine ⟨fun s rest hm hs => ?_, fun s t h hleft => ?_⟩
  · refine ⟨_, step_of_hostMoves (blockMoves_of_hostMoves hm), ?_⟩
    rw [hostTurn_reset s hs]
  · by_contra hno
    obtain ⟨-, -, hsticky⟩ := statusRegister
    obtain ⟨hherr, hfault, -⟩ := hsticky s t h (not_exists.1 hno)
    rcases hleft with ⟨hin, hout⟩ | ⟨hset, hclear⟩
    · exact hout (hfault hin)
    · exact absurd ((hherr hset).symm.trans hclear) (by decide)

end
